-- ==== Sys2Proof/Word.lean ====
section
/-! DEFINITION. The word types. Fields of the command format have fixed widths (R73, R6) and are bit vectors. Symbols
(SW bits, R15), weights (WW bits, R15), node indices and NIL (NA bits, R51) and positions (PW bits) have widths that are
parameters of the instance (R6): they are plain `Nat`, the spec's own unsigned values (R8), and their width bounds are the
invariant that every step keeps (`Safety.lean`). -/

namespace Sys2Proof

/-- The 16-bit head of a command: opcode and index field (R73). -/
abbrev Head := BitVec 16

/-- The 5-bit opcode, `head[15:11]` (R73). -/
abbrev Opcode := BitVec 5

/-- The 11-bit index field, `head[10:0]` (R73). -/
abbrev Index := BitVec 11

/-- FINFO, FIW = 16 bits (R30). -/
abbrev Info := BitVec 16

/-- A codeword: "the bit sequence assigned to a symbol", first branch first (R15, R84). -/
abbrev Codeword := List Bool

end Sys2Proof
end

