-- ==== Sys2Proof/Config.lean ====
section
/-! DEFINITION. The implementation parameters of `00_scope.md` R6: four free ones and the values computed from them. -/

namespace Sys2Proof

/-- The four free parameters of an instance (R6). They are constants of the instance (R41). -/
structure Params where
  /-- SW, width of a symbol in bits. -/
  sw : Nat
  /-- WW, width of a weight in bits. -/
  ww : Nat
  /-- CLMAX, greatest codeword length in bits that the code table holds. -/
  clmax : Nat
  /-- PW, width of the read-position counter POS. -/
  pw : Nat
  deriving DecidableEq, Repr

namespace Params

/-- The default instance, "the value every example and test vector of this spec uses" (R6). -/
def standard : Params := { sw := 8, ww := 32, clmax := 255, pw := 32 }

/-- The number of symbols, the entries of FREQ and of CT: 2^SW (R21, R23). -/
def nsym (P : Params) : Nat := 2 ^ P.sw

/-- NA, width of a node index (R6). -/
def na (P : Params) : Nat := P.sw + 1

/-- NNODES, number of entries of the node memory (R6). -/
def nnodes (P : Params) : Nat := 2 ^ P.na - 1

/-- NIL, the node-index value that means "no node" (R6, R51). -/
def nil (P : Params) : Nat := 2 ^ P.na - 1

/-- LW, width of the LEN field: the least LW with 2^LW > CLMAX (R6). -/
def lw (P : Params) : Nat := Nat.log2 P.clmax + 1

/-- NODEW, width of a node word (R6, R80). -/
def nodew (P : Params) : Nat := 1 + P.ww + 2 * P.na

/-- CTW, width of a code-table entry (R6, R84). -/
def ctw (P : Params) : Nat := P.lw + P.clmax

/-- FIW, width of FINFO, fixed (R6). -/
def fiw : Nat := 16

/-- DW, width of the data field of a command and of a read response (R6). -/
def dw (P : Params) : Nat := max P.ctw (max (P.nodew + 1) (max P.ww (max P.pw fiw)))

/-- The legal ranges of the four free parameters (R6). -/
def legal (P : Params) : Bool :=
  decide (1 ≤ P.sw ∧ P.sw ≤ 10 ∧ 1 ≤ P.ww ∧ P.ww ≤ 64 ∧
    1 ≤ P.clmax ∧ P.clmax ≤ 2 ^ P.sw - 1 ∧ 1 ≤ P.pw ∧ P.pw ≤ 64)

end Params

end Sys2Proof
end

