-- ==== Sys2Proof/Syntax.lean ====
section
/-! DEFINITION. The commands (R76), one constructor per row of `spec/opcode_table.json`, with the data operands as the
things they are: a node word is the tagged variant of R80, a code-table entry is its codeword (R84). -/

namespace Sys2Proof

/-- A node word: "tagged variant (Leaf{symbol, weight} | Internal{weight, left, right})" (R80 to R82). -/
inductive NodeWord where
  /-- K = 0: a Leaf with WEIGHT and SYM (R82). -/
  | leaf (weight : Nat) (sym : Nat)
  /-- K = 1: an Internal node with WEIGHT, LEFT and RIGHT; a child is a node index or NIL (R81). -/
  | internal (weight : Nat) (left right : Nat)
  deriving DecidableEq, Repr

/-- A command as the port carries it: the head (opcode and index) and the data field (R71, R73). -/
structure Command where
  head : Head
  data : Nat
  deriving DecidableEq, Repr

/-- The eighteen commands (R76). An index operand is the whole 11-bit `cmd_idx` (R75); its range is checked when the
command is performed (R93, R95). -/
inductive Instr where
  /-- R101 -/
  | nop
  /-- R102 -/
  | reset
  /-- R103 -/
  | rdreg (reg : Index)
  /-- R105 -/
  | wrnode (i : Index) (word : NodeWord)
  /-- R106 -/
  | rdnode (i : Index)
  /-- R107 -/
  | wrct (s : Index) (entry : Codeword)
  /-- R108 -/
  | rdct (s : Index)
  /-- R109 -/
  | wrfreq (s : Index) (w : Nat)
  /-- R110 -/
  | rdfreq (s : Index)
  /-- R111 -/
  | setroot (i : Index)
  /-- R112 -/
  | clrfreq
  /-- R130 -/
  | count (s : Index)
  /-- R141 -/
  | build
  /-- R161 -/
  | derive
  /-- R171 -/
  | esym (s : Index)
  /-- R181 -/
  | dstart
  /-- R182 -/
  | dbit (b : Bool)
  /-- R183 -/
  | dend
  deriving DecidableEq, Repr

end Sys2Proof
end

