-- ==== Sys2Proof/WellFormed.lean ====
section
/-! DEFINITION. When a command's data operand fits the fields of an instance (R80 to R85, R94). An index operand is any
11-bit value: one outside its space is a well-formed command that raises BadIndex (R93). -/

namespace Sys2Proof

/-- The node word's fields fit their widths: WEIGHT in WW bits, SYM in SW bits, LEFT and RIGHT in NA bits (R80 to R82);
"Any WEIGHT, any LEFT and RIGHT, and any SYM are legal" (R94). -/
def NodeWord.wf (P : Params) : NodeWord → Bool
  | .leaf w s => decide (w < 2 ^ P.ww ∧ s < 2 ^ P.sw)
  | .internal w l r => decide (w < 2 ^ P.ww ∧ l < 2 ^ P.na ∧ r < 2 ^ P.na)

/-- LEN is at most CLMAX (R84, R94). -/
def codewordWf (P : Params) (c : Codeword) : Bool := decide (c.length ≤ P.clmax)

/-- The command's data operand fits the data field of the instance. -/
def Instr.wf (P : Params) : Instr → Bool
  | .nop => true
  | .reset => true
  | .rdreg _ => true
  | .wrnode _ word => word.wf P
  | .rdnode _ => true
  | .wrct _ entry => codewordWf P entry
  | .rdct _ => true
  | .wrfreq _ w => decide (w < 2 ^ P.ww)
  | .rdfreq _ => true
  | .setroot _ => true
  | .clrfreq => true
  | .count _ => true
  | .build => true
  | .derive => true
  | .esym _ => true
  | .dstart => true
  | .dbit _ => true
  | .dend => true

/-- The command fits the command port: its data field has DW bits (R70, R73). -/
def Command.wf (P : Params) (c : Command) : Bool := decide (c.data < 2 ^ P.dw)

end Sys2Proof
end

