-- ==== Sys2Proof/Decode.lean ====
section
/-! DEFINITION. Decoding a command (R73 to R76, R80 to R84, R91, R92, R94) and, after it, the encoder written from the same
tables. Every command that decoding refuses, under whatever name, is the fault IllegalCommand (R91, R92). -/

namespace Sys2Proof

/-! ## Bit fields -/

/-- `v[hi:lo]`, "the slice of `v` from bit `hi` down to bit `lo`, both included" (R8). -/
def field (v hi lo : Nat) : Nat := v / 2 ^ lo % 2 ^ (hi + 1 - lo)

/-- `cmd_op = head[15:11]` (R73). -/
def headOpcode (h : Head) : Opcode := h.extractLsb' 11 5

/-- `cmd_idx = head[10:0]` (R73). -/
def headIndex (h : Head) : Index := h.extractLsb' 0 11

/-- The head with this opcode and this index: `op ‖ idx` (R73). -/
def headOf (op : Opcode) (idx : Index) : Head := op ++ idx

/-- The first `len` bits of a CODE field in the order of the codeword: CODE[0], .., CODE[len - 1] (R84). -/
def codeBits : Nat → Nat → Codeword
  | 0, _ => []
  | len + 1, code => (code % 2 == 1) :: codeBits len (code / 2)

/-- The CODE field of a codeword: the sum over k of CODE[k] * 2^k (R84). -/
def codeNum : Codeword → Nat
  | [] => 0
  | b :: bits => b.toNat + 2 * codeNum bits

/-! ## Data layouts -/

/-- The node word in the low NODEW bits of a data field; none when a Leaf's reserved bits `[2*NA-1:SW]` are not zero
(R80, R81, R82, R94). -/
def readNodeWord (P : Params) (v : Nat) : Option NodeWord :=
  let weight := field v (P.nodew - 2) (2 * P.na)
  if field v (P.nodew - 1) (P.nodew - 1) = 0 then
    if field v (2 * P.na - 1) P.sw = 0 then some (.leaf weight (field v (P.sw - 1) 0)) else none
  else some (.internal weight (field v (2 * P.na - 1) P.na) (field v (P.na - 1) 0))

/-- A node word as a number (R81, R82). -/
def nodeWordNum (P : Params) : NodeWord → Nat
  | .leaf w s => w * 2 ^ (2 * P.na) + s
  | .internal w l r => 2 ^ (P.nodew - 1) + w * 2 ^ (2 * P.na) + l * 2 ^ P.na + r

/-- The code-table entry in the low CTW bits of a data field: LEN is `[CTW-1:CLMAX]`, CODE is `[CLMAX-1:0]`; none when LEN
is greater than CLMAX or a CODE bit at a position of LEN or more is set (R84, R94). -/
def readEntry (P : Params) (v : Nat) : Option Codeword :=
  let len := field v (P.ctw - 1) P.clmax
  let code := field v (P.clmax - 1) 0
  if len ≤ P.clmax ∧ code < 2 ^ len then some (codeBits len code) else none

/-- A code-table entry as a number: LEN * 2^CLMAX + CODE (R84). -/
def entryNum (P : Params) (c : Codeword) : Nat := c.length * 2 ^ P.clmax + codeNum c

/-! ## Decoding -/

/-- Why a command is refused: each is IllegalCommand with info = the head (R91, R92). -/
inductive DecodeError where
  /-- A reserved opcode (R91). -/
  | reservedOpcode
  /-- Format N with a non-zero index, or format B with a non-zero `cmd_idx[10:1]` (R92 (a), (b)). -/
  | indexNotZero
  /-- A format without a data operand with non-zero data (R92 (c)). -/
  | dataNotZero
  /-- Data bits set above the data operand (R92 (d), (e), (f)). -/
  | dataTooWide
  /-- The data operand breaks its layout (R92 (g), R94). -/
  | dataLayout
  deriving DecidableEq, Repr

/-- Format N: no operand (R74). -/
def formatN (c : Command) (i : Instr) : Except DecodeError Instr :=
  if headIndex c.head ≠ 0 then .error .indexNotZero
  else if c.data ≠ 0 then .error .dataNotZero
  else .ok i

/-- Formats R, S, X and XR: an index, no data (R74). -/
def formatIndex (c : Command) (i : Index → Instr) : Except DecodeError Instr :=
  if c.data ≠ 0 then .error .dataNotZero else .ok (i (headIndex c.head))

/-- Format B: a bit in `idx[0]`, the rest of the index zero (R74, R75). -/
def formatB (c : Command) (i : Bool → Instr) : Except DecodeError Instr :=
  if (headIndex c.head).toNat / 2 ≠ 0 then .error .indexNotZero
  else if c.data ≠ 0 then .error .dataNotZero
  else .ok (i ((headIndex c.head).toNat % 2 == 1))

/-- Format XN: a node index and a node word in `data[NODEW-1:0]` (R74). -/
def formatXN (P : Params) (c : Command) (i : Index → NodeWord → Instr) : Except DecodeError Instr :=
  if c.data / 2 ^ P.nodew ≠ 0 then .error .dataTooWide
  else match readNodeWord P c.data with
    | some word => .ok (i (headIndex c.head) word)
    | none => .error .dataLayout

/-- Format SC: a symbol and a code-table entry in `data[CTW-1:0]` (R74). -/
def formatSC (P : Params) (c : Command) (i : Index → Codeword → Instr) : Except DecodeError Instr :=
  if c.data / 2 ^ P.ctw ≠ 0 then .error .dataTooWide
  else match readEntry P c.data with
    | some entry => .ok (i (headIndex c.head) entry)
    | none => .error .dataLayout

/-- Format SF: a symbol and a weight in `data[WW-1:0]` (R74). -/
def formatSF (P : Params) (c : Command) (i : Index → Nat → Instr) : Except DecodeError Instr :=
  if c.data / 2 ^ P.ww ≠ 0 then .error .dataTooWide else .ok (i (headIndex c.head) c.data)

/-- "The opcode alone selects the command and its format" (R73): the opcode map of R76; every opcode it does not list is
reserved (R91). -/
def decode (P : Params) (c : Command) : Except DecodeError Instr :=
  match (headOpcode c.head).toNat with
  | 0x00 => formatN c .nop
  | 0x01 => formatN c .reset
  | 0x02 => formatIndex c .rdreg
  | 0x04 => formatXN P c .wrnode
  | 0x05 => formatIndex c .rdnode
  | 0x06 => formatSC P c .wrct
  | 0x07 => formatIndex c .rdct
  | 0x08 => formatSF P c .wrfreq
  | 0x09 => formatIndex c .rdfreq
  | 0x0A => formatIndex c .setroot
  | 0x0B => formatN c .clrfreq
  | 0x0C => formatIndex c .count
  | 0x0D => formatN c .build
  | 0x0E => formatN c .derive
  | 0x10 => formatIndex c .esym
  | 0x14 => formatN c .dstart
  | 0x15 => formatB c .dbit
  | 0x16 => formatN c .dend
  | _ => .error .reservedOpcode

/-! ## The encoder -/

/-- The opcode of a command (R76). -/
def opcodeOf : Instr → Opcode
  | .nop => 0x00#5
  | .reset => 0x01#5
  | .rdreg _ => 0x02#5
  | .wrnode _ _ => 0x04#5
  | .rdnode _ => 0x05#5
  | .wrct _ _ => 0x06#5
  | .rdct _ => 0x07#5
  | .wrfreq _ _ => 0x08#5
  | .rdfreq _ => 0x09#5
  | .setroot _ => 0x0A#5
  | .clrfreq => 0x0B#5
  | .count _ => 0x0C#5
  | .build => 0x0D#5
  | .derive => 0x0E#5
  | .esym _ => 0x10#5
  | .dstart => 0x14#5
  | .dbit _ => 0x15#5
  | .dend => 0x16#5

/-- The index field of a command: zero where the format has no index operand (R74). -/
def indexOf : Instr → Index
  | .nop => 0#11
  | .reset => 0#11
  | .rdreg reg => reg
  | .wrnode i _ => i
  | .rdnode i => i
  | .wrct s _ => s
  | .rdct s => s
  | .wrfreq s _ => s
  | .rdfreq s => s
  | .setroot i => i
  | .clrfreq => 0#11
  | .count s => s
  | .build => 0#11
  | .derive => 0#11
  | .esym s => s
  | .dstart => 0#11
  | .dbit b => BitVec.ofNat 11 b.toNat
  | .dend => 0#11

/-- The data field of a command: zero where the format has no data operand (R74). -/
def dataOf (P : Params) : Instr → Nat
  | .nop => 0
  | .reset => 0
  | .rdreg _ => 0
  | .wrnode _ word => nodeWordNum P word
  | .rdnode _ => 0
  | .wrct _ entry => entryNum P entry
  | .rdct _ => 0
  | .wrfreq _ w => w
  | .rdfreq _ => 0
  | .setroot _ => 0
  | .clrfreq => 0
  | .count _ => 0
  | .build => 0
  | .derive => 0
  | .esym _ => 0
  | .dstart => 0
  | .dbit _ => 0
  | .dend => 0

/-- The command of a well-formed instruction (R73, R74, R76). -/
def encode (P : Params) (i : Instr) : Command :=
  { head := headOf (opcodeOf i) (indexOf i), data := dataOf P i }

/-! ## Words of the opcode table -/

/-- The command whose bits are the low `nbits` bits of `w`, the head in bits 15 to 0 and the DW bits of the data field from
bit 16 up; every bit above `nbits` is zero. -/
def commandOfTableWord (P : Params) (nbits w : Nat) : Command :=
  let bits := w % 2 ^ min nbits (16 + P.dw)
  { head := BitVec.ofNat 16 bits, data := bits / 2 ^ 16 }

/-- The instruction the decoder reads, at the default parameters, from the command whose bits are `w`. -/
def decodeTableWord (nbits w : Nat) : Option Instr :=
  (decode Params.standard (commandOfTableWord Params.standard nbits w)).toOption

end Sys2Proof
end

