-- ==== Sys2Proof/Machine/State.lean ====
section
/-! DEFINITION. The state of the block (R20), its reset (R42), and the outcomes a step can have. -/

namespace Sys2Proof.Machine

/-- The faults of R201. Each is recorded in FAULT; none stops the machine (R203, R205). -/
inductive FaultCode where
  /-- "no symbols to build a tree from" (BUILD) -/
  | invalidInput
  /-- "encode requested for a symbol absent from the supplied table" (ESYM) -/
  | unknownSymbol
  /-- "decode ran out of bits before reaching a leaf" (DEND) -/
  | truncatedInput
  /-- reserved opcode, must-be-zero field, data layout (any command) -/
  | illegalCommand
  /-- `cmd_idx` outside its space -/
  | badIndex
  /-- command not allowed in this session state -/
  | seqError
  /-- ROOT = NIL (DSTART, DERIVE) -/
  | noTree
  /-- the entry to be used has V = 0 (DSTART, DBIT, DERIVE) -/
  | invalidNode
  /-- the child field the bit selects is NIL (DBIT) -/
  | absentChild
  /-- NODE[ROOT] is a Leaf (DSTART, DERIVE) -/
  | rootIsLeaf
  /-- a count at its maximum (COUNT), or a total that does not fit (BUILD) -/
  | weightOverflow
  /-- a node met at a depth greater than CLMAX (DERIVE) -/
  | codeTooLong
  /-- a leaf's symbol already has a codeword (DERIVE) -/
  | duplicateSymbol
  deriving DecidableEq, Repr

/-- The reasons for which the MODEL stops. There is none: every fault of the block is recorded in FAULT and the block goes on
(R203, R205), and no behaviour of the block is stuck (`93_implementation_defined.md`). Safe: nothing raises one. -/
inductive Fault where
  deriving DecidableEq, Repr

/-- The reasons for which the model has no meaning for a command. -/
inductive Refusal where
  /-- Raised by an arm of `exec` whose instruction has no meaning yet; every instruction has one. Safe. -/
  | notModelled (mnemonic : String)
  deriving DecidableEq, Repr

/-- The three memories (R20), each a list of (index, entry) with strictly rising indices and without the entries that
equal what an unlisted index reads as: 0 in FREQ (R21), V = 0 in NODE (R22), the empty entry in CT (R23). -/
structure Memory where
  /-- FREQ: the entries that are not 0 (R21). -/
  freq : List (Nat × Nat)
  /-- NODE: the entries with V = 1, each with its word (R22). -/
  node : List (Nat × NodeWord)
  /-- CT: the entries whose LEN is not 0, each as its codeword (R23, R84). -/
  ct : List (Nat × Codeword)
  deriving DecidableEq, Repr

/-- What the host can put to the block between two commands: a command on the command port (R71), or the rst input, which
is modelled as acting between two commands (R232). -/
inductive HostInput where
  | command (c : Command)
  | rst
  deriving DecidableEq, Repr

/-- The state of the block. -/
structure State where
  /-- FREQ, NODE and CT (R21 to R23). -/
  mem : Memory
  /-- ROOT (R24). -/
  root : Nat
  /-- NNODE (R25). -/
  nnode : Nat
  /-- CUR (R26). -/
  cur : Nat
  /-- POS (R27). -/
  pos : Nat
  /-- DACT (R28). -/
  dact : Bool
  /-- FAULT: none is the code 0 (R29). -/
  fault : Option FaultCode
  /-- FINFO (R30). -/
  finfo : Info
  /-- SYMQ, the symbols the decoder has emitted, first one first (R40). -/
  symq : List Nat
  /-- BITQ, the bits the encoder has emitted, first one first (R40). -/
  bitq : List Bool
  /-- RSPQ, the read responses, first one first (R40). -/
  rspq : List Nat
  /-- The model's own: the host inputs not yet taken, next one first (log entry 2). -/
  cmdq : List HostInput
  /-- The model's own: the parameters of this instance, constants that no step changes (R6, R41; log entry 1). -/
  inst : Params
  deriving DecidableEq, Repr

/-- The state after reset of an instance with parameters `P` (R42, R230), with empty streams and no input pending. -/
def State.resetOf (P : Params) : State where
  mem := { freq := [], node := [], ct := [] }
  root := P.nil
  nnode := 0
  cur := P.nil
  pos := 0
  dact := false
  fault := none
  finfo := 0#16
  symq := []
  bitq := []
  rspq := []
  cmdq := []
  inst := P

/-- The state after reset, at the default parameters (R6, R42). -/
def State.reset : State := State.resetOf Params.standard

end Sys2Proof.Machine
end

