-- ==== Sys2Proof/Machine/Ops.lean ====
section
/-! DEFINITION. The named operations: access to the three memories (R50, R54), the output streams (R10, R40), raising a
fault (R11, R203), dropping a command in the faulted state (R90), and the reset state (R42). -/

namespace Sys2Proof.Machine

/-- What a meaning answers. -/
abbrev Result := Host.Outcome State Fault Refusal

/-! ## One sparse memory -/

/-- The entry listed at an index. -/
def memFind {α : Type} : List (Nat × α) → Nat → Option α
  | [], _ => none
  | (j, v) :: m, k => if j = k then some v else memFind m k

/-- The memory without its entry at an index. -/
def memErase {α : Type} : List (Nat × α) → Nat → List (Nat × α)
  | [], _ => []
  | (j, v) :: m, k => if j = k then memErase m k else (j, v) :: memErase m k

/-- The memory with an entry put in its place by index. -/
def memInsert {α : Type} : List (Nat × α) → Nat → α → List (Nat × α)
  | [], k, x => [(k, x)]
  | (j, v) :: m, k, x => if k < j then (k, x) :: (j, v) :: m else (j, v) :: memInsert m k x

/-- One whole entry written (R54): none lists nothing at the index, so that it reads as an unlisted one. -/
def memPut {α : Type} (m : List (Nat × α)) (k : Nat) (x : Option α) : List (Nat × α) :=
  match x with
  | none => memErase m k
  | some v => memInsert (memErase m k) k v

/-! ## The three memories -/

namespace Memory

/-- `FREQ[s]` (R21). -/
def readFreq (m : Memory) (s : Nat) : Nat := (memFind m.freq s).getD 0

/-- `MemWrite(FREQ, s, w)`: a zero entry is not a key (R21). -/
def writeFreq (m : Memory) (s : Nat) (w : Nat) : Memory :=
  { m with freq := memPut m.freq s (if w = 0 then none else some w) }

/-- `NODE[i]`: none when V = 0, else the word (R22). -/
def readNode (m : Memory) (i : Nat) : Option NodeWord := memFind m.node i

/-- `NODE[i] <- valid word` (R22). -/
def writeNode (m : Memory) (i : Nat) (word : NodeWord) : Memory :=
  { m with node := memPut m.node i (some word) }

/-- `CT[s]` as its codeword: LEN is its length, CODE[k] its k-th bit, and LEN = 0 is "no entry" (R23, R84). -/
def readCt (m : Memory) (s : Nat) : Codeword := (memFind m.ct s).getD []

/-- `MemWrite(CT, s, entry)` (R23). -/
def writeCt (m : Memory) (s : Nat) (c : Codeword) : Memory :=
  { m with ct := memPut m.ct s (if c = [] then none else some c) }

/-- Every FREQ entry 0 (R112). -/
def clearFreq (m : Memory) : Memory := { m with freq := [] }

/-- Every valid bit of NODE 0 (R141). -/
def clearNode (m : Memory) : Memory := { m with node := [] }

/-- Every CT entry empty (R161). -/
def clearCt (m : Memory) : Memory := { m with ct := [] }

/-- The indices of a memory rise strictly and lie below `size`, and every entry satisfies `ok`. -/
def listed {α : Type} (size : Nat) (ok : α → Bool) (m : List (Nat × α)) : Bool :=
  decide ((m.map Prod.fst).Pairwise (· < ·)) && m.all (fun e => decide (e.1 < size) && ok e.2)

/-- The canonical form of the three memories, with the sizes and widths of the instance (R21 to R23, R50). -/
def wf (P : Params) (m : Memory) : Bool :=
  listed P.nsym (fun w => decide (w ≠ 0 ∧ w < 2 ^ P.ww)) m.freq &&
  listed P.nnodes (fun word => word.wf P) m.node &&
  listed P.nsym (fun c => decide (c ≠ []) && codewordWf P c) m.ct

end Memory

/-! ## The output streams -/

/-- `emit_sym(y)`: one symbol appended to SYMQ (R10). -/
def emitSym (y : Nat) (s : State) : State := { s with symq := s.symq ++ [y] }

/-- `emit_bit` for each bit in turn: appended to BITQ (R10). -/
def emitBits (bits : List Bool) (s : State) : State := { s with bitq := s.bitq ++ bits }

/-- `respond(v)`: one element appended to RSPQ (R10). -/
def respond (v : Nat) (s : State) : State := { s with rspq := s.rspq ++ [v] }

/-! ## Faults -/

/-- The code of a fault (R201); 0 is no fault (R29). -/
def faultNumber : Option FaultCode → Nat
  | none => 0
  | some .invalidInput => 1
  | some .unknownSymbol => 2
  | some .truncatedInput => 3
  | some .illegalCommand => 4
  | some .badIndex => 5
  | some .seqError => 6
  | some .noTree => 7
  | some .invalidNode => 8
  | some .absentChild => 9
  | some .rootIsLeaf => 10
  | some .weightOverflow => 11
  | some .codeTooLong => 12
  | some .duplicateSymbol => 13

/-- `raise F(info)`: FAULT and FINFO are written, nothing else (R11, R203), and only while FAULT is 0: "first fault wins"
(R29, R207). -/
def raise (f : FaultCode) (info : Nat) (s : State) : State :=
  match s.fault with
  | none => { s with fault := some f, finfo := BitVec.ofNat 16 info }
  | some _ => s

/-- The faulted-state freeze: in the faulted state the command is dropped, nothing changes (R90, R205). -/
def unlessFaulted (s : State) (k : Result) : Result :=
  if s.fault = none then k else .next s

/-- `require c else F(info)` and then the rest of the command (R11). -/
def require (c : Prop) [Decidable c] (f : FaultCode) (info : Nat) (s : State) (k : Result) : Result :=
  if c then k else .next (raise f info s)

/-! ## Reset -/

/-- What RESET and the rst input make of the state: the reset state of the instance (R42, R102, R230). The streams keep what
they hold (R40, R102, R232), the host's pending inputs are not the block's, and the parameters are constants (R41). -/
def toReset (s : State) : State :=
  { State.resetOf s.inst with symq := s.symq, bitq := s.bitq, rspq := s.rspq, cmdq := s.cmdq }

end Sys2Proof.Machine
end

