-- ==== Sys2Proof/Machine/Flags.lean ====
section
/-! DEFINITION. The block's only flags, DACT and FLT, the STATUS view and the line fault_o (R31, R210), and the three
operating states (R220). -/

namespace Sys2Proof.Machine

/-- STATUS.FLT: 1 exactly when FAULT is not 0 (R31). -/
def flt (s : State) : Bool := s.fault.isSome

/-- STATUS: bit 0 is DACT, bit 1 is FLT, the rest 0; reads as FLT * 2 + DACT (R31, R85). -/
def status (s : State) : Nat := (flt s).toNat * 2 + s.dact.toNat

/-- The output line fault_o, a level equal to STATUS.FLT (R210). -/
def faultO (s : State) : Bool := flt s

/-- The three operating states (R220). -/
inductive OperatingState where
  | idle
  | session
  | faulted
  deriving DecidableEq, Repr

/-- The operating state, determined by FAULT and DACT (R220). -/
def operatingState (s : State) : OperatingState :=
  match s.fault with
  | some _ => .faulted
  | none => if s.dact then .session else .idle

end Sys2Proof.Machine
end

