-- ==== Sys2Proof/Machine/Operands.lean ====
section
/-! DEFINITION. Index operands and their ranges (R75, R93), the registers RDREG reads (R32), and the layouts of the read
responses (R83, R85). -/

namespace Sys2Proof.Machine

/-- Formats S, SC, SF: the index is a symbol (R93). -/
def isSymbol (P : Params) (x : Index) : Bool := decide (x.toNat < P.nsym)

/-- Formats X, XN: the index is a node index; NIL is not (R51, R93). -/
def isNode (P : Params) (x : Index) : Bool := decide (x.toNat < P.nnodes)

/-- Format XR: the index is a node index or NIL (R93). -/
def isNodeOrNil (P : Params) (x : Index) : Bool := decide (x.toNat < P.nnodes ∨ x.toNat = P.nil)

/-- The index-range check: BadIndex with info = `cmd_idx` (R93). -/
def requireIndex (ok : Bool) (x : Index) (s : State) (k : Result) : Result :=
  require (ok = true) .badIndex x.toNat s k

/-- The registers RDREG reads (R32). -/
inductive Register where
  | status
  | fault
  | finfo
  | root
  | nnode
  | cur
  | pos
  deriving DecidableEq, Repr

/-- The register of a register number, 0 to 6 (R32). -/
def registerOf (x : Index) : Option Register :=
  match x.toNat with
  | 0 => some .status
  | 1 => some .fault
  | 2 => some .finfo
  | 3 => some .root
  | 4 => some .nnode
  | 5 => some .cur
  | 6 => some .pos
  | _ => none

/-- The value of a register (R103). -/
def registerValue (s : State) : Register → Nat
  | .status => status s
  | .fault => faultNumber s.fault
  | .finfo => s.finfo.toNat
  | .root => s.root
  | .nnode => s.nnode
  | .cur => s.cur
  | .pos => s.pos

/-- The response to RDNODE: V in bit NODEW, the word below it; zero when V = 0 (R83, R106). -/
def nodeResponse (P : Params) : Option NodeWord → Nat
  | none => 0
  | some word => 2 ^ P.nodew + nodeWordNum P word

end Sys2Proof.Machine
end

