-- ==== Sys2Proof/Machine/CodeTableDeriver.lean ====
section
/-! DEFINITION. The code-table deriver (`43_code_table_deriver.md`, R160 to R167). -/

namespace Sys2Proof.Machine

/-- `visit(i, d, path)` with `room` = CLMAX + 1 - d: 0 is a depth greater than CLMAX. It answers the memory with the
codewords written, or the first fault met and its info (R161, R162). -/
def visit (P : Params) : Nat → Nat → Codeword → Memory → Except (FaultCode × Nat) Memory
  | 0, i, _, m =>
    match m.readNode i with
    | none => .error (.invalidNode, i)
    | some _ => .error (.codeTooLong, i)
  | room + 1, i, path, m =>
    match m.readNode i with
    | none => .error (.invalidNode, i)
    | some (.leaf _ y) =>
      if path = [] then .error (.rootIsLeaf, i)
      else if m.readCt y ≠ [] then .error (.duplicateSymbol, y)
      else .ok (m.writeCt y path)
    | some (.internal _ l r) =>
      match (if l = P.nil then .ok m else visit P room l (path ++ [false]) m) with
      | .error e => .error e
      | .ok m1 => if r = P.nil then .ok m1 else visit P room r (path ++ [true]) m1

/-- DERIVE: CT starts empty, is filled by the walk from ROOT, and is empty again after a fault (R161). -/
def execDerive (s : State) : Result :=
  unlessFaulted s <|
  require (s.root ≠ s.inst.nil) .noTree 0 { s with mem := s.mem.clearCt } <|
  match visit s.inst (s.inst.clmax + 1) s.root [] s.mem.clearCt with
  | .ok m => .next { s with mem := m }
  | .error (f, info) => .next (raise f info { s with mem := s.mem.clearCt })

end Sys2Proof.Machine
end

