-- ==== Sys2Proof/Machine/Encoder.lean ====
section
/-! DEFINITION. The encoder (`44_encoder.md`). -/

namespace Sys2Proof.Machine

/-- ESYM: all the bits of the symbol's codeword, CODE[0] first, or UnknownSymbol and none (R171, R172). -/
def execEsym (x : Index) (s : State) : Result :=
  unlessFaulted s <|
  requireIndex (isSymbol s.inst x) x s <|
  require (s.mem.readCt x.toNat ≠ []) .unknownSymbol x.toNat s <|
  .next (emitBits (s.mem.readCt x.toNat) s)

end Sys2Proof.Machine
end

