-- ==== Sys2Proof/Machine/FrequencyCounter.lean ====
section
/-! DEFINITION. The frequency counter (`41_frequency_counter.md`). -/

namespace Sys2Proof.Machine

/-- COUNT: adds 1 to the symbol's count, which never wraps (R38 (a), R130). -/
def execCount (x : Index) (s : State) : Result :=
  unlessFaulted s <|
  requireIndex (isSymbol s.inst x) x s <|
  require (s.mem.readFreq x.toNat ≠ 2 ^ s.inst.ww - 1) .weightOverflow x.toNat s <|
  .next { s with mem := s.mem.writeFreq x.toNat (s.mem.readFreq x.toNat + 1) }

end Sys2Proof.Machine
end

