-- ==== Sys2Proof/Machine/HostAccess.lean ====
section
/-! DEFINITION. The host access commands (`40_host_access.md`, R100 to R112). -/

namespace Sys2Proof.Machine

/-- NOP: nothing, in every operating state (R101). -/
def execNop (s : State) : Result := .next s

/-- RESET: performed in every operating state (R102). -/
def execReset (s : State) : Result := .next (toReset s)

/-- RDREG: responds with the register; performed in the faulted state too, where one with a bad number is dropped (R90,
R103). -/
def execRdreg (reg : Index) (s : State) : Result :=
  match registerOf reg with
  | some r => .next (respond (registerValue s r) s)
  | none => .next (raise .badIndex reg.toNat s)

/-- WRNODE: not in a session; the entry becomes valid (R105). -/
def execWrnode (i : Index) (word : NodeWord) (s : State) : Result :=
  unlessFaulted s <|
  requireIndex (isNode s.inst i) i s <|
  require (s.dact = false) .seqError 0x04 s <|
  .next { s with mem := s.mem.writeNode i.toNat word }

/-- RDNODE (R106). -/
def execRdnode (i : Index) (s : State) : Result :=
  requireIndex (isNode s.inst i) i s <|
  .next (respond (nodeResponse s.inst (s.mem.readNode i.toNat)) s)

/-- WRCT: performed inside a session too (R107). -/
def execWrct (x : Index) (entry : Codeword) (s : State) : Result :=
  unlessFaulted s <|
  requireIndex (isSymbol s.inst x) x s <|
  .next { s with mem := s.mem.writeCt x.toNat entry }

/-- RDCT (R108). -/
def execRdct (x : Index) (s : State) : Result :=
  requireIndex (isSymbol s.inst x) x s <|
  .next (respond (entryNum s.inst (s.mem.readCt x.toNat)) s)

/-- WRFREQ (R109). -/
def execWrfreq (x : Index) (w : Nat) (s : State) : Result :=
  unlessFaulted s <|
  requireIndex (isSymbol s.inst x) x s <|
  .next { s with mem := s.mem.writeFreq x.toNat w }

/-- RDFREQ (R110). -/
def execRdfreq (x : Index) (s : State) : Result :=
  requireIndex (isSymbol s.inst x) x s <|
  .next (respond (s.mem.readFreq x.toNat) s)

/-- SETROOT: not in a session; the entry named is not looked at (R111). -/
def execSetroot (i : Index) (s : State) : Result :=
  unlessFaulted s <|
  requireIndex (isNodeOrNil s.inst i) i s <|
  require (s.dact = false) .seqError 0x0A s <|
  .next { s with root := i.toNat }

/-- CLRFREQ: performed inside a session too (R112). -/
def execClrfreq (s : State) : Result :=
  unlessFaulted s <|
  .next { s with mem := s.mem.clearFreq }

end Sys2Proof.Machine
end

