-- ==== Sys2Proof/Machine/TreeBuilder.lean ====
section
/-! DEFINITION. The tree builder (`42_tree_builder.md`, R140 to R149). -/

namespace Sys2Proof.Machine

/-- An element of BUILD's priority collection: a node not yet merged, with its weight (R39, R144). -/
structure Pending where
  weight : Nat
  index : Nat
  deriving DecidableEq, Repr

/-- `key(a) < key(b)`: the smaller weight first, between equal weights the smaller index (R144). -/
def keyLt (a b : Pending) : Bool :=
  decide (a.weight < b.weight ∨ (a.weight = b.weight ∧ a.index < b.index))

/-- The element with the least key and the collection without it (R141, R144). -/
def popLeast : List Pending → Option (Pending × List Pending)
  | [] => none
  | a :: q =>
    match popLeast q with
    | none => some (a, [])
    | some (b, rest) => if keyLt b a then some (b, a :: rest) else some (a, b :: rest)

/-- `S`: the symbols present, ascending (R141, R143). -/
def presentSymbols (P : Params) (m : Memory) : List Nat :=
  (List.range P.nsym).filter (fun y => m.readFreq y ≠ 0)

/-- "the sum of all FREQ entries, taken in unbounded arithmetic" (R141). -/
def totalWeight (P : Params) (m : Memory) : Nat :=
  ((presentSymbols P m).map m.readFreq).sum

/-- The leaves, one per symbol, at successive indices from `k`; the weight is a copy of the count (R143). -/
def seedLeaves : List Nat → Nat → Memory → Memory
  | [], _, m => m
  | y :: ys, k, m => seedLeaves ys (k + 1) (m.writeNode k (.leaf (m.readFreq y) y))

/-- The collection the merge starts from: the indices of the leaves (R141). -/
def seedQueue : List Nat → Nat → Memory → List Pending
  | [], _, _ => []
  | y :: ys, k, m => { weight := m.readFreq y, index := k } :: seedQueue ys (k + 1) m

/-- The merge loop, at most `fuel` times: the two least are removed, the first is LEFT and the second RIGHT of a new
Internal node at the next free index `k`, which joins the collection (R141, R145). -/
def mergeLoop : Nat → List Pending → Nat → Memory → Memory
  | 0, _, _, m => m
  | fuel + 1, q, k, m =>
    match popLeast q with
    | none => m
    | some (a, q1) =>
      match popLeast q1 with
      | none => m
      | some (b, q2) =>
        mergeLoop fuel ({ weight := a.weight + b.weight, index := k } :: q2) (k + 1)
          (m.writeNode k (.internal (a.weight + b.weight) a.index b.index))

/-- The tree of the frequency memory: the old entries are gone, the leaves stand first, then the merged nodes; one symbol
alone gets the Internal root of the single-symbol policy (R141, R146, R148). -/
def buildTree (P : Params) (m : Memory) : Memory :=
  let ys := presentSymbols P m
  let leaves := seedLeaves ys 0 m.clearNode
  match ys with
  | [y] => leaves.writeNode 1 (.internal (m.readFreq y) 0 P.nil)
  | _ => mergeLoop (ys.length - 1) (seedQueue ys 0 m) ys.length leaves

/-- NNODE after BUILD on `n` symbols: 2 for one symbol, else 2n - 1 (R141). -/
def builtCount (n : Nat) : Nat := if n = 1 then 2 else 2 * n - 1

/-- BUILD (R141, R142): all three checks come before anything is written. The root is the last entry written. -/
def execBuild (s : State) : Result :=
  unlessFaulted s <|
  require (s.dact = false) .seqError 0x0D s <|
  require (presentSymbols s.inst s.mem ≠ []) .invalidInput 0 s <|
  require (totalWeight s.inst s.mem < 2 ^ s.inst.ww) .weightOverflow 0 s <|
  .next { s with
    mem := buildTree s.inst s.mem
    root := builtCount (presentSymbols s.inst s.mem).length - 1
    nnode := builtCount (presentSymbols s.inst s.mem).length }

end Sys2Proof.Machine
end

