-- ==== Sys2Proof/Machine/TreeWalker.lean ====
section
/-! DEFINITION. The decoder, the tree walker (`45_decoder.md`, R180 to R192). -/

namespace Sys2Proof.Machine

/-- DSTART: the session opens at the root, which must be a valid Internal node (R181). -/
def execDstart (s : State) : Result :=
  unlessFaulted s <|
  require (s.dact = false) .seqError 0x14 s <|
  require (s.root ≠ s.inst.nil) .noTree 0 s <|
  match s.mem.readNode s.root with
  | none => .next (raise .invalidNode s.root s)
  | some (.leaf _ _) => .next (raise .rootIsLeaf s.root s)
  | some (.internal _ _ _) => .next { s with cur := s.root, pos := 0, dact := true }

/-- The leaf step: "if the cursor is at a Leaf, emit its symbol and reset the cursor to the root (without consuming a bit on
this step)" (R180, R182). -/
def leafStep (s : State) : State :=
  match s.mem.readNode s.cur with
  | some (.leaf _ y) => { emitSym y s with cur := s.root }
  | _ => s

/-- The bit step: "move the cursor to the left child on 0 or the right child on 1, and advance the read position" (R180,
R182). The first two cases are states no run reaches (R26); they end in the fault the walker has for such an entry (log
entry 7). -/
def bitStep (b : Bool) (s : State) : Result :=
  match s.mem.readNode s.cur with
  | none => .next (raise .invalidNode s.cur s)
  | some (.leaf _ _) => .next (raise .rootIsLeaf s.cur s)
  | some (.internal _ l r) =>
    let c := if b then r else l
    require (c ≠ s.inst.nil) .absentChild s.cur s <|
    require (s.mem.readNode c ≠ none) .invalidNode c s <|
    .next { s with cur := c, pos := (s.pos + 1) % 2 ^ s.inst.pw }

/-- DBIT: a leaf step if the cursor stands on a leaf, then the bit step; a fault of the bit step keeps the leaf step
(R182, R204 (a)). -/
def execDbit (b : Bool) (s : State) : Result :=
  unlessFaulted s <|
  require (s.dact = true) .seqError 0x15 s <|
  bitStep b (leafStep s)

/-- DEND: the cursor on a leaf is success, on an Internal node TruncatedInput (R183). The last case is a state no run
reaches (R26; log entry 7). -/
def execDend (s : State) : Result :=
  unlessFaulted s <|
  require (s.dact = true) .seqError 0x16 s <|
  match s.mem.readNode s.cur with
  | some (.leaf _ y) => .next { emitSym y s with dact := false }
  | some (.internal _ _ _) => .next (raise .truncatedInput s.cur s)
  | none => .next (raise .invalidNode s.cur s)

end Sys2Proof.Machine
end

