-- ==== Sys2Proof/Machine/Dispatch.lean ====
section
/-! DEFINITION. One arm per command: the performance of a decoded command. -/

namespace Sys2Proof.Machine

def exec (i : Instr) (s : State) : Host.Outcome State Fault Refusal :=
  match i with
  | .nop => Sys2Proof.Machine.execNop s
  | .reset => Sys2Proof.Machine.execReset s
  | .rdreg reg => Sys2Proof.Machine.execRdreg reg s
  | .wrnode k word => Sys2Proof.Machine.execWrnode k word s
  | .rdnode k => Sys2Proof.Machine.execRdnode k s
  | .wrct x entry => Sys2Proof.Machine.execWrct x entry s
  | .rdct x => Sys2Proof.Machine.execRdct x s
  | .wrfreq x w => Sys2Proof.Machine.execWrfreq x w s
  | .rdfreq x => Sys2Proof.Machine.execRdfreq x s
  | .setroot k => Sys2Proof.Machine.execSetroot k s
  | .clrfreq => Sys2Proof.Machine.execClrfreq s
  | .count x => Sys2Proof.Machine.execCount x s
  | .build => Sys2Proof.Machine.execBuild s
  | .derive => Sys2Proof.Machine.execDerive s
  | .esym x => Sys2Proof.Machine.execEsym x s
  | .dstart => Sys2Proof.Machine.execDstart s
  | .dbit b => Sys2Proof.Machine.execDbit b s
  | .dend => Sys2Proof.Machine.execDend s

end Sys2Proof.Machine
end

