-- ==== Sys2Proof/Machine/CommandPort.lean ====
section
/-! DEFINITION. What the block does with the host's next input (R71, R95, R231). -/

namespace Sys2Proof.Machine

/-- A command that does not decode: IllegalCommand with info = the 16-bit head, whatever the reason; in the faulted state
it is dropped (R90, R91, R92, R95). -/
def refuseCommand (c : Command) (s : State) : Result :=
  .next (raise .illegalCommand c.head.toNat s)

/-- One command taken and performed completely (R71). -/
def takeCommand (c : Command) (s : State) : Result :=
  match decode s.inst c with
  | .ok i => exec i s
  | .error _ => refuseCommand c s

/-- The rst input between two commands (R230 to R232). -/
def takeRst (s : State) : Result := .next (toReset s)

/-- The next host input taken; with none, the block waits and holds its state (R42, R225). -/
def serviceHost (s : State) : Result :=
  match s.cmdq with
  | [] => .next s
  | .command c :: rest => takeCommand c { s with cmdq := rest }
  | .rst :: rest => takeRst { s with cmdq := rest }

/-- The host offers an input before all those still pending. -/
def offerFirst (x : HostInput) (s : State) : State := { s with cmdq := x :: s.cmdq }

end Sys2Proof.Machine
end

