-- ==== Sys2Proof/Machine/Step.lean ====
section
/-! DEFINITION. One step: one host input, taken and performed (R71). -/

namespace Sys2Proof.Machine

/-- One step of the block. -/
def step (s : State) : Host.Outcome State Fault Refusal := serviceHost s

/-- The state in which the command with these bits is the next one the host presents (log entry 8). -/
def State.withFetchWord (s : State) (nbits w : Nat) : State :=
  offerFirst (.command (commandOfTableWord s.inst nbits w)) s

end Sys2Proof.Machine
end

