-- ==== Sys2Proof/Machine/Pseudo.lean ====
section
/-! DEFINITION. The pseudo-instructions of R97 and command sequences performed one after another (R56). -/

namespace Sys2Proof.Machine

/-- The index field that names a symbol or a node. -/
def ix (n : Nat) : Index := BitVec.ofNat 11 n

/-- `COUNTS`: one COUNT per symbol, in order (R97). -/
def counts (xs : List Nat) : List Instr := xs.map (fun x => .count (ix x))

/-- `ESYMS`: one ESYM per symbol, in order (R97). -/
def esyms (xs : List Nat) : List Instr := xs.map (fun x => .esym (ix x))

/-- `DBITS`: one DBIT per bit, in order (R97). -/
def dbits (bs : List Bool) : List Instr := bs.map .dbit

/-- `BUILDCODE`: BUILD then DERIVE (R97). -/
def buildCode : List Instr := [.build, .derive]

/-- `DECODE`: DSTART, one DBIT per bit, DEND (R97). -/
def decodeBits (bs : List Bool) : List Instr := .dstart :: (dbits bs ++ [.dend])

/-- Commands performed one after the other, each complete before the next (R56). -/
def perform : List Instr → State → Result
  | [], s => .next s
  | i :: is, s =>
    match exec i s with
    | .next s' => perform is s'
    | .fault r => .fault r
    | .refused r => .refused r

end Sys2Proof.Machine
end

