-- ==== Sys2Proof/Safety.lean ====
section
/-! DEFINITION. The terms the claims use: the invariant of the state, runs that end well, the paths of a tree, the faults a
walk of the tree meets, the document's own decoding loop, and the shapes a command rule's encoding clause has. -/

namespace Sys2Proof.Machine

/-! ## The invariant -/

/-- "During a session (DACT = 1) CUR is always the index of a valid entry" (R26), and the root is "valid and Internal, checked
by DSTART" (R182). -/
def State.sessionOk (s : State) : Bool :=
  if s.dact then
    decide (s.root ≠ s.inst.nil) && (s.mem.readNode s.cur).isSome &&
      (match s.mem.readNode s.root with
        | some (.internal _ _ _) => true
        | _ => false)
  else true

/-- Every register, memory entry and stream element fits its width and its space (R6, R20 to R30, R50), FINFO is written only
with FAULT (R30), and the session is sound (R26). -/
def State.inv (s : State) : Bool :=
  s.inst.legal && s.mem.wf s.inst &&
  decide (s.root < 2 ^ s.inst.na ∧ s.nnode < 2 ^ s.inst.na ∧ s.cur < 2 ^ s.inst.na ∧ s.pos < 2 ^ s.inst.pw) &&
  decide (s.fault = none → s.finfo = 0#16) &&
  s.sessionOk &&
  s.symq.all (fun y => decide (y < 2 ^ s.inst.sw)) &&
  s.rspq.all (fun v => decide (v < 2 ^ s.inst.dw)) &&
  s.cmdq.all (fun x => match x with
    | .command c => c.wf s.inst
    | .rst => true)

/-- "It has ended well when every command has been taken and performed, FAULT = 0 and DACT = 0" (R250). -/
def State.endedWell (s : State) : Bool :=
  decide (s.cmdq = [] ∧ s.fault = none ∧ s.dact = false)

/-- The state with this fault recorded and nothing else changed (R203, R204). -/
def raised (f : FaultCode) (info : Nat) (s : State) : State :=
  { s with fault := some f, finfo := BitVec.ofNat 16 info }

/-- RDREG and the three memory reads: with NOP and RESET the commands performed in the faulted state (R90). -/
def isRead : Instr → Bool
  | .rdreg _ => true
  | .rdnode _ => true
  | .rdct _ => true
  | .rdfreq _ => true
  | _ => false

/-! ## Paths of the tree -/

/-- The node reached from `i` by a sequence of branches, 0 (false) to the left and 1 (true) to the right (R160): none when a
branch is asked of anything but a valid Internal node, or the child is NIL. The node reached may be invalid. -/
def follow (P : Params) (m : Memory) : Nat → Codeword → Option Nat
  | i, [] => some i
  | i, b :: bs =>
    match m.readNode i with
    | some (.internal _ l r) =>
      if (if b then r else l) = P.nil then none else follow P m (if b then r else l) bs
    | _ => none

/-- `path` leads from ROOT to a Leaf that holds `y`. -/
def leafAt (s : State) (path : Codeword) (y : Nat) : Prop :=
  ∃ i w, follow s.inst s.mem s.root path = some i ∧ s.mem.readNode i = some (.leaf w y)

/-- `path` comes before `path'` in a traversal "node before children, left before right" (R162). -/
def visitedBefore : Codeword → Codeword → Bool
  | [], [] => false
  | [], _ :: _ => true
  | _ :: _, [] => false
  | b :: p, c :: q => if b = c then visitedBefore p q else c

/-- The fault DERIVE's visit of the node at the end of `path` raises, and its info: the checks of R161 in their order. -/
def visitFault (s : State) (path : Codeword) (f : FaultCode) (info : Nat) : Prop :=
  ∃ i, follow s.inst s.mem s.root path = some i ∧
    ((s.mem.readNode i = none ∧ f = .invalidNode ∧ info = i) ∨
     (s.mem.readNode i ≠ none ∧ path.length > s.inst.clmax ∧ f = .codeTooLong ∧ info = i) ∨
     (path.length ≤ s.inst.clmax ∧ ∃ w y, s.mem.readNode i = some (.leaf w y) ∧
       ((path = [] ∧ f = .rootIsLeaf ∧ info = i) ∨
        (path ≠ [] ∧ (∃ q, visitedBefore q path = true ∧ leafAt s q y) ∧ f = .duplicateSymbol ∧ info = y))))

/-- The tree at ROOT gives a code table: there is a root, and no visit of a reachable node raises a fault (R161). -/
def derivable (s : State) : Prop :=
  s.root ≠ s.inst.nil ∧ ∀ path f info, ¬ visitFault s path f info

/-- The codewords of a sequence of symbols, one after the other (R173). -/
def codewords (m : Memory) (xs : List Nat) : List Bool := xs.flatMap m.readCt

/-! ## The document's decoding loop (R180) -/

/-- How the document's loop ends on a bitstring: at a Leaf, at an Internal node, or at a branch or an entry that is not
there, in each case with the symbols emitted. -/
inductive LoopEnd where
  | decoded (out : List Nat)
  | truncated (out : List Nat)
  | stuck (out : List Nat)
  deriving DecidableEq, Repr

/-- The loop, one iteration for each unit of `fuel`: "if the cursor is at a Leaf, emit its symbol and reset the cursor to the
root (without consuming a bit on this step); otherwise consume the next bit, move the cursor to the left child on 0 or the
right child on 1"; at the end of the bitstring a Leaf emits its symbol and an Internal node is a Truncated Input failure
(R180). -/
def documentLoop (P : Params) (m : Memory) (root : Nat) :
    Nat → Nat → List Bool → List Nat → LoopEnd
  | 0, _, _, out => .stuck out
  | fuel + 1, cur, bits, out =>
    match bits, m.readNode cur with
    | _, none => .stuck out
    | [], some (.leaf _ y) => .decoded (out ++ [y])
    | [], some (.internal _ _ _) => .truncated out
    | b :: bs, some (.leaf _ y) => documentLoop P m root fuel root (b :: bs) (out ++ [y])
    | b :: bs, some (.internal _ l r) =>
      if (if b then r else l) = P.nil then .stuck out
      else documentLoop P m root fuel (if b then r else l) bs out

/-- The loop on a whole bitstring: at most one leaf step before each bit, and the terminal condition. -/
def documentDecode (P : Params) (m : Memory) (root : Nat) (bits : List Bool) : LoopEnd :=
  documentLoop P m root (2 * bits.length + 1) root bits []

/-! ## The tree of a BUILD -/

/-- Some merged node with index from `n` up to but not including `k` has `i` as a child: `i` has been removed from the
priority collection before node `k` is made (R141). -/
def mergedBefore (m : Memory) (n k i : Nat) : Prop :=
  ∃ j w l r, n ≤ j ∧ j < k ∧ m.readNode j = some (.internal w l r) ∧ (i = l ∨ i = r)

/-- The weight of an entry, of either kind; 0 for an invalid one. -/
def weightAt (m : Memory) (i : Nat) : Nat :=
  match m.readNode i with
  | some (.leaf w _) => w
  | some (.internal w _ _) => w
  | none => 0

/-- `key(i) < key(j)` with `key(i) = (NODE[i].WEIGHT, i)` "compared first by weight then by index" (R141). -/
def keyBefore (m : Memory) (i j : Nat) : Prop :=
  weightAt m i < weightAt m j ∨ (weightAt m i = weightAt m j ∧ i < j)

/-! ## Encoding clauses of the command rules -/

/-- The head value `base + x` (R76). -/
def headValue (base : Nat) (x : Index) : Head := BitVec.ofNat 16 (base + x.toNat)

/-- Format N with head value `base`: the command is `i`; with a non-zero index or non-zero data it is IllegalCommand with
info = the head (R74, R76, R92). -/
def encodedN (base : Nat) (i : Instr) : Prop :=
  (∀ P, decode P { head := headValue base 0#11, data := 0 } = .ok i) ∧
  ∀ (s : State) (x : Index) (d : Nat), s.fault = none → x ≠ 0#11 ∨ d ≠ 0 →
    takeCommand { head := headValue base x, data := d } s = .next (raised .illegalCommand (base + x.toNat) s)

/-- Formats R, S, X, XR with head value `base` plus the index: the command is `i x`; with non-zero data it is IllegalCommand
with info = the head (R74, R76, R92). -/
def encodedIndex (base : Nat) (i : Index → Instr) : Prop :=
  (∀ P x, decode P { head := headValue base x, data := 0 } = .ok (i x)) ∧
  ∀ (s : State) (x : Index) (d : Nat), s.fault = none → d ≠ 0 →
    takeCommand { head := headValue base x, data := d } s = .next (raised .illegalCommand (base + x.toNat) s)

/-! ## The opcode table and the checks of a command -/

/-- A row of `spec/opcode_table.json`: a command's mnemonic, and its match and mask over the 16-bit head. -/
structure OpcodeRow where
  mnemonic : String
  bits : Head
  mask : Head
  deriving DecidableEq, Repr

/-- The eighteen rows of `spec/opcode_table.json` (R76). -/
def opcodeTable : List OpcodeRow :=
  [{ mnemonic := "NOP", bits := 0x0000#16, mask := 0xFFFF#16 },
   { mnemonic := "RESET", bits := 0x0800#16, mask := 0xFFFF#16 },
   { mnemonic := "RDREG", bits := 0x1000#16, mask := 0xF800#16 },
   { mnemonic := "WRNODE", bits := 0x2000#16, mask := 0xF800#16 },
   { mnemonic := "RDNODE", bits := 0x2800#16, mask := 0xF800#16 },
   { mnemonic := "WRCT", bits := 0x3000#16, mask := 0xF800#16 },
   { mnemonic := "RDCT", bits := 0x3800#16, mask := 0xF800#16 },
   { mnemonic := "WRFREQ", bits := 0x4000#16, mask := 0xF800#16 },
   { mnemonic := "RDFREQ", bits := 0x4800#16, mask := 0xF800#16 }] ++
  [{ mnemonic := "SETROOT", bits := 0x5000#16, mask := 0xF800#16 },
   { mnemonic := "CLRFREQ", bits := 0x5800#16, mask := 0xFFFF#16 },
   { mnemonic := "COUNT", bits := 0x6000#16, mask := 0xF800#16 },
   { mnemonic := "BUILD", bits := 0x6800#16, mask := 0xFFFF#16 },
   { mnemonic := "DERIVE", bits := 0x7000#16, mask := 0xFFFF#16 },
   { mnemonic := "ESYM", bits := 0x8000#16, mask := 0xF800#16 },
   { mnemonic := "DSTART", bits := 0xA000#16, mask := 0xFFFF#16 },
   { mnemonic := "DBIT", bits := 0xA800#16, mask := 0xFFFE#16 },
   { mnemonic := "DEND", bits := 0xB000#16, mask := 0xFFFF#16 }]

/-- The mnemonic of a command (R76). -/
def mnemonicOf : Instr → String
  | .nop => "NOP"
  | .reset => "RESET"
  | .rdreg _ => "RDREG"
  | .wrnode _ _ => "WRNODE"
  | .rdnode _ => "RDNODE"
  | .wrct _ _ => "WRCT"
  | .rdct _ => "RDCT"
  | .wrfreq _ _ => "WRFREQ"
  | .rdfreq _ => "RDFREQ"
  | .setroot _ => "SETROOT"
  | .clrfreq => "CLRFREQ"
  | .count _ => "COUNT"
  | .build => "BUILD"
  | .derive => "DERIVE"
  | .esym _ => "ESYM"
  | .dstart => "DSTART"
  | .dbit _ => "DBIT"
  | .dend => "DEND"

/-- The index operand lies in its space (R74, R93); true of the formats without one. -/
def indexInSpace (P : Params) : Instr → Bool
  | .rdreg x => decide (x.toNat < 7)
  | .wrnode x _ => decide (x.toNat < P.nnodes)
  | .rdnode x => decide (x.toNat < P.nnodes)
  | .wrct x _ => decide (x.toNat < P.nsym)
  | .rdct x => decide (x.toNat < P.nsym)
  | .wrfreq x _ => decide (x.toNat < P.nsym)
  | .rdfreq x => decide (x.toNat < P.nsym)
  | .setroot x => decide (x.toNat < P.nnodes ∨ x.toNat = P.nil)
  | .count x => decide (x.toNat < P.nsym)
  | .esym x => decide (x.toNat < P.nsym)
  | _ => true

/-- The command is allowed in this session state, DACT being `dact` (R28, R220). -/
def sessionAllows (dact : Bool) : Instr → Bool
  | .wrnode _ _ => !dact
  | .setroot _ => !dact
  | .build => !dact
  | .dstart => !dact
  | .dbit _ => dact
  | .dend => dact
  | _ => true

/-- The faults a command can raise besides IllegalCommand (R202). -/
def faultsOf : Instr → List FaultCode
  | .nop => []
  | .reset => []
  | .clrfreq => []
  | .rdreg _ => [.badIndex]
  | .rdnode _ => [.badIndex]
  | .rdct _ => [.badIndex]
  | .rdfreq _ => [.badIndex]
  | .wrct _ _ => [.badIndex]
  | .wrfreq _ _ => [.badIndex]
  | .wrnode _ _ => [.badIndex, .seqError]
  | .setroot _ => [.badIndex, .seqError]
  | .count _ => [.badIndex, .weightOverflow]
  | .build => [.seqError, .invalidInput, .weightOverflow]
  | .derive => [.noTree, .invalidNode, .codeTooLong, .rootIsLeaf, .duplicateSymbol]
  | .esym _ => [.badIndex, .unknownSymbol]
  | .dstart => [.seqError, .noTree, .invalidNode, .rootIsLeaf]
  | .dbit _ => [.seqError, .absentChild, .invalidNode]
  | .dend => [.seqError, .truncatedInput]

/-- Two entries alike but for their weights: what the walker reads of a node (R188). -/
def sameShape : Option NodeWord → Option NodeWord → Prop
  | none, none => True
  | some (.leaf _ y), some (.leaf _ z) => y = z
  | some (.internal _ l r), some (.internal _ l' r') => l = l' ∧ r = r'
  | _, _ => False

/-- The state in which a DBIT's bit step starts: after the leaf step if the cursor stands on a Leaf, else as it was
(R182). -/
def afterLeafStep (s s1 : State) : Prop :=
  (∃ w y, s.mem.readNode s.cur = some (.leaf w y) ∧ s1 = { s with symq := s.symq ++ [y], cur := s.root }) ∨
  (∃ w l r, s.mem.readNode s.cur = some (.internal w l r) ∧ s1 = s)

end Sys2Proof.Machine
end

