-- ==== Sys2Proof/Certificates/Slice0/Obligations.lean ====
section
/-! DEFINITION. The statements for the provers. Each docstring names the rule of spec/ it formalises. A statement about every
state speaks of every instance (R6), because the state carries the instance's parameters (log entry 1). -/

open Sys2Proof Sys2Proof.Machine

/-! ## Host access (40_host_access.md) -/

/-- R101: NOP in any state, faulted or not, leaves every register, entry and stream as it was; with a non-zero index or
non-zero data it is IllegalCommand. -/
def Obligations.NopLeavesEverythingAsItWas : Prop :=
  encodedN 0x0000 .nop ∧ ∀ s : State, exec .nop s = .next s

/-- R102, R42: RESET in every state writes every piece of state with its reset value and leaves the streams, so that a DSTART
next raises NoTree; it is the only command that clears FAULT; in the faulted state a RESET with a non-zero field is
dropped. -/
def Obligations.ResetWritesEveryResetValue : Prop :=
  encodedN 0x0800 .reset ∧
  (∀ s : State, ∃ t, exec .reset s = .next t ∧
    (∀ y, t.mem.readFreq y = 0 ∧ t.mem.readCt y = []) ∧ (∀ i, t.mem.readNode i = none) ∧
    t.root = s.inst.nil ∧ t.nnode = 0 ∧ t.cur = s.inst.nil ∧ t.pos = 0 ∧ t.dact = false ∧ t.fault = none ∧
    t.finfo = 0#16 ∧ t.symq = s.symq ∧ t.bitq = s.bitq ∧ t.rspq = s.rspq ∧ t.cmdq = s.cmdq ∧ t.inst = s.inst ∧
    exec .dstart t = .next (raised .noTree 0 t)) ∧
  (∀ (s t : State) (i : Instr), s.fault ≠ none → exec i s = .next t → t.fault = none → i = .reset) ∧
  (∀ (s : State) (x : Index) (d : Nat), s.fault ≠ none → x ≠ 0#11 ∨ d ≠ 0 →
    takeCommand { head := headValue 0x0800 x, data := d } s = .next s)

/-- R103, R32: RDREG responds, in every operating state, with the register of its number and changes nothing else; a number
of 7 or more is BadIndex. -/
def Obligations.RdregRespondsWithTheNumberedRegister : Prop :=
  encodedIndex 0x1000 .rdreg ∧
  (∀ (s : State) (x : Index) (v : Nat),
    [(if s.fault = none then 0 else 2) + (if s.dact then 1 else 0), faultNumber s.fault, s.finfo.toNat, s.root, s.nnode,
      s.cur, s.pos][x.toNat]? = some v →
    exec (.rdreg x) s = .next { s with rspq := s.rspq ++ [v] }) ∧
  (∀ (s : State) (x : Index), s.fault = none → 7 ≤ x.toNat →
    exec (.rdreg x) s = .next (raised .badIndex x.toNat s))

/-- R105: WRNODE outside a session makes one entry valid with its word and changes nothing else; its data layout, its index
and the session are checked in this order. -/
def Obligations.WrnodeMakesOneEntryValid : Prop :=
  (∀ (P : Params) (x : Index) (w y : Nat), w < 2 ^ P.ww → y < 2 ^ P.sw →
    decode P { head := headValue 0x2000 x, data := w * 2 ^ (2 * P.na) + y } = .ok (.wrnode x (.leaf w y))) ∧
  (∀ (P : Params) (x : Index) (w l r : Nat), w < 2 ^ P.ww → l < 2 ^ P.na → r < 2 ^ P.na →
    decode P { head := headValue 0x2000 x,
               data := 2 ^ (P.nodew - 1) + w * 2 ^ (2 * P.na) + l * 2 ^ P.na + r } =
      .ok (.wrnode x (.internal w l r))) ∧
  (∀ (s : State) (x : Index) (d : Nat), s.fault = none →
    d / 2 ^ s.inst.nodew ≠ 0 ∨ (d / 2 ^ (s.inst.nodew - 1) % 2 = 0 ∧ d % 2 ^ (2 * s.inst.na) / 2 ^ s.inst.sw ≠ 0) →
    takeCommand { head := headValue 0x2000 x, data := d } s = .next (raised .illegalCommand (0x2000 + x.toNat) s)) ∧
  (∀ (s : State) (x : Index) (word : NodeWord), s.fault = none → s.inst.nnodes ≤ x.toNat →
    exec (.wrnode x word) s = .next (raised .badIndex x.toNat s)) ∧
  (∀ (s : State) (x : Index) (word : NodeWord), s.fault = none → x.toNat < s.inst.nnodes → s.dact = true →
    exec (.wrnode x word) s = .next (raised .seqError 0x04 s)) ∧
  (∀ (s : State) (x : Index) (word : NodeWord), s.fault = none → x.toNat < s.inst.nnodes → s.dact = false →
    ∃ m, exec (.wrnode x word) s = .next { s with mem := m } ∧
      (∀ i, m.readNode i = if i = x.toNat then some word else s.mem.readNode i) ∧
      (∀ y, m.readFreq y = s.mem.readFreq y ∧ m.readCt y = s.mem.readCt y))

/-- R106, R83: RDNODE responds, in every operating state, with V in bit NODEW and the word below it, zero for an entry with
V = 0, and changes nothing else; an index of NNODES or more is BadIndex. -/
def Obligations.RdnodeRespondsWithTheEntry : Prop :=
  encodedIndex 0x2800 .rdnode ∧
  (∀ (s : State) (x : Index), s.fault = none → s.inst.nnodes ≤ x.toNat →
    exec (.rdnode x) s = .next (raised .badIndex x.toNat s)) ∧
  (∀ (s : State) (x : Index), x.toNat < s.inst.nnodes →
    (s.mem.readNode x.toNat = none → exec (.rdnode x) s = .next { s with rspq := s.rspq ++ [0] }) ∧
    (∀ w y, s.mem.readNode x.toNat = some (.leaf w y) →
      exec (.rdnode x) s =
        .next { s with rspq := s.rspq ++ [2 ^ s.inst.nodew + (w * 2 ^ (2 * s.inst.na) + y)] }) ∧
    (∀ w l r, s.mem.readNode x.toNat = some (.internal w l r) →
      exec (.rdnode x) s =
        .next { s with rspq := s.rspq ++ [2 ^ s.inst.nodew +
          (2 ^ (s.inst.nodew - 1) + w * 2 ^ (2 * s.inst.na) + l * 2 ^ s.inst.na + r)] }))

/-- R107, R84, R94: WRCT, inside a session too, writes one code-table entry and changes nothing else. A data field is the
codeword of LEN bits whose k-th bit is CODE[k]; LEN above CLMAX, a CODE bit at a position of LEN or more, or a bit above CTW
is IllegalCommand; a symbol of 2^SW or more is BadIndex. -/
def Obligations.WrctWritesOneCodeword : Prop :=
  (∀ (P : Params) (x : Index) (d : Nat), P.legal = true → d < 2 ^ P.ctw → d / 2 ^ P.clmax ≤ P.clmax →
    (∀ k, d / 2 ^ P.clmax ≤ k → k < P.clmax → d.testBit k = false) →
    decode P { head := headValue 0x3000 x, data := d } =
      .ok (.wrct x ((List.range (d / 2 ^ P.clmax)).map (fun k => d.testBit k)))) ∧
  (∀ (s : State) (x : Index) (d : Nat), s.inst.legal = true → s.fault = none →
    2 ^ s.inst.ctw ≤ d ∨ s.inst.clmax < d / 2 ^ s.inst.clmax ∨
      (∃ k, d / 2 ^ s.inst.clmax ≤ k ∧ k < s.inst.clmax ∧ d.testBit k = true) →
    takeCommand { head := headValue 0x3000 x, data := d } s = .next (raised .illegalCommand (0x3000 + x.toNat) s)) ∧
  (∀ (s : State) (x : Index) (c : Codeword), s.fault = none → s.inst.nsym ≤ x.toNat →
    exec (.wrct x c) s = .next (raised .badIndex x.toNat s)) ∧
  (∀ (s : State) (x : Index) (c : Codeword), s.fault = none → x.toNat < s.inst.nsym →
    ∃ m, exec (.wrct x c) s = .next { s with mem := m } ∧
      (∀ y, m.readCt y = if y = x.toNat then c else s.mem.readCt y) ∧
      (∀ y, m.readFreq y = s.mem.readFreq y) ∧ (∀ i, m.readNode i = s.mem.readNode i))

/-- R108, R84: RDCT responds, in every operating state, with the entry of the symbol (LEN above CLMAX, CODE[k] at bit k) and
changes nothing else; a symbol of 2^SW or more is BadIndex. -/
def Obligations.RdctRespondsWithTheEntry : Prop :=
  encodedIndex 0x3800 .rdct ∧
  (∀ (s : State) (x : Index), s.fault = none → s.inst.nsym ≤ x.toNat →
    exec (.rdct x) s = .next (raised .badIndex x.toNat s)) ∧
  (∀ (s : State) (x : Index), s.mem.wf s.inst = true → x.toNat < s.inst.nsym →
    ∃ v, exec (.rdct x) s = .next { s with rspq := s.rspq ++ [v] } ∧
      v / 2 ^ s.inst.clmax = (s.mem.readCt x.toNat).length ∧
      ∀ k, k < s.inst.clmax → v.testBit k = ((s.mem.readCt x.toNat)[k]?).getD false)

/-- R109: WRFREQ, inside a session too, writes one count and changes nothing else; data above WW bits is IllegalCommand, a
symbol of 2^SW or more is BadIndex. -/
def Obligations.WrfreqWritesOneCount : Prop :=
  (∀ (P : Params) (x : Index) (w : Nat), w < 2 ^ P.ww →
    decode P { head := headValue 0x4000 x, data := w } = .ok (.wrfreq x w)) ∧
  (∀ (s : State) (x : Index) (d : Nat), s.fault = none → 2 ^ s.inst.ww ≤ d →
    takeCommand { head := headValue 0x4000 x, data := d } s = .next (raised .illegalCommand (0x4000 + x.toNat) s)) ∧
  (∀ (s : State) (x : Index) (w : Nat), s.fault = none → s.inst.nsym ≤ x.toNat →
    exec (.wrfreq x w) s = .next (raised .badIndex x.toNat s)) ∧
  (∀ (s : State) (x : Index) (w : Nat), s.fault = none → x.toNat < s.inst.nsym →
    ∃ m, exec (.wrfreq x w) s = .next { s with mem := m } ∧
      (∀ y, m.readFreq y = if y = x.toNat then w else s.mem.readFreq y) ∧
      (∀ y, m.readCt y = s.mem.readCt y) ∧ (∀ i, m.readNode i = s.mem.readNode i))

/-- R110: RDFREQ responds, in every operating state, with the count of the symbol and changes nothing else; a symbol of
2^SW or more is BadIndex. -/
def Obligations.RdfreqRespondsWithTheCount : Prop :=
  encodedIndex 0x4800 .rdfreq ∧
  (∀ (s : State) (x : Index), s.fault = none → s.inst.nsym ≤ x.toNat →
    exec (.rdfreq x) s = .next (raised .badIndex x.toNat s)) ∧
  (∀ (s : State) (x : Index), x.toNat < s.inst.nsym →
    exec (.rdfreq x) s = .next { s with rspq := s.rspq ++ [s.mem.readFreq x.toNat] })

/-- R111: SETROOT outside a session writes ROOT with a node index or NIL, whatever the entry it names, and changes nothing
else; any other index is BadIndex, a session is SeqError. -/
def Obligations.SetrootWritesRoot : Prop :=
  encodedIndex 0x5000 .setroot ∧
  (∀ (s : State) (x : Index), s.fault = none → s.inst.nnodes ≤ x.toNat → x.toNat ≠ s.inst.nil →
    exec (.setroot x) s = .next (raised .badIndex x.toNat s)) ∧
  (∀ (s : State) (x : Index), s.fault = none → x.toNat < s.inst.nnodes ∨ x.toNat = s.inst.nil → s.dact = true →
    exec (.setroot x) s = .next (raised .seqError 0x0A s)) ∧
  (∀ (s : State) (x : Index), s.fault = none → x.toNat < s.inst.nnodes ∨ x.toNat = s.inst.nil → s.dact = false →
    exec (.setroot x) s = .next { s with root := x.toNat })

/-- R112: CLRFREQ, inside a session too, makes every count 0 and changes nothing else. -/
def Obligations.ClrfreqEmptiesTheCounts : Prop :=
  encodedN 0x5800 .clrfreq ∧
  (∀ s : State, s.fault = none →
    ∃ m, exec .clrfreq s = .next { s with mem := m } ∧ (∀ y, m.readFreq y = 0) ∧
      (∀ y, m.readCt y = s.mem.readCt y) ∧ (∀ i, m.readNode i = s.mem.readNode i))

/-- R54: what WRNODE, WRCT or WRFREQ wrote, the read command of the same space returns, bit for bit as the data field
carried it (with V = 1 above a node word). -/
def Obligations.ReadsReturnTheDataWritten : Prop :=
  (∀ (s t : State) (x : Index) (d : Nat), s.inst.legal = true → s.fault = none →
    takeCommand { head := headValue 0x2000 x, data := d } s = .next t → t.fault = none →
    exec (.rdnode x) t = .next { t with rspq := t.rspq ++ [2 ^ s.inst.nodew + d] }) ∧
  (∀ (s t : State) (x : Index) (d : Nat), s.inst.legal = true → s.fault = none →
    takeCommand { head := headValue 0x3000 x, data := d } s = .next t → t.fault = none →
    exec (.rdct x) t = .next { t with rspq := t.rspq ++ [d] }) ∧
  (∀ (s t : State) (x : Index) (d : Nat), s.fault = none →
    takeCommand { head := headValue 0x4000 x, data := d } s = .next t → t.fault = none →
    exec (.rdfreq x) t = .next { t with rspq := t.rspq ++ [d] })

/-! ## The frequency counter (41_frequency_counter.md) -/

/-- R130: COUNT, inside a session too, adds 1 to one count and changes nothing else; a count of 2^WW - 1 is WeightOverflow
and stays; a symbol of 2^SW or more is BadIndex. -/
def Obligations.CountAddsOneToOneCount : Prop :=
  encodedIndex 0x6000 .count ∧
  (∀ (s : State) (x : Index), s.fault = none → s.inst.nsym ≤ x.toNat →
    exec (.count x) s = .next (raised .badIndex x.toNat s)) ∧
  (∀ (s : State) (x : Index), s.fault = none → x.toNat < s.inst.nsym →
    s.mem.readFreq x.toNat = 2 ^ s.inst.ww - 1 →
    exec (.count x) s = .next (raised .weightOverflow x.toNat s)) ∧
  (∀ (s : State) (x : Index), s.fault = none → x.toNat < s.inst.nsym →
    s.mem.readFreq x.toNat ≠ 2 ^ s.inst.ww - 1 →
    ∃ m, exec (.count x) s = .next { s with mem := m } ∧
      (∀ y, m.readFreq y = if y = x.toNat then s.mem.readFreq y + 1 else s.mem.readFreq y) ∧
      (∀ y, m.readCt y = s.mem.readCt y) ∧ (∀ i, m.readNode i = s.mem.readNode i))

/-- R131, R35: after one COUNT per symbol of a sequence and no fault, each count has grown by the number of COUNT commands
that named its symbol; nothing else has changed, and the order of the sequence does not matter. -/
def Obligations.CountsTallyASequenceOfSymbols : Prop :=
  ∀ (s : State) (xs : List Nat), s.inst.legal = true → s.fault = none → (∀ x ∈ xs, x < s.inst.nsym) →
    (∀ y, s.mem.readFreq y + xs.count y < 2 ^ s.inst.ww) →
    ∃ m, perform (counts xs) s = .next { s with mem := m } ∧
      (∀ y, m.readFreq y = s.mem.readFreq y + xs.count y) ∧
      (∀ y, m.readCt y = s.mem.readCt y) ∧ (∀ i, m.readNode i = s.mem.readNode i)

/-! ## The tree builder (42_tree_builder.md) -/

/-- R141, R142: the three checks of BUILD in their order, each before anything is written: a session, an empty table, a
total of 2^WW or more. -/
def Obligations.BuildChecksBeforeItWrites : Prop :=
  encodedN 0x6800 .build ∧
  (∀ s : State, s.fault = none → s.dact = true → exec .build s = .next (raised .seqError 0x0D s)) ∧
  (∀ s : State, s.fault = none → s.dact = false → (∀ y, y < s.inst.nsym → s.mem.readFreq y = 0) →
    exec .build s = .next (raised .invalidInput 0 s)) ∧
  (∀ s : State, s.fault = none → s.dact = false → (∃ y, y < s.inst.nsym ∧ s.mem.readFreq y ≠ 0) →
    2 ^ s.inst.ww ≤ ((List.range s.inst.nsym).map s.mem.readFreq).sum →
    exec .build s = .next (raised .weightOverflow 0 s))

/-- R141, R143, R146, R148: BUILD on the symbols `ys` with a non-zero count, ascending, places one Leaf per symbol from entry
0 up, makes exactly the entries 0 to NNODE - 1 valid, puts the root last, gives a single symbol the Internal root with LEFT = 0
and RIGHT = NIL, and leaves FREQ, CT and every other register alone. -/
def Obligations.BuildPlacesLeavesAndRoot : Prop :=
  ∀ (s : State) (ys : List Nat), s.fault = none → s.dact = false → ys ≠ [] → ys.Pairwise (· < ·) →
    (∀ y, y ∈ ys ↔ y < s.inst.nsym ∧ s.mem.readFreq y ≠ 0) → (ys.map s.mem.readFreq).sum < 2 ^ s.inst.ww →
    ∃ m, exec .build s = .next { s with
        mem := m
        root := if ys.length = 1 then 1 else 2 * ys.length - 2
        nnode := if ys.length = 1 then 2 else 2 * ys.length - 1 } ∧
      (∀ y, m.readFreq y = s.mem.readFreq y ∧ m.readCt y = s.mem.readCt y) ∧
      (∀ i, m.readNode i ≠ none ↔ i < (if ys.length = 1 then 2 else 2 * ys.length - 1)) ∧
      (∀ k y, ys[k]? = some y → m.readNode k = some (.leaf (s.mem.readFreq y) y)) ∧
      (∀ y, ys = [y] → m.readNode 1 = some (.internal (s.mem.readFreq y) 0 s.inst.nil))

/-- R144, R145: with `n` of 2 or more leaves, each entry from n up is an Internal node made of the two nodes not yet merged
that have the least keys (weight, index), the least on the left, with the sum of their weights; after n - 1 merges one node
remains, the entry 2n - 2, and it is the root. -/
def Obligations.BuildMergesTheTwoLeastKeys : Prop :=
  ∀ (s t : State) (n : Nat), s.fault = none → exec .build s = .next t → t.fault = none →
    n = ((List.range s.inst.nsym).filter (fun y => s.mem.readFreq y ≠ 0)).length → 2 ≤ n →
    t.root = 2 * n - 2 ∧
    (∀ i, i < 2 * n - 2 → mergedBefore t.mem n (2 * n - 1) i) ∧
    (∀ k, n ≤ k → k < 2 * n - 1 → ∃ a b,
      t.mem.readNode k = some (.internal (weightAt t.mem a + weightAt t.mem b) a b) ∧
      a < k ∧ b < k ∧ a ≠ b ∧ ¬ mergedBefore t.mem n k a ∧ ¬ mergedBefore t.mem n k b ∧
      (∀ i, i < k → i ≠ a → ¬ mergedBefore t.mem n k i → keyBefore t.mem a i) ∧
      (∀ i, i < k → i ≠ a → i ≠ b → ¬ mergedBefore t.mem n k i → keyBefore t.mem b i))

/-- R151: after a BUILD without fault the root's weight is the sum of all the counts; when the table was filled by COUNT
alone from an empty one, it is the number of COUNT commands. -/
def Obligations.RootWeightIsTheTotalCount : Prop :=
  (∀ s t : State, s.fault = none → exec .build s = .next t → t.fault = none →
    weightAt t.mem t.root = ((List.range s.inst.nsym).map s.mem.readFreq).sum) ∧
  (∀ (s : State) (xs : List Nat), s.inst.legal = true → s.fault = none → s.dact = false → xs ≠ [] →
    (∀ x ∈ xs, x < s.inst.nsym) → xs.length < 2 ^ s.inst.ww →
    ∃ t, perform (.clrfreq :: (counts xs ++ [.build])) s = .next t ∧ t.fault = none ∧
      weightAt t.mem t.root = xs.length)

/-- R152: in the tree of a BUILD, a symbol with the greater count never lies deeper. -/
def Obligations.GreaterCountNeverLiesDeeper : Prop :=
  ∀ (s t : State) (a b : Nat) (p q : Codeword), s.fault = none → exec .build s = .next t → t.fault = none →
    s.mem.readFreq b < s.mem.readFreq a → leafAt t p a → leafAt t q b → p.length ≤ q.length

/-- R144: "BUILD is a function of FREQ and nothing else" (42_tree_builder.md): two states of one instance that agree on the
counts get the same NODE, ROOT and NNODE. -/
def Obligations.BuildDependsOnTheCountsOnly : Prop :=
  ∀ s s' t t' : State, s.inst = s'.inst → (∀ y, y < s.inst.nsym → s.mem.readFreq y = s'.mem.readFreq y) →
    s.fault = none → s'.fault = none → s.dact = false → s'.dact = false →
    exec .build s = .next t → exec .build s' = .next t' → t.fault = none →
    t'.fault = none ∧ t.root = t'.root ∧ t.nnode = t'.nnode ∧ ∀ i, t.mem.readNode i = t'.mem.readNode i

/-! ## The code-table deriver (43_code_table_deriver.md) -/

/-- R161, R160: when no visit raises a fault, DERIVE, inside a session too, makes CT hold, for each symbol at a leaf
reachable from ROOT, that leaf's path, and nothing for any other symbol; it changes nothing else. -/
def Obligations.DeriveRecordsEachLeafsPath : Prop :=
  encodedN 0x7000 .derive ∧
  (∀ s : State, s.fault = none → derivable s →
    ∃ m, exec .derive s = .next { s with mem := m } ∧
      (∀ y path, (m.readCt y = path ∧ path ≠ []) ↔ leafAt s path y) ∧
      (∀ y, m.readFreq y = s.mem.readFreq y) ∧ (∀ i, m.readNode i = s.mem.readNode i))

/-- R161 to R165: when DERIVE cannot fill the table it raises NoTree for ROOT = NIL, else the first fault met in the order
node, left, right; CT is then empty in every entry and nothing else has changed. -/
def Obligations.DeriveReportsTheFirstFaultAndEmptiesTheTable : Prop :=
  ∀ s : State, s.fault = none → ¬ derivable s →
    ∃ f info m, exec .derive s = .next (raised f info { s with mem := m }) ∧
      (∀ y, m.readCt y = []) ∧
      (∀ y, m.readFreq y = s.mem.readFreq y) ∧ (∀ i, m.readNode i = s.mem.readNode i) ∧
      ((s.root = s.inst.nil ∧ f = .noTree ∧ info = 0) ∨
       (s.root ≠ s.inst.nil ∧ ∃ path, visitFault s path f info ∧
         ∀ q g k, visitedBefore q path = true → ¬ visitFault s q g k))

/-- R166: after a DERIVE without fault no symbol's codeword is a prefix of another's. -/
def Obligations.DerivedTableIsPrefixFree : Prop :=
  ∀ s t : State, s.fault = none → exec .derive s = .next t → t.fault = none →
    ∀ a b, a ≠ b → t.mem.readCt a ≠ [] → t.mem.readCt b ≠ [] → ¬ t.mem.readCt a <+: t.mem.readCt b

/-- R164, R7: with CLMAX at its default, DERIVE after BUILD raises no fault, and exactly the symbols with a non-zero count
have a codeword. -/
def Obligations.DeriveAfterBuildCoversExactlyTheCountedSymbols : Prop :=
  ∀ s t : State, s.inst.legal = true → s.inst.clmax = 2 ^ s.inst.sw - 1 → s.fault = none →
    exec .build s = .next t → t.fault = none →
    ∃ u, exec .derive t = .next u ∧ u.fault = none ∧
      ∀ y, u.mem.readCt y ≠ [] ↔ y < s.inst.nsym ∧ s.mem.readFreq y ≠ 0

/-! ## The encoder (44_encoder.md) -/

/-- R171, R172: ESYM, inside a session too, appends all the bits of the symbol's codeword to BITQ, first bit first, and
changes nothing else; a symbol without a codeword is UnknownSymbol and emits nothing; a symbol of 2^SW or more is
BadIndex. -/
def Obligations.EsymEmitsTheCodeword : Prop :=
  encodedIndex 0x8000 .esym ∧
  (∀ (s : State) (x : Index), s.fault = none → s.inst.nsym ≤ x.toNat →
    exec (.esym x) s = .next (raised .badIndex x.toNat s)) ∧
  (∀ (s : State) (x : Index), s.fault = none → x.toNat < s.inst.nsym → s.mem.readCt x.toNat = [] →
    exec (.esym x) s = .next (raised .unknownSymbol x.toNat s)) ∧
  (∀ (s : State) (x : Index), s.fault = none → x.toNat < s.inst.nsym → s.mem.readCt x.toNat ≠ [] →
    exec (.esym x) s = .next { s with bitq := s.bitq ++ s.mem.readCt x.toNat })

/-- R173: one ESYM per symbol of a sequence appends the codewords one after the other, with no separator and no padding. -/
def Obligations.EsymsConcatenateTheCodewords : Prop :=
  ∀ (s : State) (xs : List Nat), s.inst.legal = true → s.fault = none →
    (∀ x ∈ xs, x < s.inst.nsym ∧ s.mem.readCt x ≠ []) →
    perform (esyms xs) s = .next { s with bitq := s.bitq ++ (xs.map s.mem.readCt).flatten } ∧
    ((xs.map s.mem.readCt).flatten).length = (xs.map (fun x => (s.mem.readCt x).length)).sum

/-! ## The decoder (45_decoder.md) -/

/-- R181: DSTART opens a session at a valid Internal root; a session, no tree, an invalid root and a Leaf root are the
faults, in this order; nothing else changes. -/
def Obligations.DstartOpensASessionAtTheRoot : Prop :=
  encodedN 0xA000 .dstart ∧
  (∀ s : State, s.fault = none → s.dact = true → exec .dstart s = .next (raised .seqError 0x14 s)) ∧
  (∀ s : State, s.fault = none → s.dact = false → s.root = s.inst.nil →
    exec .dstart s = .next (raised .noTree 0 s)) ∧
  (∀ s : State, s.fault = none → s.dact = false → s.root ≠ s.inst.nil → s.mem.readNode s.root = none →
    exec .dstart s = .next (raised .invalidNode s.root s)) ∧
  (∀ (s : State) (w y : Nat), s.fault = none → s.dact = false → s.root ≠ s.inst.nil →
    s.mem.readNode s.root = some (.leaf w y) →
    exec .dstart s = .next (raised .rootIsLeaf s.root s)) ∧
  (∀ (s : State) (w l r : Nat), s.fault = none → s.dact = false → s.root ≠ s.inst.nil →
    s.mem.readNode s.root = some (.internal w l r) →
    exec .dstart s = .next { s with cur := s.root, pos := 0, dact := true })

/-- R182: DBIT takes the leaf step if the cursor stands on a Leaf, then the bit step: 0 to the left child, 1 to the right; an
absent child and an invalid child are faults that keep the leaf step and do not advance POS; nothing else changes. -/
def Obligations.DbitTakesTheLeafStepThenTheBitStep : Prop :=
  (∀ (P : Params) (b : Bool), decode P { head := BitVec.ofNat 16 (0xA800 + b.toNat), data := 0 } = .ok (.dbit b)) ∧
  (∀ (s : State) (x : Index) (d : Nat), s.fault = none → 2 ≤ x.toNat ∨ d ≠ 0 →
    takeCommand { head := headValue 0xA800 x, data := d } s = .next (raised .illegalCommand (0xA800 + x.toNat) s)) ∧
  (∀ (s : State) (b : Bool), s.fault = none → s.dact = false →
    exec (.dbit b) s = .next (raised .seqError 0x15 s)) ∧
  (∀ (s s1 : State) (b : Bool) (w l r : Nat), s.fault = none → s.dact = true → afterLeafStep s s1 →
    s1.mem.readNode s1.cur = some (.internal w l r) →
    ((if b then r else l) = s.inst.nil → exec (.dbit b) s = .next (raised .absentChild s1.cur s1)) ∧
    ((if b then r else l) ≠ s.inst.nil → s.mem.readNode (if b then r else l) = none →
      exec (.dbit b) s = .next (raised .invalidNode (if b then r else l) s1)) ∧
    ((if b then r else l) ≠ s.inst.nil → s.mem.readNode (if b then r else l) ≠ none →
      exec (.dbit b) s =
        .next { s1 with cur := if b then r else l, pos := (s.pos + 1) % 2 ^ s.inst.pw }))

/-- R183: DEND with the cursor on a Leaf emits its symbol and closes the session, CUR and POS keeping their values; on an
Internal node it is TruncatedInput and the session stays open; nothing else changes. -/
def Obligations.DendEmitsTheLastSymbolOrIsTruncated : Prop :=
  encodedN 0xB000 .dend ∧
  (∀ s : State, s.fault = none → s.dact = false → exec .dend s = .next (raised .seqError 0x16 s)) ∧
  (∀ (s : State) (w l r : Nat), s.fault = none → s.dact = true → s.mem.readNode s.cur = some (.internal w l r) →
    exec .dend s = .next (raised .truncatedInput s.cur s)) ∧
  (∀ (s : State) (w y : Nat), s.fault = none → s.dact = true → s.mem.readNode s.cur = some (.leaf w y) →
    exec .dend s = .next { s with symq := s.symq ++ [y], dact := false })

/-- R27: POS counts the bits of a session modulo 2^PW. -/
def Obligations.PosCountsTheBitsModuloItsWidth : Prop :=
  ∀ (s t : State) (bits : List Bool), s.fault = none → s.dact = false →
    perform (.dstart :: dbits bits) s = .next t → t.fault = none →
    t.dact = true ∧ t.pos = bits.length % 2 ^ s.inst.pw

/-- R186: the empty bitstring is TruncatedInput with info = ROOT, and the session stays open at the root. -/
def Obligations.EmptyBitstringIsTruncated : Prop :=
  ∀ (s : State) (w l r : Nat), s.fault = none → s.dact = false → s.root ≠ s.inst.nil →
    s.mem.readNode s.root = some (.internal w l r) →
    perform (decodeBits []) s =
      .next (raised .truncatedInput s.root { s with cur := s.root, pos := 0, dact := true })

/-- R187: on the single-symbol tree m bits 0 give m symbols (m of 1 or more), and a bit 1 at its root is AbsentChild with
info = the root's index. -/
def Obligations.SingleSymbolTreeDecodesZeros : Prop :=
  ∀ (s : State) (w v y : Nat), s.fault = none → s.dact = false → s.inst.legal = true → s.root = 1 →
    s.mem.readNode 1 = some (.internal w 0 s.inst.nil) → s.mem.readNode 0 = some (.leaf v y) →
    (∀ m, 1 ≤ m → ∃ t, perform (decodeBits (List.replicate m false)) s = .next t ∧
      t.fault = none ∧ t.dact = false ∧ t.symq = s.symq ++ List.replicate m y ∧ t.pos = m % 2 ^ s.inst.pw) ∧
    perform (.dstart :: dbits [true]) s =
      .next (raised .absentChild 1 { s with cur := 1, pos := 0, dact := true })

/-- R180: DSTART, one DBIT per bit and DEND emit the symbols of the document's loop on the same tree and bits, and end as it
ends: at a Leaf without fault, at an Internal node with TruncatedInput, and where a branch or an entry is not there with
AbsentChild or InvalidNode. -/
def Obligations.SessionRefinesTheDocumentsLoop : Prop :=
  ∀ (s : State) (bits : List Bool) (w l r : Nat), s.fault = none → s.dact = false → s.root ≠ s.inst.nil →
    s.mem.readNode s.root = some (.internal w l r) →
    ∃ t, perform (decodeBits bits) s = .next t ∧
      match documentDecode s.inst s.mem s.root bits with
      | .decoded out => t.symq = s.symq ++ out ∧ t.fault = none ∧ t.dact = false
      | .truncated out => t.symq = s.symq ++ out ∧ t.fault = some .truncatedInput ∧ t.dact = true
      | .stuck out => t.symq = s.symq ++ out ∧
          (t.fault = some .absentChild ∨ t.fault = some .invalidNode) ∧ t.dact = true

/-- R188: the walker reads the root, the cursor and the shape of the tree, and neither the weights nor CT nor FREQ: on two
states that agree on those, a DBIT moves the cursor, emits and faults alike. -/
def Obligations.WalkerReadsNeitherWeightsNorTables : Prop :=
  ∀ (s s' t t' : State) (b : Bool), s.inst = s'.inst → s.root = s'.root → s.cur = s'.cur → s.pos = s'.pos →
    s.dact = s'.dact → s.fault = s'.fault → s.finfo = s'.finfo → s.symq = s'.symq →
    (∀ i, sameShape (s.mem.readNode i) (s'.mem.readNode i)) →
    exec (.dbit b) s = .next t → exec (.dbit b) s' = .next t' →
    t.cur = t'.cur ∧ t.pos = t'.pos ∧ t.symq = t'.symq ∧ t.fault = t'.fault ∧ t.finfo = t'.finfo ∧
      t.dact = t'.dact ∧ t.root = t'.root

/-! ## Encode and decode together (45_decoder.md) -/

/-- For any tree, built or host-loaded, that DERIVE accepts: the bits of a non-empty sequence of symbols with codewords
decode to that sequence (R161, R173, R180). -/
def Obligations.DerivedTableRoundTrips : Prop :=
  ∀ (s t : State) (xs : List Nat), s.inst.legal = true → s.fault = none → s.dact = false →
    exec .derive s = .next t → t.fault = none → xs ≠ [] → (∀ x ∈ xs, t.mem.readCt x ≠ []) →
    ∃ u, perform (decodeBits (codewords t.mem xs)) t = .next u ∧ u.fault = none ∧ u.dact = false ∧
      u.symq = t.symq ++ xs

/-- R191: for every non-empty sequence of symbols shorter than 2^WW, with CLMAX at its default, RESET, COUNTS, BUILD, DERIVE,
ESYMS, then a session with the bits just emitted, ends with FAULT = 0 and DACT = 0 and the sequence appended to SYMQ. -/
def Obligations.EncodeThenDecodeGivesTheInput : Prop :=
  ∀ (s : State) (xs : List Nat), s.inst.legal = true → s.inst.clmax = 2 ^ s.inst.sw - 1 → xs ≠ [] →
    (∀ x ∈ xs, x < s.inst.nsym) → xs.length < 2 ^ s.inst.ww →
    ∃ t bits u, perform (.reset :: (counts xs ++ buildCode ++ esyms xs)) s = .next t ∧
      t.bitq = s.bitq ++ bits ∧
      perform (decodeBits bits) t = .next u ∧ u.fault = none ∧ u.dact = false ∧ u.symq = s.symq ++ xs

/-- R192: bits that are a valid encoding followed by a non-empty proper prefix of one more codeword end in TruncatedInput at
DEND; a non-empty prefix that ends at a codeword boundary decodes without fault to its symbols; the empty prefix is
TruncatedInput. -/
def Obligations.TruncationInsideACodewordIsDetected : Prop :=
  ∀ (s t : State) (xs : List Nat), s.inst.legal = true → s.fault = none → s.dact = false →
    exec .derive s = .next t → t.fault = none → (∀ x ∈ xs, t.mem.readCt x ≠ []) →
    (∀ (y : Nat) (p : Codeword), t.mem.readCt y ≠ [] → p ≠ [] → p ≠ t.mem.readCt y → p <+: t.mem.readCt y →
      ∃ u, perform (decodeBits (codewords t.mem xs ++ p)) t = .next u ∧
        u.fault = some .truncatedInput ∧ u.dact = true ∧ u.symq = t.symq ++ xs) ∧
    (xs ≠ [] → ∃ u, perform (decodeBits (codewords t.mem xs)) t = .next u ∧ u.fault = none ∧ u.dact = false ∧
      u.symq = t.symq ++ xs) ∧
    (∃ u, perform (decodeBits []) t = .next u ∧ u.fault = some .truncatedInput ∧ u.dact = true ∧ u.symq = t.symq)

/-! ## Faults and operating states (30_encoding.md, 60_exceptions.md) -/

/-- R90, R205: in the faulted state only NOP, RESET and the four reads are performed; every other command, a command that is
illegal, and a read with an index outside its space are dropped; the reads append one response and change nothing else; NOP
changes nothing and RESET ends the faulted state. -/
def Obligations.FaultedStateDropsAllButResetAndReads : Prop :=
  ∀ s : State, s.fault ≠ none →
    (∀ c e, decode s.inst c = .error e → takeCommand c s = .next s) ∧
    (∀ i, i ≠ .reset → isRead i = false → exec i s = .next s) ∧
    (∀ i, isRead i = true → indexInSpace s.inst i = false → exec i s = .next s) ∧
    (∀ i, isRead i = true → indexInSpace s.inst i = true →
      ∃ v, exec i s = .next { s with rspq := s.rspq ++ [v] }) ∧
    exec .nop s = .next s ∧ (∃ t, exec .reset s = .next t ∧ t.fault = none)

/-- R29, R205, R207: the first fault's code and information stay until RESET or rst: any other step of a faulted state
leaves FAULT, FINFO and DACT as they are. -/
def Obligations.OnlyResetClearsAFault : Prop :=
  ∀ s t : State, s.fault ≠ none → step s = .next t →
    (t.fault = s.fault ∧ t.finfo = s.finfo ∧ t.dact = s.dact) ∨
    (t.fault = none ∧ t.finfo = 0#16 ∧ t.dact = false ∧ ∃ rest,
      s.cmdq = .rst :: rest ∨ ∃ c, s.cmdq = .command c :: rest ∧ decode s.inst c = .ok .reset)

/-- R91, R92, R93, R95, R206: a command of an unfaulted state reports the first check it fails: IllegalCommand with the head,
then BadIndex with the index, then SeqError with the opcode; and nothing else changes. -/
def Obligations.TheFirstFailedCheckIsReported : Prop :=
  ∀ (s : State) (c : Command), s.fault = none →
    (∀ e, decode s.inst c = .error e → takeCommand c s = .next (raised .illegalCommand c.head.toNat s)) ∧
    (∀ i, decode s.inst c = .ok i → indexInSpace s.inst i = false →
      takeCommand c s = .next (raised .badIndex (c.head.toNat % 2048) s)) ∧
    (∀ i, decode s.inst c = .ok i → indexInSpace s.inst i = true → sessionAllows s.dact i = false →
      takeCommand c s = .next (raised .seqError (c.head.toNat / 2048) s))

/-- R202: the faults each command can raise. The invariant rules out a session at an unusable entry, which no run reaches
(R26; log entry 7). -/
def Obligations.EachCommandRaisesOnlyItsFaults : Prop :=
  ∀ (s t : State) (c : Command) (f : FaultCode), s.inv = true → s.fault = none →
    takeCommand c s = .next t → t.fault = some f →
    match decode s.inst c with
    | .error _ => f = .illegalCommand
    | .ok i => f ∈ faultsOf i

/-- R204: a faulting command changes only FAULT and FINFO, with exactly two exceptions: a DBIT keeps the leaf step it took,
and a DERIVE leaves CT empty. -/
def Obligations.FaultsArePrecise : Prop :=
  ∀ (s t : State) (i : Instr) (f : FaultCode), s.fault = none → exec i s = .next t → t.fault = some f →
    ∃ info,
      t = raised f info s ∨
      (∃ b w y, i = .dbit b ∧ s.mem.readNode s.cur = some (.leaf w y) ∧
        t = raised f info { s with symq := s.symq ++ [y], cur := s.root }) ∨
      (i = .derive ∧ t = raised f info { s with mem := t.mem } ∧
        (∀ y, t.mem.readCt y = [] ∧ t.mem.readFreq y = s.mem.readFreq y) ∧
        ∀ k, t.mem.readNode k = s.mem.readNode k)

/-- R220: the moves between the operating states: idle to session by DSTART, session to idle by DEND or RESET, out of faulted
by RESET only and to idle; RESET always ends in idle. -/
def Obligations.OperatingStatesMoveAsListed : Prop :=
  ∀ (s t : State) (i : Instr), exec i s = .next t →
    (operatingState s = .idle → operatingState t = .session → i = .dstart) ∧
    (operatingState s = .session → operatingState t = .idle → i = .dend ∨ i = .reset) ∧
    (operatingState s = .faulted → operatingState t ≠ .faulted → i = .reset ∧ operatingState t = .idle) ∧
    (i = .reset → operatingState t = .idle)

/-- R31, R210: fault_o is 1 exactly when FAULT is not 0, and it rises with the first fault and falls only at RESET or rst. -/
def Obligations.FaultLineFollowsTheFaultRegister : Prop :=
  (∀ s : State, faultO s = true ↔ faultNumber s.fault ≠ 0) ∧
  (∀ s t : State, step s = .next t → faultO s = true → faultO t = false →
    ∃ rest, s.cmdq = .rst :: rest ∨ ∃ c, s.cmdq = .command c :: rest ∧ decode s.inst c = .ok .reset)

/-! ## Rules of the whole machine -/

/-- R40: no element of an output stream is ever withdrawn, changed or reordered, not by a fault and not by
RESET; that the rst input keeps them too is the model's choice (log entry 3). -/
def Obligations.StreamsOnlyGrow : Prop :=
  ∀ s t : State, step s = .next t → s.symq <+: t.symq ∧ s.bitq <+: t.bitq ∧ s.rspq <+: t.rspq

/-- R34, R60, R28: while DACT = 1 no command but RESET changes ROOT or any entry of NODE. -/
def Obligations.TreeIsReadOnlyInASession : Prop :=
  ∀ (s t : State) (i : Instr), s.dact = true → i ≠ .reset → exec i s = .next t →
    t.root = s.root ∧ t.nnode = s.nnode ∧ ∀ k, t.mem.readNode k = s.mem.readNode k

/-- R246, R248: every step answers a next state: no command hangs, and the model stops on none. -/
def Obligations.EveryStepAnswersANextState : Prop :=
  ∀ s : State, ∃ t, step s = .next t

/-- R26, R42, R50, R54: the invariant (widths, canonical memories, a sound session, FINFO only with FAULT) is kept by every
step. -/
def Obligations.EveryStepKeepsTheInvariant : Prop :=
  ∀ s t : State, s.inv = true → step s = .next t → t.inv = true

/-- R42: the reset state of every legal instance meets the invariant. -/
def Obligations.ResetMeetsTheInvariant : Prop :=
  (∀ P : Params, P.legal = true → (State.resetOf P).inv = true) ∧ State.reset = State.resetOf Params.standard ∧
    Params.standard.legal = true

/-- R25, R105: the entries 0 to NNODE - 1 that the last BUILD wrote stay valid whatever the host does, until the next BUILD
or reset. -/
def Obligations.BuiltEntriesStayValid : Prop :=
  ∀ s t : State, (∀ i, i < s.nnode → s.mem.readNode i ≠ none) → step s = .next t →
    ∀ i, i < t.nnode → t.mem.readNode i ≠ none

/-- R41 (and the model's own fields `inst` and `cmdq`, log entries 1 and 2): no step changes the parameters of the instance; and the inputs not yet
taken keep their order, one at most being taken. -/
def Obligations.ParametersAreConstant : Prop :=
  ∀ s t : State, step s = .next t → t.inst = s.inst ∧ t.cmdq = s.cmdq.tail

/-- R230, R232: the rst input between two commands gives the reset state; that it leaves the streams is the model's choice
(log entry 3). -/
def Obligations.RstInputGivesTheResetState : Prop :=
  ∀ (s : State) (rest : List HostInput), s.cmdq = .rst :: rest →
    step s = .next { State.resetOf s.inst with symq := s.symq, bitq := s.bitq, rspq := s.rspq, cmdq := rest }

/-- R71: with a command next, a step takes it off the host's inputs and performs it: what it decodes to, or, if it does not
decode, IllegalCommand (dropped in the faulted state); with nothing next the block waits and holds its state (R225). The
input list is the model's own field, and a waiting step its choice (log entry 2). -/
def Obligations.StepPerformsTheDecodedCommand : Prop :=
  (∀ (s : State) (c : Command) (rest : List HostInput) (i : Instr), s.cmdq = .command c :: rest →
    decode s.inst c = .ok i → step s = exec i { s with cmdq := rest }) ∧
  (∀ (s : State) (c : Command) (rest : List HostInput) (e : DecodeError), s.cmdq = .command c :: rest →
    decode s.inst c = .error e →
    step s = .next (if s.fault = none then raised .illegalCommand c.head.toNat { s with cmdq := rest }
      else { s with cmdq := rest })) ∧
  (∀ s : State, s.cmdq = [] → step s = .next s)

/-! ## Encodings (30_encoding.md) -/

/-- R73 to R76, R80 to R84: decoding the encoding of any well-formed command, with every operand at every value its field
admits, gives the command back, and the encoding fits the port. -/
def Obligations.DecodeOfEncodeIsTheCommand : Prop :=
  ∀ (P : Params) (i : Instr), P.legal = true → i.wf P = true →
    decode P (encode P i) = .ok i ∧ (encode P i).wf P = true

/-- R73 to R76, R92, R94: a command that decodes is the encoding of what it decodes to, which is well formed: no two
commands on the port mean the same. -/
def Obligations.EncodeOfDecodeIsTheWord : Prop :=
  ∀ (P : Params) (c : Command) (i : Instr), P.legal = true → decode P c = .ok i →
    i.wf P = true ∧ encode P i = c

/-- R76 and `opcode_table.json`: a head with zero data decodes to a command exactly when it matches that command's row of the
opcode table. -/
def Obligations.DecoderAgreesWithTheOpcodeTable : Prop :=
  ∀ (P : Params) (h : Head) (name : String),
    (∃ i, decode P { head := h, data := 0 } = .ok i ∧ mnemonicOf i = name) ↔
    (∃ row ∈ opcodeTable, row.mnemonic = name ∧ h &&& row.mask = row.bits)

/-- R91: the reserved opcodes 0x03, 0x0F, 0x11, 0x12, 0x13 and 0x17 to 0x1F raise IllegalCommand with info = the head
whatever the other fields hold. -/
def Obligations.ReservedOpcodesAreIllegal : Prop :=
  ∀ (s : State) (c : Command), s.fault = none →
    c.head.toNat / 2048 ∈ [0x03, 0x0F, 0x11, 0x12, 0x13, 0x17, 0x18, 0x19, 0x1A, 0x1B, 0x1C, 0x1D, 0x1E, 0x1F] →
    takeCommand c s = .next (raised .illegalCommand c.head.toNat s)

/-- R98: the assembled commands the rule writes out decode to what they stand for, at the default parameters. -/
def Obligations.AssembledCommandsDecodeAsWritten : Prop :=
  decode Params.standard { head := 0x6061#16, data := 0 } = .ok (.count 0x61#11) ∧
  decode Params.standard { head := 0xA801#16, data := 0 } = .ok (.dbit true) ∧
  decode Params.standard { head := 0x51FF#16, data := 0 } = .ok (.setroot 0x1FF#11) ∧
  decode Params.standard { head := 0x2008#16, data := 0x40000002C0007 } = .ok (.wrnode 8#11 (.internal 11 0 7)) ∧
  decode Params.standard { head := 0x4061#16, data := 0x5 } = .ok (.wrfreq 0x61#11 5)
end

