-- ==== Sys2Proof/Laws/State.lean ====
section
/-! SUPPORT. One lemma per field and update of the state, each true by `rfl`, so that no proof unfolds a record update. -/

namespace Sys2Proof.Machine

/-! ## `emitSym`: SYMQ grows by the symbol (R10) -/

@[simp] theorem emitSym_mem (y : Nat) (s : State) : (emitSym y s).mem = s.mem := rfl
@[simp] theorem emitSym_root (y : Nat) (s : State) : (emitSym y s).root = s.root := rfl
@[simp] theorem emitSym_nnode (y : Nat) (s : State) : (emitSym y s).nnode = s.nnode := rfl
@[simp] theorem emitSym_cur (y : Nat) (s : State) : (emitSym y s).cur = s.cur := rfl
@[simp] theorem emitSym_pos (y : Nat) (s : State) : (emitSym y s).pos = s.pos := rfl
@[simp] theorem emitSym_dact (y : Nat) (s : State) : (emitSym y s).dact = s.dact := rfl
@[simp] theorem emitSym_fault (y : Nat) (s : State) : (emitSym y s).fault = s.fault := rfl
@[simp] theorem emitSym_finfo (y : Nat) (s : State) : (emitSym y s).finfo = s.finfo := rfl
@[simp] theorem emitSym_symq (y : Nat) (s : State) : (emitSym y s).symq = s.symq ++ [y] := rfl
@[simp] theorem emitSym_bitq (y : Nat) (s : State) : (emitSym y s).bitq = s.bitq := rfl
@[simp] theorem emitSym_rspq (y : Nat) (s : State) : (emitSym y s).rspq = s.rspq := rfl
@[simp] theorem emitSym_cmdq (y : Nat) (s : State) : (emitSym y s).cmdq = s.cmdq := rfl
@[simp] theorem emitSym_inst (y : Nat) (s : State) : (emitSym y s).inst = s.inst := rfl

/-! ## `emitBits`: BITQ grows by the bits (R10) -/

@[simp] theorem emitBits_mem (bits : List Bool) (s : State) : (emitBits bits s).mem = s.mem := rfl
@[simp] theorem emitBits_root (bits : List Bool) (s : State) : (emitBits bits s).root = s.root := rfl
@[simp] theorem emitBits_nnode (bits : List Bool) (s : State) : (emitBits bits s).nnode = s.nnode := rfl
@[simp] theorem emitBits_cur (bits : List Bool) (s : State) : (emitBits bits s).cur = s.cur := rfl
@[simp] theorem emitBits_pos (bits : List Bool) (s : State) : (emitBits bits s).pos = s.pos := rfl
@[simp] theorem emitBits_dact (bits : List Bool) (s : State) : (emitBits bits s).dact = s.dact := rfl
@[simp] theorem emitBits_fault (bits : List Bool) (s : State) : (emitBits bits s).fault = s.fault := rfl
@[simp] theorem emitBits_finfo (bits : List Bool) (s : State) : (emitBits bits s).finfo = s.finfo := rfl
@[simp] theorem emitBits_symq (bits : List Bool) (s : State) : (emitBits bits s).symq = s.symq := rfl
@[simp] theorem emitBits_bitq (bits : List Bool) (s : State) : (emitBits bits s).bitq = s.bitq ++ bits := rfl
@[simp] theorem emitBits_rspq (bits : List Bool) (s : State) : (emitBits bits s).rspq = s.rspq := rfl
@[simp] theorem emitBits_cmdq (bits : List Bool) (s : State) : (emitBits bits s).cmdq = s.cmdq := rfl
@[simp] theorem emitBits_inst (bits : List Bool) (s : State) : (emitBits bits s).inst = s.inst := rfl

/-! ## `respond`: RSPQ grows by the response (R10) -/

@[simp] theorem respond_mem (v : Nat) (s : State) : (respond v s).mem = s.mem := rfl
@[simp] theorem respond_root (v : Nat) (s : State) : (respond v s).root = s.root := rfl
@[simp] theorem respond_nnode (v : Nat) (s : State) : (respond v s).nnode = s.nnode := rfl
@[simp] theorem respond_cur (v : Nat) (s : State) : (respond v s).cur = s.cur := rfl
@[simp] theorem respond_pos (v : Nat) (s : State) : (respond v s).pos = s.pos := rfl
@[simp] theorem respond_dact (v : Nat) (s : State) : (respond v s).dact = s.dact := rfl
@[simp] theorem respond_fault (v : Nat) (s : State) : (respond v s).fault = s.fault := rfl
@[simp] theorem respond_finfo (v : Nat) (s : State) : (respond v s).finfo = s.finfo := rfl
@[simp] theorem respond_symq (v : Nat) (s : State) : (respond v s).symq = s.symq := rfl
@[simp] theorem respond_bitq (v : Nat) (s : State) : (respond v s).bitq = s.bitq := rfl
@[simp] theorem respond_rspq (v : Nat) (s : State) : (respond v s).rspq = s.rspq ++ [v] := rfl
@[simp] theorem respond_cmdq (v : Nat) (s : State) : (respond v s).cmdq = s.cmdq := rfl
@[simp] theorem respond_inst (v : Nat) (s : State) : (respond v s).inst = s.inst := rfl

/-! ## `raised`: FAULT and FINFO are written (R203) -/

@[simp] theorem raised_mem (f : FaultCode) (info : Nat) (s : State) : (raised f info s).mem = s.mem := rfl
@[simp] theorem raised_root (f : FaultCode) (info : Nat) (s : State) : (raised f info s).root = s.root := rfl
@[simp] theorem raised_nnode (f : FaultCode) (info : Nat) (s : State) : (raised f info s).nnode = s.nnode := rfl
@[simp] theorem raised_cur (f : FaultCode) (info : Nat) (s : State) : (raised f info s).cur = s.cur := rfl
@[simp] theorem raised_pos (f : FaultCode) (info : Nat) (s : State) : (raised f info s).pos = s.pos := rfl
@[simp] theorem raised_dact (f : FaultCode) (info : Nat) (s : State) : (raised f info s).dact = s.dact := rfl
@[simp] theorem raised_fault (f : FaultCode) (info : Nat) (s : State) : (raised f info s).fault = some f := rfl
@[simp] theorem raised_finfo (f : FaultCode) (info : Nat) (s : State) : (raised f info s).finfo = BitVec.ofNat 16 info := rfl
@[simp] theorem raised_symq (f : FaultCode) (info : Nat) (s : State) : (raised f info s).symq = s.symq := rfl
@[simp] theorem raised_bitq (f : FaultCode) (info : Nat) (s : State) : (raised f info s).bitq = s.bitq := rfl
@[simp] theorem raised_rspq (f : FaultCode) (info : Nat) (s : State) : (raised f info s).rspq = s.rspq := rfl
@[simp] theorem raised_cmdq (f : FaultCode) (info : Nat) (s : State) : (raised f info s).cmdq = s.cmdq := rfl
@[simp] theorem raised_inst (f : FaultCode) (info : Nat) (s : State) : (raised f info s).inst = s.inst := rfl

/-! ## `toReset`: the values of R42 -/

@[simp] theorem toReset_mem (s : State) : (toReset s).mem = { freq := [], node := [], ct := [] } := rfl
@[simp] theorem toReset_root (s : State) : (toReset s).root = s.inst.nil := rfl
@[simp] theorem toReset_nnode (s : State) : (toReset s).nnode = 0 := rfl
@[simp] theorem toReset_cur (s : State) : (toReset s).cur = s.inst.nil := rfl
@[simp] theorem toReset_pos (s : State) : (toReset s).pos = 0 := rfl
@[simp] theorem toReset_dact (s : State) : (toReset s).dact = false := rfl
@[simp] theorem toReset_fault (s : State) : (toReset s).fault = none := rfl
@[simp] theorem toReset_finfo (s : State) : (toReset s).finfo = 0#16 := rfl
@[simp] theorem toReset_symq (s : State) : (toReset s).symq = s.symq := rfl
@[simp] theorem toReset_bitq (s : State) : (toReset s).bitq = s.bitq := rfl
@[simp] theorem toReset_rspq (s : State) : (toReset s).rspq = s.rspq := rfl
@[simp] theorem toReset_cmdq (s : State) : (toReset s).cmdq = s.cmdq := rfl
@[simp] theorem toReset_inst (s : State) : (toReset s).inst = s.inst := rfl

/-! ## `offerFirst`: the host's input comes first -/

@[simp] theorem offerFirst_mem (x : HostInput) (s : State) : (offerFirst x s).mem = s.mem := rfl
@[simp] theorem offerFirst_root (x : HostInput) (s : State) : (offerFirst x s).root = s.root := rfl
@[simp] theorem offerFirst_nnode (x : HostInput) (s : State) : (offerFirst x s).nnode = s.nnode := rfl
@[simp] theorem offerFirst_cur (x : HostInput) (s : State) : (offerFirst x s).cur = s.cur := rfl
@[simp] theorem offerFirst_pos (x : HostInput) (s : State) : (offerFirst x s).pos = s.pos := rfl
@[simp] theorem offerFirst_dact (x : HostInput) (s : State) : (offerFirst x s).dact = s.dact := rfl
@[simp] theorem offerFirst_fault (x : HostInput) (s : State) : (offerFirst x s).fault = s.fault := rfl
@[simp] theorem offerFirst_finfo (x : HostInput) (s : State) : (offerFirst x s).finfo = s.finfo := rfl
@[simp] theorem offerFirst_symq (x : HostInput) (s : State) : (offerFirst x s).symq = s.symq := rfl
@[simp] theorem offerFirst_bitq (x : HostInput) (s : State) : (offerFirst x s).bitq = s.bitq := rfl
@[simp] theorem offerFirst_rspq (x : HostInput) (s : State) : (offerFirst x s).rspq = s.rspq := rfl
@[simp] theorem offerFirst_cmdq (x : HostInput) (s : State) : (offerFirst x s).cmdq = x :: s.cmdq := rfl
@[simp] theorem offerFirst_inst (x : HostInput) (s : State) : (offerFirst x s).inst = s.inst := rfl

/-! ## `raise`: `raised` while FAULT is 0, else nothing (R29, R203) -/

theorem raise_live {s : State} (h : s.fault = none) (f : FaultCode) (info : Nat) :
    raise f info s = raised f info s := by
  simp only [raise, h, raised]

theorem raise_faulted {s : State} (h : s.fault ≠ none) (f : FaultCode) (info : Nat) :
    raise f info s = s := by
  unfold raise
  split
  · contradiction
  · rfl

@[simp] theorem raise_mem (f : FaultCode) (info : Nat) (s : State) : (raise f info s).mem = s.mem := by
  unfold raise; split <;> rfl

@[simp] theorem raise_root (f : FaultCode) (info : Nat) (s : State) : (raise f info s).root = s.root := by
  unfold raise; split <;> rfl

@[simp] theorem raise_nnode (f : FaultCode) (info : Nat) (s : State) : (raise f info s).nnode = s.nnode := by
  unfold raise; split <;> rfl

@[simp] theorem raise_cur (f : FaultCode) (info : Nat) (s : State) : (raise f info s).cur = s.cur := by
  unfold raise; split <;> rfl

@[simp] theorem raise_pos (f : FaultCode) (info : Nat) (s : State) : (raise f info s).pos = s.pos := by
  unfold raise; split <;> rfl

@[simp] theorem raise_dact (f : FaultCode) (info : Nat) (s : State) : (raise f info s).dact = s.dact := by
  unfold raise; split <;> rfl

@[simp] theorem raise_symq (f : FaultCode) (info : Nat) (s : State) : (raise f info s).symq = s.symq := by
  unfold raise; split <;> rfl

@[simp] theorem raise_bitq (f : FaultCode) (info : Nat) (s : State) : (raise f info s).bitq = s.bitq := by
  unfold raise; split <;> rfl

@[simp] theorem raise_rspq (f : FaultCode) (info : Nat) (s : State) : (raise f info s).rspq = s.rspq := by
  unfold raise; split <;> rfl

@[simp] theorem raise_cmdq (f : FaultCode) (info : Nat) (s : State) : (raise f info s).cmdq = s.cmdq := by
  unfold raise; split <;> rfl

@[simp] theorem raise_inst (f : FaultCode) (info : Nat) (s : State) : (raise f info s).inst = s.inst := by
  unfold raise; split <;> rfl

/-! ## The memory's updates leave the other memories alone -/

@[simp] theorem Memory.writeFreq_node (m : Memory) (y : Nat) (w : Nat) : (m.writeFreq y w).node = m.node := rfl
@[simp] theorem Memory.writeFreq_ct (m : Memory) (y : Nat) (w : Nat) : (m.writeFreq y w).ct = m.ct := rfl
@[simp] theorem Memory.writeNode_freq (m : Memory) (i : Nat) (word : NodeWord) : (m.writeNode i word).freq = m.freq := rfl
@[simp] theorem Memory.writeNode_ct (m : Memory) (i : Nat) (word : NodeWord) : (m.writeNode i word).ct = m.ct := rfl
@[simp] theorem Memory.writeCt_freq (m : Memory) (y : Nat) (c : Codeword) : (m.writeCt y c).freq = m.freq := rfl
@[simp] theorem Memory.writeCt_node (m : Memory) (y : Nat) (c : Codeword) : (m.writeCt y c).node = m.node := rfl
@[simp] theorem Memory.clearFreq_freq (m : Memory) : (m.clearFreq).freq = [] := rfl
@[simp] theorem Memory.clearFreq_node (m : Memory) : (m.clearFreq).node = m.node := rfl
@[simp] theorem Memory.clearFreq_ct (m : Memory) : (m.clearFreq).ct = m.ct := rfl
@[simp] theorem Memory.clearNode_freq (m : Memory) : (m.clearNode).freq = m.freq := rfl
@[simp] theorem Memory.clearNode_node (m : Memory) : (m.clearNode).node = [] := rfl
@[simp] theorem Memory.clearNode_ct (m : Memory) : (m.clearNode).ct = m.ct := rfl
@[simp] theorem Memory.clearCt_freq (m : Memory) : (m.clearCt).freq = m.freq := rfl
@[simp] theorem Memory.clearCt_node (m : Memory) : (m.clearCt).node = m.node := rfl
@[simp] theorem Memory.clearCt_ct (m : Memory) : (m.clearCt).ct = [] := rfl

end Sys2Proof.Machine
end

