-- ==== Sys2Proof/Laws/Codec.lean ====
section
/-! SUPPORT. The small lemmas of the bit fields, the head and the codeword numbers. -/

namespace Sys2Proof

/-- The head as a number: the opcode times 2^11 plus the index (R73, R76). -/
theorem headOf_toNat (op : Opcode) (idx : Index) : (headOf op idx).toNat = op.toNat * 2 ^ 11 + idx.toNat := by
  have h2 := idx.isLt
  have h : (headOf op idx).toNat = op.toNat <<< 11 ||| idx.toNat := BitVec.toNat_append op idx
  rw [h, Nat.shiftLeft_eq, Nat.mul_comm, ← Nat.two_pow_add_eq_or_of_lt h2]

@[simp] theorem headOpcode_headOf (op : Opcode) (idx : Index) : headOpcode (headOf op idx) = op := by
  apply BitVec.eq_of_toNat_eq
  have h1 := op.isLt
  have h2 := idx.isLt
  simp only [headOpcode, BitVec.extractLsb'_toNat, headOf_toNat, Nat.shiftRight_eq_div_pow]
  omega

@[simp] theorem headIndex_headOf (op : Opcode) (idx : Index) : headIndex (headOf op idx) = idx := by
  apply BitVec.eq_of_toNat_eq
  have h1 := op.isLt
  have h2 := idx.isLt
  simp only [headIndex, BitVec.extractLsb'_toNat, headOf_toNat, Nat.shiftRight_eq_div_pow]
  omega

/-- A head is made of its opcode and its index (R73). -/
theorem headOf_fields (h : Head) : headOf (headOpcode h) (headIndex h) = h := by
  apply BitVec.eq_of_toNat_eq
  have := h.isLt
  rw [headOf_toNat]
  simp [headOpcode, headIndex, Nat.shiftRight_eq_div_pow]
  omega

theorem codeNum_lt (c : Codeword) : codeNum c < 2 ^ c.length := by
  induction c with
  | nil => simp [codeNum]
  | cons b c ih =>
    simp only [codeNum, List.length_cons, Nat.pow_succ]
    cases b <;> simp <;> omega

@[simp] theorem length_codeBits (len code : Nat) : (codeBits len code).length = len := by
  induction len generalizing code with
  | zero => rfl
  | succ len ih => simp [codeBits, ih]

/-- Writing a codeword's bits and reading them back (R84). -/
theorem codeBits_codeNum (c : Codeword) : codeBits c.length (codeNum c) = c := by
  induction c with
  | nil => rfl
  | cons b c ih =>
    have h2 : (b.toNat + 2 * codeNum c) / 2 = codeNum c := by cases b <;> simp; omega
    have h1 : ((b.toNat + 2 * codeNum c) % 2 == 1) = b := by cases b <;> simp
    simp only [List.length_cons, codeNum, codeBits, h1, h2, ih]

/-- Reading a CODE field's bits and writing them back (R84). -/
theorem codeNum_codeBits (len code : Nat) (h : code < 2 ^ len) : codeNum (codeBits len code) = code := by
  induction len generalizing code with
  | zero => simp at h; simp [codeBits, codeNum, h]
  | succ len ih =>
    rw [Nat.pow_succ] at h
    rw [codeBits, codeNum, ih _ (by omega)]
    rcases Nat.mod_two_eq_zero_or_one code with h1 | h1 <;> simp [h1] <;> omega

/-! ## The data layouts as numbers (R80 to R84) -/

/-- Quotient and remainder of `w * A + y` with `y` below `A`. -/
theorem div_mod_split (w A y : Nat) (hA : 0 < A) (hy : y < A) : (w * A + y) / A = w ∧ (w * A + y) % A = y := by
  constructor
  · rw [Nat.mul_comm, Nat.mul_add_div hA, Nat.div_eq_of_lt hy]; rfl
  · rw [Nat.mul_comm, Nat.mul_add_mod, Nat.mod_eq_of_lt hy]

theorem two_pow_nodew (P : Params) : 2 ^ P.nodew = 2 * (2 ^ P.ww * 2 ^ (2 * P.na)) := by
  rw [Params.nodew, Nat.pow_add, Nat.pow_add]; ring
theorem two_pow_nodew_pred (P : Params) : 2 ^ (P.nodew - 1) = 2 ^ P.ww * 2 ^ (2 * P.na) := by
  rw [Params.nodew, ← Nat.pow_add]; congr 1; omega
theorem two_pow_na_twice (P : Params) : 2 ^ (2 * P.na) = 2 ^ P.na * 2 ^ P.na := by rw [← Nat.pow_add]; congr 1; omega

/-- A field of `n` bits from bit `lo` up. -/
theorem field_eq (v hi lo n : Nat) (h : hi + 1 = lo + n) : field v hi lo = v / 2 ^ lo % 2 ^ n := by
  unfold field; congr 2; omega

/-- A Leaf word's number reads back (R82). -/
theorem readNodeWord_leaf (P : Params) (w y : Nat) (hw : w < 2 ^ P.ww) (hy : y < 2 ^ P.sw) :
    readNodeWord P (w * 2 ^ (2 * P.na) + y) = some (.leaf w y) ∧ (w * 2 ^ (2 * P.na) + y) / 2 ^ P.nodew = 0 := by
  have hna : P.na = P.sw + 1 := rfl
  have hyA : y < 2 ^ (2 * P.na) := lt_of_lt_of_le hy (Nat.pow_le_pow_right (by norm_num) (by omega))
  have hA : 0 < 2 ^ (2 * P.na) := by positivity
  obtain ⟨hd, hm⟩ := div_mod_split w _ y hA hyA
  have hlt : w * 2 ^ (2 * P.na) + y < 2 ^ P.ww * 2 ^ (2 * P.na) := by nlinarith
  have hk : (w * 2 ^ (2 * P.na) + y) / 2 ^ (P.nodew - 1) = 0 := by
    rw [two_pow_nodew_pred]; exact Nat.div_eq_of_lt hlt
  refine ⟨?_, ?_⟩
  · unfold readNodeWord
    rw [field_eq _ (P.nodew - 1) _ 1 (by unfold Params.nodew; omega)]
    rw [hk]
    simp only [Nat.zero_mod, if_true]
    have h2 : field (w * 2 ^ (2 * P.na) + y) (2 * P.na - 1) P.sw = 0 := by
      rw [field_eq _ _ _ (2 * P.na - P.sw) (by omega)]
      have : (w * 2 ^ (2 * P.na) + y) = 2 ^ P.sw * (w * 2 ^ (2 * P.na - P.sw)) + y := by
        rw [show (2 * P.na) = P.sw + (2 * P.na - P.sw) by omega, Nat.pow_add]; simp; ring
      rw [this, Nat.mul_add_div (by positivity), Nat.div_eq_of_lt hy]; simp
    rw [if_pos h2]
    congr 2
    · rcases Nat.eq_zero_or_pos P.ww with h0 | h0
      · have hw0 : w = 0 := by rw [h0] at hw; simpa using hw
        unfold field
        rw [hw0, show P.nodew - 2 + 1 - 2 * P.na = 0 by unfold Params.nodew; omega]; omega
      · rw [field_eq _ _ _ P.ww (by unfold Params.nodew; omega), hd, Nat.mod_eq_of_lt hw]
    · rcases Nat.eq_zero_or_pos P.sw with h0 | h0
      · have hy0 : y = 0 := by rw [h0] at hy; simpa using hy
        unfold field
        rw [hy0, h0, hna, h0]; simp; omega
      · rw [field_eq _ _ _ P.sw (by omega)]
        have : (w * 2 ^ (2 * P.na) + y) = 2 ^ P.sw * (w * 2 ^ (2 * P.na - P.sw)) + y := by
          rw [show (2 * P.na) = P.sw + (2 * P.na - P.sw) by omega, Nat.pow_add]; simp; ring
        simp only [pow_zero, Nat.div_one]
        rw [this, Nat.mul_add_mod, Nat.mod_eq_of_lt hy]
  · apply Nat.div_eq_of_lt; rw [two_pow_nodew]; omega

/-- An Internal word's number reads back (R81). -/
theorem readNodeWord_internal (P : Params) (w l r : Nat) (hw : w < 2 ^ P.ww) (hl : l < 2 ^ P.na) (hr : r < 2 ^ P.na) :
    readNodeWord P (2 ^ (P.nodew - 1) + w * 2 ^ (2 * P.na) + l * 2 ^ P.na + r) = some (.internal w l r) ∧
    (2 ^ (P.nodew - 1) + w * 2 ^ (2 * P.na) + l * 2 ^ P.na + r) / 2 ^ P.nodew = 0 := by
  have hna : P.na = P.sw + 1 := rfl
  have hlr : l * 2 ^ P.na + r < 2 ^ (2 * P.na) := by rw [two_pow_na_twice]; nlinarith
  have hA : 0 < 2 ^ (2 * P.na) := by positivity
  have hlt : w * 2 ^ (2 * P.na) + (l * 2 ^ P.na + r) < 2 ^ P.ww * 2 ^ (2 * P.na) := by nlinarith
  set v := 2 ^ (P.nodew - 1) + w * 2 ^ (2 * P.na) + l * 2 ^ P.na + r with hv
  have hv1 : v = 1 * (2 ^ P.ww * 2 ^ (2 * P.na)) + (w * 2 ^ (2 * P.na) + (l * 2 ^ P.na + r)) := by rw [hv, two_pow_nodew_pred]; ring
  have hv2 : v = (2 ^ P.ww + w) * 2 ^ (2 * P.na) + (l * 2 ^ P.na + r) := by rw [hv, two_pow_nodew_pred]; ring
  have hv3 : v = ((2 ^ P.ww + w) * 2 ^ P.na + l) * 2 ^ P.na + r := by rw [hv, two_pow_nodew_pred, two_pow_na_twice]; ring
  have hk := (div_mod_split 1 _ _ (by positivity) hlt).1; rw [← hv1] at hk
  have hk2 := (div_mod_split (2 ^ P.ww + w) _ _ hA hlr).1; rw [← hv2] at hk2
  have hk3 := div_mod_split ((2 ^ P.ww + w) * 2 ^ P.na + l) _ r (by positivity) hr; rw [← hv3] at hk3
  refine ⟨?_, ?_⟩
  · unfold readNodeWord
    rw [field_eq v (P.nodew - 1) _ 1 (by unfold Params.nodew; omega), two_pow_nodew_pred, hk]
    simp only [show 1 % 2 ^ 1 = 1 by norm_num, show ¬ (1 = 0) by norm_num, if_false]
    congr 2
    · rcases Nat.eq_zero_or_pos P.ww with h0 | h0
      · have hw0 : w = 0 := by rw [h0] at hw; simpa using hw
        unfold field
        rw [hw0, show P.nodew - 2 + 1 - 2 * P.na = 0 by unfold Params.nodew; omega]; omega
      · rw [field_eq _ _ _ P.ww (by unfold Params.nodew; omega), hk2]; simp [Nat.mod_eq_of_lt hw]
    · rw [field_eq _ _ _ P.na (by omega), hk3.1, Nat.mul_add_mod_self_right, Nat.mod_eq_of_lt hl]
    · rw [field_eq _ _ _ P.na (by omega)]; simpa using hk3.2
  · apply Nat.div_eq_of_lt; rw [two_pow_nodew, hv1]; omega

/-- A node word that reads is the number it was read from (R80 to R82). -/
theorem nodeWordNum_of_read (P : Params) (hP : P.legal = true) (v : Nat) (word : NodeWord) (h0 : v / 2 ^ P.nodew = 0)
   (h : readNodeWord P v = some word) : nodeWordNum P word = v ∧ word.wf P = true := by
  have hna : P.na = P.sw + 1 := rfl
  simp [Params.legal] at hP
  have hv : v < 2 ^ P.nodew := by
    rcases Nat.div_eq_zero_iff.1 h0 with h | h
    · have : 0 < 2 ^ P.nodew := by positivity
      omega
    · exact h
  rw [two_pow_nodew] at hv
  unfold readNodeWord at h
  rw [field_eq v (P.nodew - 1) _ 1 (by unfold Params.nodew; omega), field_eq v (P.nodew - 2) _ P.ww (by unfold Params.nodew; omega), field_eq v (2*P.na-1) P.sw (2 * P.na - P.sw) (by omega), field_eq v (P.sw-1) 0 P.sw (by omega), field_eq v (2*P.na-1) P.na P.na (by omega), field_eq v (P.na-1) 0 P.na (by omega), two_pow_nodew_pred] at h
  have e2 : v / 2 ^ (2*P.na) / 2 ^ P.ww = v / (2^P.ww * 2^(2*P.na)) := by rw [Nat.div_div_eq_div_mul, Nat.mul_comm]
  have d1 := Nat.div_add_mod v (2^(2*P.na))
  have d2 := Nat.div_add_mod (v / 2^(2*P.na)) (2^P.ww)
  have hk : v / (2^P.ww * 2^(2*P.na)) < 2 := by rw [Nat.div_lt_iff_lt_mul (by positivity)]; omega
  split at h
  · rename_i hk0
    have hk0' : v / (2^P.ww * 2^(2*P.na)) = 0 := by
      rw [Nat.pow_one] at hk0
      interval_cases h9 : v / (2^P.ww * 2^(2*P.na)) <;> simp_all
    rw [hk0] at *
    split at h
    · rename_i hr
      cases h
      rw [← Nat.mod_mul_right_div_self, show 2 ^ P.sw * 2 ^ (2 * P.na - P.sw) = 2 ^ (2*P.na) by rw [← Nat.pow_add]; congr 1; omega] at hr
      have hr' : v % 2 ^ (2*P.na) < 2 ^ P.sw := by
        rcases Nat.div_eq_zero_iff.1 hr with h | h
        · have : 0 < 2 ^ P.sw := by positivity
          omega
        · exact h
      have hm : v % 2 ^ P.sw = v % 2 ^ (2*P.na) := by
        rw [← Nat.mod_eq_of_lt hr', Nat.mod_mod_of_dvd]
        exact Nat.pow_dvd_pow 2 (by omega)
      constructor
      · simp only [nodeWordNum, pow_zero, Nat.div_one]
        rw [hm]
        rw [e2, hk0'] at d2
        have d2' : v / 2 ^ (2 * P.na) % 2 ^ P.ww = v / 2 ^ (2 * P.na) := by omega
        rw [d2', Nat.mul_comm]; exact d1
      · simp [NodeWord.wf]; exact ⟨Nat.mod_lt _ (by positivity), Nat.mod_lt _ (by positivity)⟩
    · cases h
  · rename_i hk0
    have hk0' : v / (2^P.ww * 2^(2*P.na)) = 1 := by
      rw [Nat.pow_one] at hk0
      interval_cases h9 : v / (2^P.ww * 2^(2*P.na)) <;> simp_all
    cases h
    constructor
    · simp only [nodeWordNum, pow_zero, Nat.div_one, two_pow_nodew_pred]
      rw [e2, hk0', Nat.mul_one] at d2
      have d3 := Nat.div_add_mod (v % 2^(2*P.na)) (2^P.na)
      rw [two_pow_na_twice, Nat.mod_mul_right_mod, Nat.mod_mul_right_div_self, ← two_pow_na_twice] at d3
      generalize v / 2 ^ (2*P.na) % 2 ^ P.ww = a at *
      generalize v / 2 ^ P.na % 2 ^ P.na = b at *
      generalize v % 2 ^ P.na = c at *
      rw [← d2, ← d3] at d1
      nlinarith
    · simp [NodeWord.wf]; exact ⟨Nat.mod_lt _ (by positivity), Nat.mod_lt _ (by positivity), Nat.mod_lt _ (by positivity)⟩

/-- LEN's field holds every length up to CLMAX (R6). -/
theorem clmax_lt_two_pow_lw (P : Params) : P.clmax < 2 ^ P.lw := by
  unfold Params.lw; exact Nat.lt_log2_self

/-- A codeword's entry reads back (R84). -/
theorem readEntry_entryNum (P : Params) (hP : P.legal = true) (c : Codeword) (hc : c.length ≤ P.clmax) :
   readEntry P (entryNum P c) = some c ∧ entryNum P c < 2 ^ P.ctw := by
  simp [Params.legal] at hP
  have h1 : codeNum c < 2 ^ P.clmax := lt_of_lt_of_le (codeNum_lt c) (Nat.pow_le_pow_right (by norm_num) hc)
  obtain ⟨hd, hm⟩ := div_mod_split c.length (2 ^ P.clmax) (codeNum c) (by positivity) h1
  have h2 := clmax_lt_two_pow_lw P
  have hlen : c.length < 2 ^ P.lw := by omega
  constructor
  · unfold readEntry entryNum
    rw [field_eq _ (P.ctw - 1) P.clmax P.lw (by unfold Params.ctw; omega), field_eq _ (P.clmax - 1) 0 P.clmax (by omega)]
    simp only [pow_zero, Nat.div_one, hd, hm, Nat.mod_eq_of_lt hlen]
    rw [if_pos ⟨hc, codeNum_lt c⟩, codeBits_codeNum]
  · unfold entryNum Params.ctw; rw [Nat.pow_add]; nlinarith

/-- An entry that reads is the number it was read from (R84). -/
theorem entryNum_of_read (P : Params) (hP : P.legal = true) (v : Nat) (c : Codeword) (h0 : v / 2 ^ P.ctw = 0)
   (h : readEntry P v = some c) : entryNum P c = v ∧ c.length ≤ P.clmax := by
  simp [Params.legal] at hP
  have hv : v < 2 ^ P.ctw := by
    rcases Nat.div_eq_zero_iff.1 h0 with h | h
    · have : 0 < 2 ^ P.ctw := by positivity
      omega
    · exact h
  unfold readEntry at h
  rw [field_eq _ (P.ctw - 1) P.clmax P.lw (by unfold Params.ctw; omega), field_eq _ (P.clmax - 1) 0 P.clmax (by omega)] at h
  have hl : v / 2 ^ P.clmax < 2 ^ P.lw := by
    rw [Nat.div_lt_iff_lt_mul (by positivity), ← Nat.pow_add]; exact hv
  simp only [pow_zero, Nat.div_one, Nat.mod_eq_of_lt hl] at h
  split at h
  · rename_i hc
    cases h
    simp only [entryNum, length_codeBits]
    rw [codeNum_codeBits _ _ hc.2]
    exact ⟨by rw [Nat.mul_comm]; exact Nat.div_add_mod _ _, hc.1⟩
  · cases h


end Sys2Proof
end

