-- ==== Sys2Proof/Laws/Memory.lean ====
section
/-! SUPPORT. The laws of the memories: a read after a write, and the canonical form, which every operation keeps. -/

namespace Sys2Proof.Machine

section Sparse

variable {α : Type}

/-! ## One sparse memory -/

@[simp] theorem memFind_nil (k : Nat) : memFind ([] : List (Nat × α)) k = none := rfl

theorem memFind_memErase (m : List (Nat × α)) (k j : Nat) :
    memFind (memErase m k) j = if j = k then none else memFind m j := by
  induction m with
  | nil => simp [memErase]
  | cons e m ih =>
    obtain ⟨a, v⟩ := e
    by_cases hak : a = k <;> by_cases haj : a = j <;> simp_all [memErase, memFind]

theorem memFind_memInsert (m : List (Nat × α)) (k j : Nat) (x : α) (h : memFind m k = none) :
    memFind (memInsert m k x) j = if j = k then some x else memFind m j := by
  induction m with
  | nil => simp [memInsert, memFind, eq_comm]
  | cons e m ih =>
    obtain ⟨a, v⟩ := e
    simp only [memFind] at h
    split at h
    · cases h
    · simp only [memInsert]
      split <;> simp only [memFind] <;> grind

/-- A read after a write: the entry written at its index, the entry before elsewhere (R54). -/
theorem memFind_memPut (m : List (Nat × α)) (k j : Nat) (x : Option α) :
    memFind (memPut m k x) j = if j = k then x else memFind m j := by
  cases x with
  | none => simp [memPut, memFind_memErase]
  | some v =>
    rw [memPut, memFind_memInsert _ _ _ _ (by simp [memFind_memErase]), memFind_memErase]
    grind

theorem mem_memErase {m : List (Nat × α)} {k : Nat} {e : Nat × α} (h : e ∈ memErase m k) :
    e ∈ m ∧ e.1 ≠ k := by
  induction m with
  | nil => simp [memErase] at h
  | cons a m ih =>
    obtain ⟨j, v⟩ := a
    simp only [memErase] at h
    split at h
    · exact ⟨List.mem_cons_of_mem _ (ih h).1, (ih h).2⟩
    · rcases List.mem_cons.1 h with rfl | h
      · exact ⟨List.mem_cons_self, by assumption⟩
      · exact ⟨List.mem_cons_of_mem _ (ih h).1, (ih h).2⟩

theorem mem_memInsert {m : List (Nat × α)} {k : Nat} {x : α} {e : Nat × α} (h : e ∈ memInsert m k x) :
    e = (k, x) ∨ e ∈ m := by
  induction m with
  | nil => simpa [memInsert] using h
  | cons a m ih =>
    obtain ⟨j, v⟩ := a
    simp only [memInsert] at h
    split at h
    · simpa using h
    · rcases List.mem_cons.1 h with rfl | h
      · exact .inr List.mem_cons_self
      · exact (ih h).imp_right (List.mem_cons_of_mem _)

/-- The indices rise strictly. -/
def rising (m : List (Nat × α)) : Prop := m.Pairwise (fun a b => a.1 < b.1)

theorem rising_memErase {m : List (Nat × α)} (k : Nat) (h : rising m) : rising (memErase m k) := by
  induction m with
  | nil => exact h
  | cons a m ih =>
    obtain ⟨j, v⟩ := a
    rw [rising, List.pairwise_cons] at h
    simp only [memErase]
    split
    · exact ih h.2
    · exact List.pairwise_cons.2 ⟨fun e he => h.1 e (mem_memErase he).1, ih h.2⟩

theorem rising_memInsert {m : List (Nat × α)} {k : Nat} (x : α) (h : rising m) (hk : ∀ e ∈ m, e.1 ≠ k) :
    rising (memInsert m k x) := by
  induction m with
  | nil => simp [memInsert, rising]
  | cons a m ih =>
    obtain ⟨j, v⟩ := a
    have h' := List.pairwise_cons.1 h
    simp only [memInsert]
    split
    · rename_i hkj
      refine List.pairwise_cons.2 ⟨fun e he => ?_, h⟩
      rcases List.mem_cons.1 he with rfl | he
      · exact hkj
      · exact Nat.lt_trans hkj (h'.1 e he)
    · rename_i hkj
      refine List.pairwise_cons.2
        ⟨fun e he => ?_, ih h'.2 (fun e he => hk e (List.mem_cons_of_mem _ he))⟩
      rcases mem_memInsert he with rfl | he
      · have := hk (j, v) List.mem_cons_self
        simp only at this ⊢
        omega
      · exact h'.1 e he

theorem rising_memPut {m : List (Nat × α)} (k : Nat) (x : Option α) (h : rising m) :
    rising (memPut m k x) := by
  cases x with
  | none => exact rising_memErase k h
  | some v => exact rising_memInsert v (rising_memErase k h) (fun e he => (mem_memErase he).2)

theorem mem_memPut {m : List (Nat × α)} {k : Nat} {x : Option α} {e : Nat × α} (h : e ∈ memPut m k x) :
    (e.1 = k ∧ x = some e.2) ∨ e ∈ m := by
  cases x with
  | none => exact .inr (mem_memErase h).1
  | some v =>
    rcases mem_memInsert h with rfl | h
    · exact .inl ⟨rfl, rfl⟩
    · exact .inr (mem_memErase h).1

/-- What is found is listed. -/
theorem mem_of_memFind {m : List (Nat × α)} {k : Nat} {v : α} (h : memFind m k = some v) : (k, v) ∈ m := by
  induction m with
  | nil => simp at h
  | cons a m ih =>
    obtain ⟨j, w⟩ := a
    simp only [memFind] at h
    split at h
    · simp_all
    · exact List.mem_cons_of_mem _ (ih h)

/-- In a memory whose indices rise, what is listed is found. -/
theorem memFind_of_mem {m : List (Nat × α)} {k : Nat} {v : α} (hm : rising m) (h : (k, v) ∈ m) :
    memFind m k = some v := by
  induction m with
  | nil => simp at h
  | cons a m ih =>
    obtain ⟨j, w⟩ := a
    have hm' := List.pairwise_cons.1 hm
    rcases List.mem_cons.1 h with h | h
    · cases h; simp [memFind]
    · have : j ≠ k := Nat.ne_of_lt (hm'.1 _ h)
      simp [memFind, this, ih hm'.2 h]

/-! ## The canonical form -/

theorem listed_iff {size : Nat} {ok : α → Bool} {m : List (Nat × α)} :
    Memory.listed size ok m = true ↔ rising m ∧ ∀ e ∈ m, e.1 < size ∧ ok e.2 = true := by
  simp [Memory.listed, rising, List.pairwise_map]

theorem listed_memPut {size : Nat} {ok : α → Bool} {m : List (Nat × α)} {k : Nat} {x : Option α}
    (h : Memory.listed size ok m = true) (hk : k < size) (hx : ∀ v, x = some v → ok v = true) :
    Memory.listed size ok (memPut m k x) = true := by
  rw [listed_iff] at h ⊢
  refine ⟨rising_memPut k x h.1, fun e he => ?_⟩
  rcases mem_memPut he with ⟨rfl, hxe⟩ | he
  · exact ⟨hk, hx _ hxe⟩
  · exact h.2 e he

theorem listed_nil (size : Nat) (ok : α → Bool) : Memory.listed size ok [] = true := by
  simp [Memory.listed]

end Sparse

/-! ## A read after a write, memory by memory -/

@[simp] theorem Memory.readFreq_writeFreq (m : Memory) (y z : Nat) (w : Nat) :
    (m.writeFreq y w).readFreq z = if z = y then w else m.readFreq z := by
  simp only [readFreq, writeFreq, memFind_memPut]
  split
  · split <;> simp_all
  · rfl

@[simp] theorem Memory.readNode_writeNode (m : Memory) (i j : Nat) (word : NodeWord) :
    (m.writeNode i word).readNode j = if j = i then some word else m.readNode j := by
  simp only [readNode, writeNode, memFind_memPut]

@[simp] theorem Memory.readCt_writeCt (m : Memory) (y z : Nat) (c : Codeword) :
    (m.writeCt y c).readCt z = if z = y then c else m.readCt z := by
  simp only [readCt, writeCt, memFind_memPut]
  split
  · split <;> simp_all
  · rfl

@[simp] theorem Memory.readFreq_clearFreq (m : Memory) (y : Nat) : m.clearFreq.readFreq y = 0 := rfl
@[simp] theorem Memory.readNode_clearNode (m : Memory) (i : Nat) : m.clearNode.readNode i = none := rfl
@[simp] theorem Memory.readCt_clearCt (m : Memory) (y : Nat) : m.clearCt.readCt y = [] := rfl

@[simp] theorem Memory.readNode_writeFreq (m : Memory) (y : Nat) (w : Nat) (i : Nat) :
    (m.writeFreq y w).readNode i = m.readNode i := rfl
@[simp] theorem Memory.readCt_writeFreq (m : Memory) (y : Nat) (w : Nat) (z : Nat) :
    (m.writeFreq y w).readCt z = m.readCt z := rfl
@[simp] theorem Memory.readFreq_writeNode (m : Memory) (i : Nat) (word : NodeWord) (y : Nat) :
    (m.writeNode i word).readFreq y = m.readFreq y := rfl
@[simp] theorem Memory.readCt_writeNode (m : Memory) (i : Nat) (word : NodeWord) (y : Nat) :
    (m.writeNode i word).readCt y = m.readCt y := rfl
@[simp] theorem Memory.readFreq_writeCt (m : Memory) (y : Nat) (c : Codeword) (z : Nat) :
    (m.writeCt y c).readFreq z = m.readFreq z := rfl
@[simp] theorem Memory.readNode_writeCt (m : Memory) (y : Nat) (c : Codeword) (i : Nat) :
    (m.writeCt y c).readNode i = m.readNode i := rfl
@[simp] theorem Memory.readNode_clearFreq (m : Memory) (i : Nat) : m.clearFreq.readNode i = m.readNode i := rfl
@[simp] theorem Memory.readCt_clearFreq (m : Memory) (y : Nat) : m.clearFreq.readCt y = m.readCt y := rfl
@[simp] theorem Memory.readFreq_clearNode (m : Memory) (y : Nat) : m.clearNode.readFreq y = m.readFreq y := rfl
@[simp] theorem Memory.readCt_clearNode (m : Memory) (y : Nat) : m.clearNode.readCt y = m.readCt y := rfl
@[simp] theorem Memory.readFreq_clearCt (m : Memory) (y : Nat) : m.clearCt.readFreq y = m.readFreq y := rfl
@[simp] theorem Memory.readNode_clearCt (m : Memory) (i : Nat) : m.clearCt.readNode i = m.readNode i := rfl

/-! ## Every operation keeps the canonical form -/

theorem Memory.wf_iff {P : Params} {m : Memory} :
    m.wf P = true ↔
      listed P.nsym (fun w => decide (w ≠ 0 ∧ w < 2 ^ P.ww)) m.freq = true ∧
      listed P.nnodes (fun word => word.wf P) m.node = true ∧
      listed P.nsym (fun c => decide (c ≠ []) && codewordWf P c) m.ct = true := by
  simp only [wf, Bool.and_eq_true, and_assoc]

theorem Memory.wf_writeFreq {P : Params} {m : Memory} (h : m.wf P = true) {y : Nat} {w : Nat}
    (hy : y < P.nsym) (hw : w < 2 ^ P.ww) : (m.writeFreq y w).wf P = true := by
  rw [wf_iff] at h ⊢
  refine ⟨listed_memPut h.1 hy fun v hv => ?_, h.2⟩
  split at hv <;> simp_all

theorem Memory.wf_writeNode {P : Params} {m : Memory} (h : m.wf P = true) {i : Nat} {word : NodeWord}
    (hi : i < P.nnodes) (hw : word.wf P = true) : (m.writeNode i word).wf P = true := by
  rw [wf_iff] at h ⊢
  refine ⟨h.1, listed_memPut (x := some word) h.2.1 hi fun v hv => ?_, h.2.2⟩
  cases hv; exact hw

theorem Memory.wf_writeCt {P : Params} {m : Memory} (h : m.wf P = true) {y : Nat} {c : Codeword}
    (hy : y < P.nsym) (hc : codewordWf P c = true) : (m.writeCt y c).wf P = true := by
  rw [wf_iff] at h ⊢
  refine ⟨h.1, h.2.1, listed_memPut h.2.2 hy fun v hv => ?_⟩
  split at hv <;> simp_all

theorem Memory.wf_clearFreq {P : Params} {m : Memory} (h : m.wf P = true) : m.clearFreq.wf P = true := by
  rw [wf_iff] at h ⊢; exact ⟨listed_nil _ _, h.2⟩

theorem Memory.wf_clearNode {P : Params} {m : Memory} (h : m.wf P = true) : m.clearNode.wf P = true := by
  rw [wf_iff] at h ⊢; exact ⟨h.1, listed_nil _ _, h.2.2⟩

theorem Memory.wf_clearCt {P : Params} {m : Memory} (h : m.wf P = true) : m.clearCt.wf P = true := by
  rw [wf_iff] at h ⊢; exact ⟨h.1, h.2.1, listed_nil _ _⟩

/-- The reset memory is in canonical form. -/
theorem Memory.wf_reset (P : Params) : (State.resetOf P).mem.wf P = true :=
  wf_iff.2 ⟨listed_nil _ _, listed_nil _ _, listed_nil _ _⟩

/-! ## What a canonical memory reads -/

theorem Memory.readFreq_lt {P : Params} {m : Memory} (h : m.wf P = true) (y : Nat) : m.readFreq y < 2 ^ P.ww := by
  unfold readFreq
  cases hf : memFind m.freq y with
  | none => simp
  | some v =>
    have := ((listed_iff.1 (wf_iff.1 h).1).2 _ (mem_of_memFind hf)).2
    simp_all

theorem Memory.lt_nsym_of_readFreq {P : Params} {m : Memory} (h : m.wf P = true) {y : Nat}
    (hy : m.readFreq y ≠ 0) : y < P.nsym := by
  unfold readFreq at hy
  cases hf : memFind m.freq y with
  | none => simp [hf] at hy
  | some v => exact ((listed_iff.1 (wf_iff.1 h).1).2 _ (mem_of_memFind hf)).1

theorem Memory.wf_of_readNode {P : Params} {m : Memory} (h : m.wf P = true) {i : Nat} {word : NodeWord}
    (hw : m.readNode i = some word) : i < P.nnodes ∧ word.wf P = true :=
  (listed_iff.1 (wf_iff.1 h).2.1).2 _ (mem_of_memFind hw)

theorem Memory.length_readCt_le {P : Params} {m : Memory} (h : m.wf P = true) (y : Nat) :
    (m.readCt y).length ≤ P.clmax := by
  unfold readCt
  cases hf : memFind m.ct y with
  | none => simp
  | some v =>
    have := ((listed_iff.1 (wf_iff.1 h).2.2).2 _ (mem_of_memFind hf)).2
    simp_all [codewordWf]

end Sys2Proof.Machine
end

