-- ==== Sys2Proof/Laws/Ops.lean ====
section
/-! SUPPORT. What each shared operation can do, said once. -/

namespace Sys2Proof.Machine

@[simp] theorem unlessFaulted_live {s : State} (h : s.fault = none) (k : Result) : unlessFaulted s k = k := by
  simp [unlessFaulted, h]

@[simp] theorem unlessFaulted_faulted {s : State} (h : s.fault ≠ none) (k : Result) :
    unlessFaulted s k = .next s := by
  simp [unlessFaulted, h]

/-- A command under the freeze either finds FAULT = 0 and goes on, or is dropped (R90). -/
theorem unlessFaulted_cases {s t : State} {k : Result} (h : unlessFaulted s k = .next t) :
    (s.fault = none ∧ k = .next t) ∨ (s.fault ≠ none ∧ t = s) := by
  by_cases hf : s.fault = none
  · exact .inl ⟨hf, by simpa [hf] using h⟩
  · exact .inr ⟨hf, by simpa [unlessFaulted, hf, eq_comm] using h⟩

@[simp] theorem require_pos {c : Prop} [Decidable c] (h : c) (f : FaultCode) (info : Nat) (s : State) (k : Result) :
    require c f info s k = k := by
  simp [require, h]

@[simp] theorem require_neg {c : Prop} [Decidable c] (h : ¬c) (f : FaultCode) (info : Nat) (s : State) (k : Result) :
    require c f info s k = .next (raise f info s) := by
  simp [require, h]

/-- A check either passes and the command goes on, or it raises its fault and nothing else happens (R11). -/
theorem require_cases {c : Prop} [Decidable c] {f : FaultCode} {info : Nat} {s t : State} {k : Result}
    (h : require c f info s k = .next t) : (c ∧ k = .next t) ∨ (¬c ∧ t = raise f info s) := by
  by_cases hc : c
  · exact .inl ⟨hc, by simpa [hc] using h⟩
  · exact .inr ⟨hc, by simpa [hc, eq_comm] using h⟩

theorem requireIndex_cases {ok : Bool} {x : Index} {s t : State} {k : Result}
    (h : requireIndex ok x s k = .next t) :
    (ok = true ∧ k = .next t) ∨ (ok ≠ true ∧ t = raise .badIndex x.toNat s) :=
  require_cases h

/-- The leaf step emits the leaf's symbol and returns to the root, or does nothing (R182). -/
theorem leafStep_cases (s : State) :
    (∃ w y, s.mem.readNode s.cur = some (.leaf w y) ∧
      leafStep s = { s with symq := s.symq ++ [y], cur := s.root }) ∨
    ((∀ w y, s.mem.readNode s.cur ≠ some (.leaf w y)) ∧ leafStep s = s) := by
  unfold leafStep
  split
  · exact .inl ⟨_, _, by assumption, rfl⟩
  · refine .inr ⟨fun w y hl => ?_, rfl⟩
    rename_i hn
    exact hn w y hl

@[simp] theorem leafStep_mem (s : State) : (leafStep s).mem = s.mem := by unfold leafStep; split <;> rfl
@[simp] theorem leafStep_root (s : State) : (leafStep s).root = s.root := by unfold leafStep; split <;> rfl
@[simp] theorem leafStep_nnode (s : State) : (leafStep s).nnode = s.nnode := by unfold leafStep; split <;> rfl
@[simp] theorem leafStep_pos (s : State) : (leafStep s).pos = s.pos := by unfold leafStep; split <;> rfl
@[simp] theorem leafStep_dact (s : State) : (leafStep s).dact = s.dact := by unfold leafStep; split <;> rfl
@[simp] theorem leafStep_fault (s : State) : (leafStep s).fault = s.fault := by unfold leafStep; split <;> rfl
@[simp] theorem leafStep_finfo (s : State) : (leafStep s).finfo = s.finfo := by unfold leafStep; split <;> rfl
@[simp] theorem leafStep_bitq (s : State) : (leafStep s).bitq = s.bitq := by unfold leafStep; split <;> rfl
@[simp] theorem leafStep_rspq (s : State) : (leafStep s).rspq = s.rspq := by unfold leafStep; split <;> rfl
@[simp] theorem leafStep_cmdq (s : State) : (leafStep s).cmdq = s.cmdq := by unfold leafStep; split <;> rfl
@[simp] theorem leafStep_inst (s : State) : (leafStep s).inst = s.inst := by unfold leafStep; split <;> rfl

/-- The bit step moves to a valid child and counts the bit, or raises a fault at the node it stands on (R182). -/
theorem bitStep_cases {b : Bool} {s t : State} (h : bitStep b s = .next t) :
    (∃ w l r, s.mem.readNode s.cur = some (.internal w l r) ∧ (if b then r else l) ≠ s.inst.nil ∧
      s.mem.readNode (if b then r else l) ≠ none ∧
      t = { s with cur := if b then r else l, pos := (s.pos + 1) % 2 ^ s.inst.pw }) ∨
    (∃ f info, t = raise f info s) := by
  unfold bitStep at h
  split at h
  · cases h; exact .inr ⟨_, _, rfl⟩
  · cases h; exact .inr ⟨_, _, rfl⟩
  · rename_i w l r hn
    rcases require_cases h with ⟨h1, h⟩ | ⟨-, rfl⟩
    · rcases require_cases h with ⟨h2, h⟩ | ⟨-, rfl⟩
      · cases h; exact .inl ⟨w, l, r, hn, h1, h2, rfl⟩
      · exact .inr ⟨_, _, rfl⟩
    · exact .inr ⟨_, _, rfl⟩

/-- A visit writes CT and nothing else (R161). -/
theorem visit_frame {P : Params} {room : Nat} {i : Nat} {path : Codeword} {m m' : Memory}
    (h : visit P room i path m = .ok m') : m'.freq = m.freq ∧ m'.node = m.node := by
  induction room generalizing i path m m' with
  | zero => unfold visit at h; split at h <;> cases h
  | succ room ih =>
    unfold visit at h
    split at h
    · cases h
    · split at h
      · cases h
      · split at h
        · cases h
        · cases h; exact ⟨rfl, rfl⟩
    · rename_i w l r _
      split at h
      · cases h
      · rename_i m1 h1
        have hm1 : m1.freq = m.freq ∧ m1.node = m.node := by
          split at h1
          · cases h1; exact ⟨rfl, rfl⟩
          · exact ih h1
        split at h
        · cases h; exact hm1
        · exact ⟨(ih h).1.trans hm1.1, (ih h).2.trans hm1.2⟩

/-- The seeding writes NODE and nothing else (R143). -/
theorem seedLeaves_frame (ys : List Nat) (k : Nat) (m : Memory) :
    (seedLeaves ys k m).freq = m.freq ∧ (seedLeaves ys k m).ct = m.ct := by
  induction ys generalizing k m with
  | nil => exact ⟨rfl, rfl⟩
  | cons y ys ih => exact ih _ _

/-- The merge writes NODE and nothing else (R145). -/
theorem mergeLoop_frame (fuel : Nat) (q : List Pending) (k : Nat) (m : Memory) :
    (mergeLoop fuel q k m).freq = m.freq ∧ (mergeLoop fuel q k m).ct = m.ct := by
  induction fuel generalizing q k m with
  | zero => exact ⟨rfl, rfl⟩
  | succ fuel ih =>
    unfold mergeLoop
    split
    · exact ⟨rfl, rfl⟩
    · split
      · exact ⟨rfl, rfl⟩
      · exact ih _ _ _

theorem keyLt_iff {a b : Pending} :
    keyLt a b = true ↔ a.weight < b.weight ∨ (a.weight = b.weight ∧ a.index < b.index) := by
  simp [keyLt]

/-- The element taken is in the collection, its key is least, and the rest is the rest (R144). -/
theorem popLeast_cases {q rest : List Pending} {a : Pending} (h : popLeast q = some (a, rest)) :
    q.Perm (a :: rest) ∧ ∀ b ∈ rest, ¬ keyLt b a = true := by
  induction q generalizing a rest with
  | nil => cases h
  | cons c q ih =>
    unfold popLeast at h
    split at h
    · rename_i hq
      cases h
      have : q = [] := by
        cases q with
        | nil => rfl
        | cons d q =>
          unfold popLeast at hq
          split at hq
          · cases hq
          · split at hq <;> cases hq
      subst this
      exact ⟨List.Perm.refl _, by simp⟩
    · rename_i b rest' hq
      obtain ⟨hp, hmin⟩ := ih hq
      split at h
      · rename_i hlt
        cases h
        refine ⟨(hp.cons c).trans (List.Perm.swap _ _ _), fun d hd => ?_⟩
        rcases List.mem_cons.1 hd with rfl | hd
        · rw [keyLt_iff] at hlt ⊢
          omega
        · exact hmin d hd
      · rename_i hlt
        cases h
        refine ⟨hp.cons c, fun d hd => ?_⟩
        rcases List.mem_cons.1 hd with rfl | hd
        · exact hlt
        · have := hmin d hd
          rw [keyLt_iff] at hlt this ⊢
          omega

theorem popLeast_isSome {q : List Pending} (h : q ≠ []) : ∃ a rest, popLeast q = some (a, rest) := by
  cases q with
  | nil => contradiction
  | cons c q =>
    unfold popLeast
    split
    · exact ⟨_, _, rfl⟩
    · split <;> exact ⟨_, _, rfl⟩

end Sys2Proof.Machine
end

