-- ==== Sys2Proof/Laws/Port.lean ====
section
/-! SUPPORT. The command port: head values, what a refused command does, and the encoding clauses of formats N and R, S, X,
XR from the decoder's arm. -/

namespace Sys2Proof.Machine

/-- The head value of an opcode plus an index is the head made of the two (R73, R76). -/
theorem headValue_headOf (op : Opcode) (x : Index) : headValue (op.toNat * 2048) x = headOf op x := by
  apply BitVec.eq_of_toNat_eq
  rw [headOf_toNat]
  simp only [headValue, BitVec.toNat_ofNat]
  have := op.isLt
  have := x.isLt
  omega

theorem takeCommand_ok {s : State} {c : Command} {i : Instr} (h : decode s.inst c = .ok i) :
    takeCommand c s = exec i s := by
  simp [takeCommand, h]

/-- A refused command of an unfaulted state is IllegalCommand with the head (R91, R92). -/
theorem takeCommand_error {s : State} {c : Command} {e : DecodeError} (hf : s.fault = none)
    (h : decode s.inst c = .error e) : takeCommand c s = .next (raised .illegalCommand c.head.toNat s) := by
  simp [takeCommand, h, refuseCommand, raise_live hf]

/-- A refused command of a faulted state is dropped (R90). -/
theorem takeCommand_error_faulted {s : State} {c : Command} {e : DecodeError} (hf : s.fault ≠ none)
    (h : decode s.inst c = .error e) : takeCommand c s = .next s := by
  simp [takeCommand, h, refuseCommand, raise_faulted hf]

/-- The encoding clause of format N, from the decoder's arm (R74, R92). -/
theorem encodedN_of_formatN (op : Opcode) (i : Instr)
    (h : ∀ P c, headOpcode c.head = op → decode P c = formatN c i) : encodedN (op.toNat * 2048) i := by
  refine ⟨fun P => ?_, fun s x d hf hx => ?_⟩
  · rw [headValue_headOf, h _ _ (by simp)]
    simp [formatN]
  · rw [takeCommand, h _ _ (by simp [headValue_headOf])]
    simp only [formatN, headValue_headOf, headIndex_headOf]
    by_cases h0 : x = 0#11
    · have hd : d ≠ 0 := by simpa [h0] using hx
      simp [h0, hd, refuseCommand, raise_live hf, headOf_toNat]
    · simp [h0, refuseCommand, raise_live hf, headOf_toNat]

/-- The encoding clause of formats R, S, X and XR, from the decoder's arm (R74, R92). -/
theorem encodedIndex_of_formatIndex (op : Opcode) (i : Index → Instr)
    (h : ∀ P c, headOpcode c.head = op → decode P c = formatIndex c i) : encodedIndex (op.toNat * 2048) i := by
  refine ⟨fun P x => ?_, fun s x d hf hx => ?_⟩
  · rw [headValue_headOf, h _ _ (by simp)]
    simp [formatIndex]
  · rw [takeCommand, h _ _ (by simp [headValue_headOf])]
    simp only [formatIndex, headValue_headOf, headIndex_headOf]
    simp [hx, refuseCommand, raise_live hf, headOf_toNat]

end Sys2Proof.Machine
end

