-- ==== Sys2Proof/Laws/PerInstr.lean ====
section
/-! SUPPORT. What holds of every instruction as syntax, one lemma per constructor: its head carries its opcode and its index,
and its data field fits its format. -/

namespace Sys2Proof.Laws

/-- The head of the encoding carries the command's opcode and index (R73, R76). -/
def HeadFields.Statement (i : Instr) : Prop :=
  ∀ P : Params, headOpcode (encode P i).head = opcodeOf i ∧ headIndex (encode P i).head = indexOf i

/-- The data field of a well-formed command's encoding has no bit above its operand (R74, R92). -/
def DataFits.Statement (i : Instr) : Prop :=
  ∀ P : Params, P.legal = true → i.wf P = true →
    dataOf P i < 2 ^ (match i with
      | .wrnode _ _ => P.nodew
      | .wrct _ _ => P.ctw
      | .wrfreq _ _ => P.ww
      | _ => 0)

theorem HeadFields.nop : HeadFields.Statement .nop := fun _ => ⟨headOpcode_headOf _ _, headIndex_headOf _ _⟩
theorem HeadFields.reset : HeadFields.Statement .reset := fun _ => ⟨headOpcode_headOf _ _, headIndex_headOf _ _⟩
theorem HeadFields.rdreg (reg : Index) : HeadFields.Statement (.rdreg reg) := fun _ => ⟨headOpcode_headOf _ _, headIndex_headOf _ _⟩
theorem HeadFields.wrnode (i : Index) (word : NodeWord) : HeadFields.Statement (.wrnode i word) := fun _ => ⟨headOpcode_headOf _ _, headIndex_headOf _ _⟩
theorem HeadFields.rdnode (i : Index) : HeadFields.Statement (.rdnode i) := fun _ => ⟨headOpcode_headOf _ _, headIndex_headOf _ _⟩
theorem HeadFields.wrct (s : Index) (entry : Codeword) : HeadFields.Statement (.wrct s entry) := fun _ => ⟨headOpcode_headOf _ _, headIndex_headOf _ _⟩
theorem HeadFields.rdct (s : Index) : HeadFields.Statement (.rdct s) := fun _ => ⟨headOpcode_headOf _ _, headIndex_headOf _ _⟩
theorem HeadFields.wrfreq (s : Index) (w : Nat) : HeadFields.Statement (.wrfreq s w) := fun _ => ⟨headOpcode_headOf _ _, headIndex_headOf _ _⟩
theorem HeadFields.rdfreq (s : Index) : HeadFields.Statement (.rdfreq s) := fun _ => ⟨headOpcode_headOf _ _, headIndex_headOf _ _⟩
theorem HeadFields.setroot (i : Index) : HeadFields.Statement (.setroot i) := fun _ => ⟨headOpcode_headOf _ _, headIndex_headOf _ _⟩
theorem HeadFields.clrfreq : HeadFields.Statement .clrfreq := fun _ => ⟨headOpcode_headOf _ _, headIndex_headOf _ _⟩
theorem HeadFields.count (s : Index) : HeadFields.Statement (.count s) := fun _ => ⟨headOpcode_headOf _ _, headIndex_headOf _ _⟩
theorem HeadFields.build : HeadFields.Statement .build := fun _ => ⟨headOpcode_headOf _ _, headIndex_headOf _ _⟩
theorem HeadFields.derive : HeadFields.Statement .derive := fun _ => ⟨headOpcode_headOf _ _, headIndex_headOf _ _⟩
theorem HeadFields.esym (s : Index) : HeadFields.Statement (.esym s) := fun _ => ⟨headOpcode_headOf _ _, headIndex_headOf _ _⟩
theorem HeadFields.dstart : HeadFields.Statement .dstart := fun _ => ⟨headOpcode_headOf _ _, headIndex_headOf _ _⟩
theorem HeadFields.dbit (b : Bool) : HeadFields.Statement (.dbit b) := fun _ => ⟨headOpcode_headOf _ _, headIndex_headOf _ _⟩
theorem HeadFields.dend : HeadFields.Statement .dend := fun _ => ⟨headOpcode_headOf _ _, headIndex_headOf _ _⟩

theorem DataFits.nop : DataFits.Statement .nop := fun _ _ _ => Nat.one_pos

theorem DataFits.reset : DataFits.Statement .reset := fun _ _ _ => Nat.one_pos

theorem DataFits.rdreg (reg : Index) : DataFits.Statement (.rdreg reg) := fun _ _ _ => Nat.one_pos

theorem DataFits.wrnode (i : Index) (word : NodeWord) : DataFits.Statement (.wrnode i word) := by
  intro P _ h
  refine Nat.lt_of_div_eq_zero (Nat.two_pow_pos _) ?_
  cases word with
  | leaf w y =>
    simp only [Instr.wf, NodeWord.wf, decide_eq_true_eq] at h
    exact (readNodeWord_leaf P w y h.1 h.2).2
  | internal w l r =>
    simp only [Instr.wf, NodeWord.wf, decide_eq_true_eq] at h
    exact (readNodeWord_internal P w l r h.1 h.2.1 h.2.2).2

theorem DataFits.rdnode (i : Index) : DataFits.Statement (.rdnode i) := fun _ _ _ => Nat.one_pos

theorem DataFits.wrct (s : Index) (entry : Codeword) : DataFits.Statement (.wrct s entry) := by
  intro P hP h
  simp only [Instr.wf, codewordWf, decide_eq_true_eq] at h
  exact (readEntry_entryNum P hP entry h).2

theorem DataFits.rdct (s : Index) : DataFits.Statement (.rdct s) := fun _ _ _ => Nat.one_pos

theorem DataFits.wrfreq (s : Index) (w : Nat) : DataFits.Statement (.wrfreq s w) := fun _ _ h => of_decide_eq_true h

theorem DataFits.rdfreq (s : Index) : DataFits.Statement (.rdfreq s) := fun _ _ _ => Nat.one_pos

theorem DataFits.setroot (i : Index) : DataFits.Statement (.setroot i) := fun _ _ _ => Nat.one_pos

theorem DataFits.clrfreq : DataFits.Statement .clrfreq := fun _ _ _ => Nat.one_pos

theorem DataFits.count (s : Index) : DataFits.Statement (.count s) := fun _ _ _ => Nat.one_pos

theorem DataFits.build : DataFits.Statement .build := fun _ _ _ => Nat.one_pos

theorem DataFits.derive : DataFits.Statement .derive := fun _ _ _ => Nat.one_pos

theorem DataFits.esym (s : Index) : DataFits.Statement (.esym s) := fun _ _ _ => Nat.one_pos

theorem DataFits.dstart : DataFits.Statement .dstart := fun _ _ _ => Nat.one_pos

theorem DataFits.dbit (b : Bool) : DataFits.Statement (.dbit b) := fun _ _ _ => Nat.one_pos

theorem DataFits.dend : DataFits.Statement .dend := fun _ _ _ => Nat.one_pos

end Sys2Proof.Laws
end

