-- ==== Sys2Proof/Tests/Slice0.lean ====
section
/-! SUPPORT. The model's own tests: the ill-formed terms WellFormed refuses, words written out from the spec's encodings, one
step per test on a small state with expected values from `95_test_vectors.md` or worked by hand from the rules, and for each
statement with hypotheses a witness that meets them. -/

namespace Sys2Proof.Machine.Tests

/-! ## Helpers: a small instance and a few of its states -/

/-- SW = 2, WW = 4, CLMAX = 3, PW = 3: four symbols, seven node entries, NIL = 7. -/
def tiny : Params := { sw := 2, ww := 4, clmax := 3, pw := 3 }

def R : State := State.resetOf tiny

/-- The state a result answers, or the reset state. -/
def nextOf : Result → State
  | .next t => t
  | .fault _ => R
  | .refused _ => R

/-- The state after a command. -/
def after (i : Instr) (s : State) : State := nextOf (exec i s)

/-- The default instance with these counts. -/
def std (freq : List (Nat × Nat)) : State := { State.reset with mem := { freq := freq, node := [], ct := [] } }

/-- FREQ = {0:3, 1:1, 2:1}. -/
def counted : State := { R with mem := { freq := [(0, 3), (1, 1), (2, 1)], node := [], ct := [] } }

/-- Its tree: leaves 0, 1, 2; node 3 of 1 and 2; node 4 of 3 and 0. -/
def tree : State :=
  { R with
    mem := { freq := [(0, 3), (1, 1), (2, 1)]
             node := [(0, .leaf 3 0), (1, .leaf 1 1), (2, .leaf 1 2), (3, .internal 2 1 2), (4, .internal 5 3 0)]
             ct := [] }
    root := 4
    nnode := 5 }

/-- With its code table: 0 is "1", 1 is "00", 2 is "01". -/
def coded : State :=
  { tree with mem := { tree.mem with ct := [(0, [true]), (1, [false, false]), (2, [false, true])] } }

/-- A session just opened at the root. -/
def session : State := { coded with cur := 4, dact := true }

/-- The session after the bit 1: the cursor on the leaf of symbol 0. -/
def onLeaf : State := { session with cur := 0, pos := 1 }

/-- The single-symbol tree of symbol 2. -/
def single : State :=
  { R with mem := { freq := [(2, 4)], node := [(0, .leaf 4 2), (1, .internal 4 0 7)], ct := [] }, root := 1, nnode := 2 }

def faulted : State := { coded with fault := some .truncatedInput, finfo := 3#16 }

/-! ## Parameters, faults and registers -/

/-- The defaults of R6's table. -/
theorem test_standard_parameters :
    Params.standard.na = 9 ∧ Params.standard.nnodes = 511 ∧ Params.standard.nil = 511 ∧ Params.standard.lw = 8 ∧
    Params.standard.nodew = 51 ∧ Params.standard.ctw = 263 ∧ Params.standard.dw = 263 := by decide

/-- The codes of R201, in the order of its table. -/
theorem test_fault_numbers :
    [none, some .invalidInput, some .unknownSymbol, some .truncatedInput, some .illegalCommand, some .badIndex,
      some .seqError, some .noTree, some .invalidNode, some .absentChild, some .rootIsLeaf, some .weightOverflow,
      some .codeTooLong, some .duplicateSymbol].map faultNumber = List.range 14 := by decide

/-- STATUS reads 3 in a faulted session (P3, V45). -/
theorem test_status : status { session with fault := some .absentChild } = 3 ∧ status R = 0 := by decide

/-! ## WellFormed refuses ill-formed terms -/

theorem test_wf_leaf_weight : (NodeWord.leaf 16 0).wf tiny = false := by decide
theorem test_wf_leaf_symbol : (NodeWord.leaf 0 4).wf tiny = false := by decide
theorem test_wf_internal_weight : (NodeWord.internal 16 0 0).wf tiny = false := by decide
theorem test_wf_internal_left : (NodeWord.internal 0 8 0).wf tiny = false := by decide
theorem test_wf_internal_right : (NodeWord.internal 0 0 8).wf tiny = false := by decide
theorem test_wf_codeword : codewordWf tiny [true, true, true, true] = false := by decide
theorem test_wf_wrnode : (Instr.wrnode 0#11 (.leaf 16 0)).wf tiny = false := by decide
theorem test_wf_wrct : (Instr.wrct 0#11 [true, true, true, true]).wf tiny = false := by decide
theorem test_wf_wrfreq : (Instr.wrfreq 0#11 16).wf tiny = false := by decide
theorem test_wf_command : ({ head := 0#16, data := 2 ^ 16 } : Command).wf tiny = false := by decide
theorem test_wf_parameters :
    Params.legal { Params.standard with sw := 11 } = false ∧ Params.legal { Params.standard with ww := 0 } = false ∧
    Params.legal { Params.standard with clmax := 256 } = false ∧ Params.legal { Params.standard with pw := 65 } = false ∧
    Params.standard.legal = true ∧ tiny.legal = true := by decide

/-- Memory out of order, with a default entry, or with an index outside its space, is not canonical. -/
theorem test_wf_memory :
    Memory.wf tiny { freq := [(1, 1), (0, 1)], node := [], ct := [] } = false ∧
    Memory.wf tiny { freq := [(1, 0)], node := [], ct := [] } = false ∧
    Memory.wf tiny { freq := [], node := [(7, .leaf 0 0)], ct := [] } = false ∧
    Memory.wf tiny { freq := [], node := [], ct := [(0, [])] } = false ∧
    Memory.wf tiny coded.mem = true := by decide

/-! ## Decoding words written out bit by bit from R73, R76, R80 to R84, R98 and the vectors -/

def dec (h d : Nat) : DecodeError ⊕ Instr :=
  match decode Params.standard { head := BitVec.ofNat 16 h, data := d } with
  | .ok i => .inr i
  | .error e => .inl e

theorem test_decode_nop : dec 0b0000000000000000 0 = .inr .nop := rfl
theorem test_decode_reset : dec 0b0000100000000000 0 = .inr .reset := rfl
theorem test_decode_rdreg : dec 0b0001000000000011 0 = .inr (.rdreg 3#11) := rfl
/-- V3: LEAF(4,'a') is 0x100061. -/
theorem test_decode_wrnode_leaf : dec 0b0010000000000001 0x100061 = .inr (.wrnode 1#11 (.leaf 4 0x61)) := rfl
/-- R81: weight 11, left 0, right 7 is 0x40000002C0007. -/
theorem test_decode_wrnode_internal :
    dec 0b0010000000001000 0x40000002C0007 = .inr (.wrnode 8#11 (.internal 11 0 7)) := rfl
theorem test_decode_rdnode : dec 0b0010100111111110 0 = .inr (.rdnode 510#11) := rfl
/-- R84: the codeword "110" is LEN = 3, CODE = 3. -/
theorem test_decode_wrct : dec 0b0011000001100010 (3 * 2 ^ 255 + 3) = .inr (.wrct 0x62#11 [true, true, false]) := by
  decide +kernel
theorem test_decode_rdct : dec 0b0011100001100001 0 = .inr (.rdct 0x61#11) := rfl
theorem test_decode_wrfreq : dec 0b0100000001100001 5 = .inr (.wrfreq 0x61#11 5) := rfl
theorem test_decode_rdfreq : dec 0b0100100001100001 0 = .inr (.rdfreq 0x61#11) := rfl
theorem test_decode_setroot : dec 0b0101000111111111 0 = .inr (.setroot 511#11) := rfl
theorem test_decode_clrfreq : dec 0b0101100000000000 0 = .inr .clrfreq := rfl
theorem test_decode_count : dec 0b0110000001100001 0 = .inr (.count 0x61#11) := rfl
theorem test_decode_build : dec 0b0110100000000000 0 = .inr .build := rfl
theorem test_decode_derive : dec 0b0111000000000000 0 = .inr .derive := rfl
theorem test_decode_esym : dec 0b1000000001100010 0 = .inr (.esym 0x62#11) := rfl
theorem test_decode_dstart : dec 0b1010000000000000 0 = .inr .dstart := rfl
theorem test_decode_dbit : dec 0b1010100000000000 0 = .inr (.dbit false) ∧ dec 0b1010100000000001 0 = .inr (.dbit true) :=
  ⟨rfl, rfl⟩
theorem test_decode_dend : dec 0b1011000000000000 0 = .inr .dend := rfl

/-- V57 to V65: each refusal by its name. -/
theorem test_decode_refusals :
    dec 0x0001 0 = .inl .indexNotZero ∧ dec 0x0000 1 = .inl .dataNotZero ∧
    dec 0x1805 0 = .inl .reservedOpcode ∧ dec 0xFFFF 0 = .inl .reservedOpcode ∧
    dec 0xA802 0 = .inl .indexNotZero ∧ dec 0x2000 0x40101 = .inl .dataLayout ∧
    dec 0x2000 (2 ^ 51) = .inl .dataTooWide ∧ dec 0x4001 (2 ^ 32) = .inl .dataTooWide ∧
    dec 0x3001 (1 * 2 ^ 255 + 2) = .inl .dataLayout := by decide +kernel

/-- The encoder's words are those of R98 and of V3. -/
theorem test_encode_words :
    encode Params.standard (.wrnode 8#11 (.internal 11 0 7)) = { head := 0x2008#16, data := 0x40000002C0007 } ∧
    encode Params.standard (.wrct 0x62#11 [true, true, false]) = { head := 0x3062#16, data := 3 * 2 ^ 255 + 3 } ∧
    encode Params.standard (.dbit true) = { head := 0xA801#16, data := 0 } :=
  ⟨rfl, by decide +kernel, rfl⟩

/-- The host's table words: the head's own bits, the data field above them zero. -/
theorem test_table_words :
    decodeTableWord 16 0x2000 = some (.wrnode 0#11 (.leaf 0 0)) ∧ decodeTableWord 16 0x3000 = some (.wrct 0#11 []) ∧
    decodeTableWord 16 0xA801 = some (.dbit true) ∧ decodeTableWord 16 0x0001 = none := by decide +kernel

/-- The host's fetch word runs as the next step (V8). -/
theorem test_fetch_word : (nextOf (step (State.reset.withFetchWord 16 0x5008))).root = 8 := by decide

/-! ## One step each -/

theorem test_nop : after .nop faulted = faulted := by decide

/-- V73. -/
theorem test_reset : after .reset { session with symq := [1], fault := some .noTree } = { R with symq := [1] } := by decide

/-- V1: after reset ROOT reads NIL, and number 7 is BadIndex with info 7 (V66). -/
theorem test_rdreg : (after (.rdreg 3#11) State.reset).rspq = [0x1FF] := by decide
theorem test_rdreg_bad : after (.rdreg 7#11) R = { R with fault := some .badIndex, finfo := 7#16 } := by decide

/-- V52: in a session WRNODE is SeqError(4). -/
theorem test_wrnode_session :
    after (.wrnode 5#11 (.leaf 1 1)) session = { session with fault := some .seqError, finfo := 4#16 } := by decide
/-- The entry takes its place among the others. -/
theorem test_wrnode : (after (.wrnode 1#11 (.leaf 9 3)) tree).mem.node =
    [(0, .leaf 3 0), (1, .leaf 9 3), (2, .leaf 1 2), (3, .internal 2 1 2), (4, .internal 5 3 0)] := by decide

/-- V4 with V set in bit 51, and an invalid entry reads 0 (V3). -/
theorem test_rdnode :
    (after (.rdnode 8#11) { State.reset with mem := { freq := [], node := [(8, .internal 11 0 7)], ct := [] } }).rspq =
      [0xC0000002C0007] := by decide
theorem test_rdnode_invalid : (after (.rdnode 5#11) tree).rspq = [0] := by decide

/-- V6: writing the empty entry removes the symbol. -/
theorem test_wrct_empty : (after (.wrct 1#11 []) coded).mem.ct = [(0, [true]), (2, [false, true])] := by decide
theorem test_wrct_bad : (after (.wrct 4#11 [true]) R).finfo = 4#16 := by decide

/-- V30: 'd' is "101", the entry 3 * 2^255 + 5. -/
theorem test_rdct :
    (after (.rdct 0x64#11) { State.reset with mem := { freq := [], node := [], ct := [(0x64, [true, false, true])] } }).rspq =
      [3 * 2 ^ 255 + 5] := by decide

theorem test_wrfreq : (after (.wrfreq 1#11 0) counted).mem.freq = [(0, 3), (2, 1)] := by decide
theorem test_wrfreq_insert : (after (.wrfreq 3#11 9) counted).mem.freq = [(0, 3), (1, 1), (2, 1), (3, 9)] := by decide

/-- V12: reads are performed when faulted. -/
theorem test_rdfreq : (after (.rdfreq 0#11) { counted with fault := some .weightOverflow }).rspq = [3] := by decide

/-- V67: 512 is BadIndex, 511 is NIL. -/
theorem test_setroot : (after (.setroot 512#11) State.reset).finfo = 0x200#16 := by decide
theorem test_setroot_nil : (after (.setroot 7#11) tree).root = 7 := by decide

theorem test_clrfreq : (after .clrfreq coded).mem.freq = [] := by decide

/-- V10's first COUNT, and V12: a count at its maximum stays and is WeightOverflow with the symbol. -/
theorem test_count : (after (.count 0x61#11) State.reset).mem.freq = [(0x61, 1)] := by decide
theorem test_count_overflow :
    after (.count 1#11) { R with mem := { freq := [(1, 15)], node := [], ct := [] } } =
      { R with mem := { freq := [(1, 15)], node := [], ct := [] }, fault := some .weightOverflow, finfo := 1#16 } := by
  decide

/-- The tree of {3, 1, 1}, merged by hand: (1,1),(1,2) first, then (2,3) before (3,0). -/
theorem test_build : after .build counted = tree := by decide
/-- V23: the leaf of weight 3 is taken before the merged node of weight 3 and becomes LEFT. -/
theorem test_build_tie :
    (after .build { R with mem := { freq := [(0, 3), (1, 2), (2, 1)], node := [], ct := [] } }).mem.node =
      [(0, .leaf 3 0), (1, .leaf 2 1), (2, .leaf 1 2), (3, .internal 3 2 1), (4, .internal 6 0 3)] := by decide

theorem test_derive : after .derive tree = coded := by decide
/-- V34d in the small instance: a node that is its own left child is CodeTooLong, and CT is empty. -/
theorem test_derive_cycle :
    after .derive { coded with mem := { coded.mem with node := [(0, .internal 0 0 7)] }, root := 0 } =
      { coded with mem := { coded.mem with node := [(0, .internal 0 0 7)], ct := [] }, root := 0,
                   fault := some .codeTooLong, finfo := 0#16 } := by decide

theorem test_esym : (after (.esym 2#11) coded).bitq = [false, true] := by decide
theorem test_esym_unknown : after (.esym 3#11) coded = { coded with fault := some .unknownSymbol, finfo := 3#16 } := by
  decide

theorem test_dstart : after .dstart coded = session := by decide
/-- V44a in the small instance. -/
theorem test_dstart_leaf :
    after .dstart { tree with root := 1 } = { tree with root := 1, fault := some .rootIsLeaf, finfo := 1#16 } := by decide

/-- V40's second DBIT in the small instance: the leaf's symbol is emitted, then the bit moves from the root. -/
theorem test_dbit : after (.dbit false) onLeaf = { onLeaf with symq := [0], cur := 3, pos := 2 } := by decide
/-- V45a in the small instance: the leaf step stays when the bit step is AbsentChild. -/
theorem test_dbit_absent :
    after (.dbit true) { single with cur := 0, pos := 1, dact := true } =
      { single with symq := [2], cur := 1, pos := 1, dact := true, fault := some .absentChild, finfo := 1#16 } := by decide

theorem test_dend : after .dend onLeaf = { onLeaf with symq := [0], dact := false } := by decide
/-- V46: the empty bitstring. -/
theorem test_dend_truncated :
    after .dend session = { session with fault := some .truncatedInput, finfo := 4#16 } := by decide

/-! ## Witnesses: states and operands that meet the hypotheses of each statement, clause by clause, at the boundary -/

theorem witness_NopLeavesEverythingAsItWas : R.fault = none ∧ ((2047#11 : Index) ≠ 0#11 ∨ 1 ≠ 0) := by decide

theorem witness_ResetWritesEveryResetValue :
    faulted.fault ≠ none ∧ ((1#11 : Index) ≠ 0#11 ∨ 0 ≠ 0) ∧ exec .reset faulted = .next R ∧ R.fault = none :=
  ⟨by decide, by decide, rfl, rfl⟩

theorem witness_RdregRespondsWithTheNumberedRegister :
    [(if faulted.fault = none then 0 else 2) + (if faulted.dact then 1 else 0), faultNumber faulted.fault,
      faulted.finfo.toNat, faulted.root, faulted.nnode, faulted.cur, faulted.pos][(6#11 : Index).toNat]? = some 0 ∧
    [(if faulted.fault = none then 0 else 2) + (if faulted.dact then 1 else 0), faultNumber faulted.fault,
      faulted.finfo.toNat, faulted.root, faulted.nnode, faulted.cur, faulted.pos][(0#11 : Index).toNat]? = some 2 ∧
    R.fault = none ∧ 7 ≤ (7#11 : Index).toNat := by decide

theorem witness_WrnodeMakesOneEntryValid :
    (15 < 2 ^ tiny.ww ∧ 3 < 2 ^ tiny.sw ∧ 7 < 2 ^ tiny.na) ∧
    (R.fault = none ∧ 2 ^ 11 / 2 ^ R.inst.nodew ≠ 0) ∧
    (4 / 2 ^ (R.inst.nodew - 1) % 2 = 0 ∧ 4 % 2 ^ (2 * R.inst.na) / 2 ^ R.inst.sw ≠ 0) ∧
    R.inst.nnodes ≤ (7#11 : Index).toNat ∧
    (session.fault = none ∧ (6#11 : Index).toNat < session.inst.nnodes ∧ session.dact = true) ∧
    (tree.fault = none ∧ (6#11 : Index).toNat < tree.inst.nnodes ∧ tree.dact = false) := by decide

theorem witness_RdnodeRespondsWithTheEntry :
    (R.fault = none ∧ R.inst.nnodes ≤ (7#11 : Index).toNat) ∧
    ((6#11 : Index).toNat < tree.inst.nnodes ∧ tree.mem.readNode 6 = none) ∧
    tree.mem.readNode 0 = some (.leaf 3 0) ∧ tree.mem.readNode 4 = some (.internal 5 3 0) := by decide

/-- In the small instance CTW = 5 and CLMAX = 3: 2 * 8 + 2 is LEN 2, CODE "01"; 8 + 2 has a bit at position 1 of LEN 1. LEN
above CLMAX needs an instance with CLMAX below 2^LW - 1: CLMAX = 2 there, LEN = 3. -/
theorem witness_WrctWritesOneCodeword :
    (tiny.legal = true ∧ 18 < 2 ^ tiny.ctw ∧ 18 / 2 ^ tiny.clmax ≤ tiny.clmax) ∧
    (18 / 2 ^ tiny.clmax = 2 ∧ (18 : Nat).testBit 2 = false) ∧
    (R.inst.legal = true ∧ R.fault = none ∧ 2 ^ R.inst.ctw ≤ 32) ∧
    (10 / 2 ^ R.inst.clmax ≤ 1 ∧ 1 < R.inst.clmax ∧ (10 : Nat).testBit 1 = true) ∧
    (Params.legal { tiny with clmax := 2 } = true ∧ 2 < 12 / 2 ^ 2) ∧
    R.inst.nsym ≤ (4#11 : Index).toNat ∧ (3#11 : Index).toNat < R.inst.nsym := by decide

theorem witness_RdctRespondsWithTheEntry :
    (R.fault = none ∧ R.inst.nsym ≤ (4#11 : Index).toNat) ∧
    (coded.mem.wf coded.inst = true ∧ (3#11 : Index).toNat < coded.inst.nsym) := by decide

theorem witness_WrfreqWritesOneCount :
    15 < 2 ^ tiny.ww ∧ (R.fault = none ∧ 2 ^ R.inst.ww ≤ 16) ∧ R.inst.nsym ≤ (4#11 : Index).toNat ∧
    (3#11 : Index).toNat < R.inst.nsym := by decide

theorem witness_RdfreqRespondsWithTheCount :
    (R.fault = none ∧ R.inst.nsym ≤ (4#11 : Index).toNat) ∧ (3#11 : Index).toNat < R.inst.nsym := by decide

/-- A non-NIL index of NNODES or more is 8 in the small instance; NIL is 7. -/
theorem witness_SetrootWritesRoot :
    (R.fault = none ∧ R.inst.nnodes ≤ (8#11 : Index).toNat ∧ (8#11 : Index).toNat ≠ R.inst.nil) ∧
    (session.fault = none ∧ (7#11 : Index).toNat = session.inst.nil ∧ session.dact = true) ∧
    (R.fault = none ∧ (6#11 : Index).toNat < R.inst.nnodes ∧ R.dact = false) := by decide

theorem witness_ClrfreqEmptiesTheCounts : counted.fault = none := by decide

theorem witness_ReadsReturnTheDataWritten :
    R.inst.legal = true ∧ R.fault = none ∧
    (takeCommand { head := headValue 0x2000 6#11, data := 2 ^ 11 - 1 } R =
        .next { R with mem := { freq := [], node := [(6, .internal 15 7 7)], ct := [] } }) ∧
    (takeCommand { head := headValue 0x3000 3#11, data := 18 } R =
        .next { R with mem := { freq := [], node := [], ct := [(3, [false, true])] } }) ∧
    (takeCommand { head := headValue 0x4000 3#11, data := 15 } R =
        .next { R with mem := { freq := [(3, 15)], node := [], ct := [] } }) :=
  ⟨by decide, by decide, rfl, rfl, rfl⟩

theorem witness_CountAddsOneToOneCount :
    (R.fault = none ∧ R.inst.nsym ≤ (4#11 : Index).toNat) ∧
    (State.mem { R with mem := { freq := [(3, 15)], node := [], ct := [] } }).readFreq 3 = 2 ^ tiny.ww - 1 ∧
    ((3#11 : Index).toNat < R.inst.nsym ∧
      (State.mem { R with mem := { freq := [(3, 14)], node := [], ct := [] } }).readFreq 3 ≠ 2 ^ tiny.ww - 1) := by decide

theorem witness_CountsTallyASequenceOfSymbols :
    R.inst.legal = true ∧ R.fault = none ∧ (∀ x ∈ [3, 0, 3], x < R.inst.nsym) ∧
    ∀ y, R.mem.readFreq y + [3, 0, 3].count y < 2 ^ R.inst.ww := by
  refine ⟨by decide, by decide, by decide, fun y => ?_⟩
  have h1 : R.mem.readFreq y = 0 := rfl
  have h2 : [3, 0, 3].count y ≤ 3 := List.count_le_length
  have h3 : 2 ^ R.inst.ww = 16 := rfl
  omega

/-- Totals 15 and 16 at the boundary of WW = 4. -/
theorem witness_BuildChecksBeforeItWrites :
    (session.fault = none ∧ session.dact = true) ∧
    (R.fault = none ∧ R.dact = false ∧ ∀ y, y < R.inst.nsym → R.mem.readFreq y = 0) ∧
    ((2 ^ R.inst.ww ≤ ((List.range R.inst.nsym).map
        (State.mem { R with mem := { freq := [(1, 15), (2, 1)], node := [], ct := [] } }).readFreq).sum) ∧
      (State.mem { R with mem := { freq := [(1, 15), (2, 1)], node := [], ct := [] } }).readFreq 2 ≠ 0) := by
  refine ⟨by decide, ⟨by decide, by decide, fun _ _ => rfl⟩, by decide⟩

theorem witness_BuildPlacesLeavesAndRoot :
    counted.fault = none ∧ counted.dact = false ∧ [0, 1, 2] ≠ [] ∧ [0, 1, 2].Pairwise (· < ·) ∧
    (∀ y, y ∈ [0, 1, 2] ↔ y < counted.inst.nsym ∧ counted.mem.readFreq y ≠ 0) ∧
    ([0, 1, 2].map counted.mem.readFreq).sum < 2 ^ counted.inst.ww := by
  refine ⟨by decide, by decide, by decide, by decide, fun y => ?_, by decide⟩
  by_cases h : y < 4
  · have : y = 0 ∨ y = 1 ∨ y = 2 ∨ y = 3 := by omega
    rcases this with rfl | rfl | rfl | rfl <;> decide
  · have h4 : counted.inst.nsym = 4 := rfl
    simp only [List.mem_cons, List.not_mem_nil, or_false, h4]
    omega

/-- The case of one symbol. -/
theorem witness_BuildPlacesLeavesAndRoot_single : after .build { single with mem := { single.mem with node := [] } } = single := by
  decide

theorem witness_BuildMergesTheTwoLeastKeys :
    counted.fault = none ∧ exec .build counted = .next tree ∧ tree.fault = none ∧
    3 = ((List.range counted.inst.nsym).filter (fun y => counted.mem.readFreq y ≠ 0)).length ∧ 2 ≤ 3 :=
  ⟨rfl, rfl, rfl, rfl, by decide⟩

theorem witness_RootWeightIsTheTotalCount :
    (counted.fault = none ∧ exec .build counted = .next tree ∧ tree.fault = none) ∧
    (R.inst.legal = true ∧ R.dact = false ∧ (List.replicate 15 3) ≠ [] ∧ (∀ x ∈ List.replicate 15 3, x < R.inst.nsym) ∧
      (List.replicate 15 3).length < 2 ^ R.inst.ww) :=
  ⟨⟨rfl, rfl, rfl⟩, by decide⟩

theorem witness_GreaterCountNeverLiesDeeper :
    exec .build counted = .next tree ∧ counted.mem.readFreq 1 < counted.mem.readFreq 0 ∧
    leafAt tree [true] 0 ∧ leafAt tree [false, false] 1 :=
  ⟨rfl, by decide, ⟨0, 3, rfl, rfl⟩, ⟨1, 1, rfl, rfl⟩⟩

theorem witness_BuildDependsOnTheCountsOnly :
    counted.inst = tree.inst ∧ (∀ y, y < counted.inst.nsym → counted.mem.readFreq y = tree.mem.readFreq y) ∧
    counted.dact = false ∧ tree.dact = false ∧ exec .build counted = .next tree ∧ exec .build tree = .next tree ∧
    tree.fault = none :=
  ⟨rfl, fun _ _ => rfl, rfl, rfl, rfl, rfl, rfl⟩

/-- The paths of `tree`: the root, two children, and the two leaves below the left one. -/
theorem follow_tree {path : Codeword} {i : Nat} (h : follow tree.inst tree.mem tree.root path = some i) :
    (path, i) ∈ [([], 4), ([false], 3), ([true], 0), ([false, false], 1), ([false, true], 2)] := by
  match path with
  | [] => cases h; decide
  | [b] => cases b <;> cases h <;> decide
  | [b, c] => cases b <;> cases c <;> cases h <;> decide
  | b :: c :: d :: rest => cases b <;> cases c <;> cases d <;> cases h

theorem leafAt_tree {path : Codeword} {y : Nat} (h : leafAt tree path y) :
    (path, y) ∈ [([true], 0), ([false, false], 1), ([false, true], 2)] := by
  obtain ⟨i, w, hf, hn⟩ := h
  have := follow_tree hf
  simp only [List.mem_cons, Prod.mk.injEq, List.not_mem_nil, or_false] at this
  rcases this with ⟨rfl, rfl⟩ | ⟨rfl, rfl⟩ | ⟨rfl, rfl⟩ | ⟨rfl, rfl⟩ | ⟨rfl, rfl⟩ <;> cases hn <;> decide

theorem witness_DeriveRecordsEachLeafsPath : tree.fault = none ∧ derivable tree := by
  refine ⟨rfl, by decide, fun path f info ⟨i, hf, h⟩ => ?_⟩
  have hm := follow_tree hf
  simp only [List.mem_cons, Prod.mk.injEq, List.not_mem_nil, or_false] at hm
  rcases h with ⟨hn, -⟩ | ⟨-, hl, -⟩ | ⟨-, w, y, hn, hd⟩
  · rcases hm with ⟨rfl, rfl⟩ | ⟨rfl, rfl⟩ | ⟨rfl, rfl⟩ | ⟨rfl, rfl⟩ | ⟨rfl, rfl⟩ <;> cases hn
  · rcases hm with ⟨rfl, rfl⟩ | ⟨rfl, rfl⟩ | ⟨rfl, rfl⟩ | ⟨rfl, rfl⟩ | ⟨rfl, rfl⟩ <;> exact absurd hl (by decide)
  · rcases hd with ⟨rfl, -⟩ | ⟨-, ⟨q, hq, hl⟩, -⟩
    · cases hf; cases hn
    · have hy := leafAt_tree ⟨i, w, hf, hn⟩
      have hy' := leafAt_tree hl
      simp only [List.mem_cons, Prod.mk.injEq, List.not_mem_nil, or_false] at hy hy'
      rcases hy with ⟨rfl, rfl⟩ | ⟨rfl, rfl⟩ | ⟨rfl, rfl⟩ <;>
        rcases hy' with ⟨rfl, h⟩ | ⟨rfl, h⟩ | ⟨rfl, h⟩ <;> first | exact absurd hq (by decide) | cases h

/-- No root; and a root that is a Leaf, whose fault is the first. -/
theorem witness_DeriveReportsTheFirstFaultAndEmptiesTheTable :
    (R.fault = none ∧ ¬ derivable R) ∧
    (State.fault { tree with root := 0 } = none ∧ ¬ derivable { tree with root := 0 }) :=
  ⟨⟨rfl, fun h => h.1 rfl⟩, rfl, fun h => h.2 [] .rootIsLeaf 0
    ⟨0, rfl, .inr (.inr ⟨by decide, 3, 0, rfl, .inl ⟨rfl, rfl, rfl⟩⟩)⟩⟩

theorem witness_DerivedTableIsPrefixFree :
    tree.fault = none ∧ exec .derive tree = .next coded ∧ coded.fault = none ∧ coded.mem.readCt 0 ≠ [] ∧
    coded.mem.readCt 1 ≠ [] :=
  ⟨rfl, rfl, rfl, by decide, by decide⟩

theorem witness_DeriveAfterBuildCoversExactlyTheCountedSymbols :
    counted.inst.legal = true ∧ counted.inst.clmax = 2 ^ counted.inst.sw - 1 ∧ counted.fault = none ∧
    exec .build counted = .next tree ∧ tree.fault = none :=
  ⟨rfl, rfl, rfl, rfl, rfl⟩

theorem witness_EsymEmitsTheCodeword :
    (coded.fault = none ∧ coded.inst.nsym ≤ (4#11 : Index).toNat) ∧
    ((3#11 : Index).toNat < coded.inst.nsym ∧ coded.mem.readCt 3 = []) ∧
    ((2#11 : Index).toNat < coded.inst.nsym ∧ coded.mem.readCt 2 ≠ []) := by decide

theorem witness_EsymsConcatenateTheCodewords :
    coded.inst.legal = true ∧ coded.fault = none ∧
    ∀ x ∈ [2, 0, 1], x < coded.inst.nsym ∧ coded.mem.readCt x ≠ [] := by decide

theorem witness_DstartOpensASessionAtTheRoot :
    (session.fault = none ∧ session.dact = true) ∧
    (R.fault = none ∧ R.dact = false ∧ R.root = R.inst.nil) ∧
    (State.root { tree with root := 6 } ≠ tree.inst.nil ∧ tree.mem.readNode 6 = none) ∧
    tree.mem.readNode 1 = some (.leaf 1 1) ∧
    (tree.fault = none ∧ tree.dact = false ∧ tree.root ≠ tree.inst.nil ∧
      tree.mem.readNode tree.root = some (.internal 5 3 0)) := by decide

/-- A cursor on an Internal node, a cursor on a Leaf, an absent child, and an invalid child. -/
theorem witness_DbitTakesTheLeafStepThenTheBitStep :
    (R.fault = none ∧ R.dact = false ∧ 2 ≤ (2#11 : Index).toNat) ∧
    (session.fault = none ∧ session.dact = true ∧ afterLeafStep session session ∧
      session.mem.readNode session.cur = some (.internal 5 3 0) ∧ session.mem.readNode 3 ≠ none) ∧
    (afterLeafStep onLeaf { onLeaf with symq := [0], cur := 4 }) ∧
    (single.mem.readNode single.root = some (.internal 4 0 single.inst.nil)) ∧
    ((State.mem { single with mem := { single.mem with node := [(1, .internal 4 0 7)] } }).readNode 0 = none) :=
  ⟨by decide, ⟨rfl, rfl, .inr ⟨5, 3, 0, rfl, rfl⟩, rfl, by decide⟩, .inl ⟨3, 0, rfl, rfl⟩, rfl, rfl⟩

theorem witness_DendEmitsTheLastSymbolOrIsTruncated :
    (R.fault = none ∧ R.dact = false) ∧
    (session.fault = none ∧ session.dact = true ∧ session.mem.readNode session.cur = some (.internal 5 3 0)) ∧
    (onLeaf.fault = none ∧ onLeaf.dact = true ∧ onLeaf.mem.readNode onLeaf.cur = some (.leaf 3 0)) := by decide

/-- Eight bits, the wrap of PW = 3. -/
theorem witness_PosCountsTheBitsModuloItsWidth :
    coded.fault = none ∧ coded.dact = false ∧
    perform (.dstart :: dbits (List.replicate 8 true)) coded =
      .next { session with cur := 0, pos := 0, symq := List.replicate 7 0 } :=
  ⟨rfl, rfl, rfl⟩

theorem witness_EmptyBitstringIsTruncated :
    tree.fault = none ∧ tree.dact = false ∧ tree.root ≠ tree.inst.nil ∧
    tree.mem.readNode tree.root = some (.internal 5 3 0) := by decide

theorem witness_SingleSymbolTreeDecodesZeros :
    single.fault = none ∧ single.dact = false ∧ single.inst.legal = true ∧ single.root = 1 ∧
    single.mem.readNode 1 = some (.internal 4 0 single.inst.nil) ∧ single.mem.readNode 0 = some (.leaf 4 2) := by decide

/-- The three ways the document's loop ends. -/
theorem witness_SessionRefinesTheDocumentsLoop :
    (tree.fault = none ∧ tree.dact = false ∧ tree.root ≠ tree.inst.nil ∧
      tree.mem.readNode tree.root = some (.internal 5 3 0)) ∧
    documentDecode tree.inst tree.mem tree.root [true, false, true] = .decoded [0, 2] ∧
    documentDecode tree.inst tree.mem tree.root [true, false] = .truncated [0] ∧
    documentDecode single.inst single.mem single.root [false, true] = .stuck [2] := by decide

/-- The same tree with other weights and tables. -/
theorem witness_WalkerReadsNeitherWeightsNorTables :
    ∀ i, sameShape (onLeaf.mem.readNode i)
      (Memory.readNode { freq := [], ct := []
                         node := [(0, .leaf 9 0), (1, .leaf 8 1), (2, .leaf 7 2), (3, .internal 6 1 2),
                           (4, .internal 5 3 0)] } i) := by
  intro i
  match i with
  | 0 => exact rfl
  | 1 => exact rfl
  | 2 => exact rfl
  | 3 => exact ⟨rfl, rfl⟩
  | 4 => exact ⟨rfl, rfl⟩
  | i + 5 => exact trivial

theorem witness_DerivedTableRoundTrips :
    tree.inst.legal = true ∧ tree.fault = none ∧ tree.dact = false ∧ exec .derive tree = .next coded ∧
    coded.fault = none ∧ [1, 0, 2, 2] ≠ [] ∧ (∀ x ∈ [1, 0, 2, 2], coded.mem.readCt x ≠ []) :=
  ⟨rfl, rfl, rfl, rfl, rfl, by decide, by decide⟩

theorem witness_EncodeThenDecodeGivesTheInput :
    R.inst.legal = true ∧ R.inst.clmax = 2 ^ R.inst.sw - 1 ∧ [3, 0, 3] ≠ [] ∧ (∀ x ∈ [3, 0, 3], x < R.inst.nsym) ∧
    [3, 0, 3].length < 2 ^ R.inst.ww := by decide

theorem witness_TruncationInsideACodewordIsDetected :
    tree.inst.legal = true ∧ tree.fault = none ∧ tree.dact = false ∧ exec .derive tree = .next coded ∧
    coded.fault = none ∧ (∀ x ∈ [0, 1], coded.mem.readCt x ≠ []) ∧ coded.mem.readCt 2 ≠ [] ∧
    [false] ≠ [] ∧ [false] ≠ coded.mem.readCt 2 ∧ [false] <+: coded.mem.readCt 2 ∧ [0, 1] ≠ [] :=
  ⟨rfl, rfl, rfl, rfl, rfl, by decide, by decide, by decide, by decide, ⟨[true], rfl⟩, by decide⟩

/-- A faulted state; a refused command, a dropped one, a read with a bad index, a read that is performed. -/
theorem witness_FaultedStateDropsAllButResetAndReads :
    faulted.fault ≠ none ∧ decode faulted.inst { head := 0x1800#16, data := 0 } = .error .reservedOpcode ∧
    isRead (.count 0#11) = false ∧ indexInSpace faulted.inst (.rdreg 7#11) = false ∧
    indexInSpace faulted.inst (.rdreg 6#11) = true :=
  ⟨by decide, rfl, rfl, rfl, rfl⟩

theorem witness_OnlyResetClearsAFault :
    faulted.fault ≠ none ∧ step { faulted with cmdq := [.command { head := 0x0800#16, data := 0 }] } = .next R ∧
    step { faulted with cmdq := [.command { head := 0x6000#16, data := 0 }] } = .next faulted ∧
    step { faulted with cmdq := [.rst] } = .next R :=
  ⟨by decide, rfl, rfl, rfl⟩

/-- One command that fails each check and none before it. -/
theorem witness_TheFirstFailedCheckIsReported :
    session.fault = none ∧ decode session.inst { head := 0x1800#16, data := 0 } = .error .reservedOpcode ∧
    (decode session.inst { head := 0x2007#16, data := 0 } = .ok (.wrnode 7#11 (.leaf 0 0)) ∧
      indexInSpace session.inst (.wrnode 7#11 (.leaf 0 0)) = false) ∧
    (decode session.inst { head := 0x2006#16, data := 0 } = .ok (.wrnode 6#11 (.leaf 0 0)) ∧
      indexInSpace session.inst (.wrnode 6#11 (.leaf 0 0)) = true ∧
      sessionAllows session.dact (.wrnode 6#11 (.leaf 0 0)) = false) :=
  ⟨rfl, rfl, ⟨rfl, rfl⟩, rfl, rfl, rfl⟩

theorem witness_EachCommandRaisesOnlyItsFaults :
    session.inv = true ∧ session.fault = none ∧
    takeCommand { head := 0xB000#16, data := 0 } session =
      .next { session with fault := some .truncatedInput, finfo := 4#16 } :=
  ⟨by decide, rfl, rfl⟩

theorem witness_FaultsArePrecise :
    R.fault = none ∧ exec .derive R = .next { R with fault := some .noTree, finfo := 0#16 } ∧
    exec (.dbit true) { single with cur := 0, pos := 1, dact := true } =
      .next { single with symq := [2], cur := 1, pos := 1, dact := true, fault := some .absentChild, finfo := 1#16 } ∧
    exec .build R = .next { R with fault := some .invalidInput } :=
  ⟨rfl, rfl, rfl, rfl⟩

theorem witness_OperatingStatesMoveAsListed :
    (exec .dstart coded = .next session ∧ operatingState coded = .idle ∧ operatingState session = .session) ∧
    (exec .reset session = .next R ∧ operatingState R = .idle) ∧
    (exec .reset faulted = .next R ∧ operatingState faulted = .faulted) :=
  ⟨⟨rfl, rfl, rfl⟩, ⟨rfl, rfl⟩, rfl, rfl⟩

theorem witness_FaultLineFollowsTheFaultRegister :
    step { faulted with cmdq := [.rst] } = .next R ∧ faultO faulted = true ∧ faultO R = false :=
  ⟨rfl, rfl, rfl⟩

theorem witness_StreamsOnlyGrow : step { onLeaf with cmdq := [.command { head := 0xB000#16, data := 0 }] } =
    .next { onLeaf with symq := [0], dact := false } := rfl

theorem witness_TreeIsReadOnlyInASession :
    session.dact = true ∧ exec .derive session = .next session ∧ (Instr.derive ≠ .reset) :=
  ⟨rfl, rfl, by decide⟩

theorem witness_EveryStepKeepsTheInvariant :
    State.inv { onLeaf with cmdq := [.command { head := 0xB000#16, data := 0 }] } = true ∧
    step { onLeaf with cmdq := [.command { head := 0xB000#16, data := 0 }] } =
      .next { onLeaf with symq := [0], dact := false } :=
  ⟨by decide, rfl⟩

theorem witness_ResetMeetsTheInvariant : tiny.legal = true := by decide

theorem witness_BuiltEntriesStayValid :
    (∀ i, i < tree.nnode → tree.mem.readNode i ≠ none) ∧ step tree = .next tree := by
  refine ⟨fun i h => ?_, rfl⟩
  have h5 : tree.nnode = 5 := rfl
  have : i = 0 ∨ i = 1 ∨ i = 2 ∨ i = 3 ∨ i = 4 := by omega
  rcases this with rfl | rfl | rfl | rfl | rfl <;> decide

theorem witness_ParametersAreConstant : step { tree with cmdq := [.rst] } = .next R := rfl

theorem witness_RstInputGivesTheResetState : State.cmdq { faulted with cmdq := [.rst] } = .rst :: [] := rfl

theorem witness_StepPerformsTheDecodedCommand :
    decode tree.inst { head := 0x7000#16, data := 0 } = .ok .derive ∧
    decode tree.inst { head := 0x7001#16, data := 0 } = .error .indexNotZero ∧ tree.cmdq = [] :=
  ⟨rfl, rfl, rfl⟩

theorem witness_DecodeOfEncodeIsTheCommand :
    tiny.legal = true ∧ (Instr.wrnode 2047#11 (.internal 15 7 7)).wf tiny = true := by decide

theorem witness_EncodeOfDecodeIsTheWord :
    tiny.legal = true ∧ decode tiny { head := 0x2000#16, data := 2 ^ 11 - 1 } = .ok (.wrnode 0#11 (.internal 15 7 7)) :=
  ⟨rfl, rfl⟩

theorem witness_ReservedOpcodesAreIllegal :
    R.fault = none ∧ (0x1805#16 : Head).toNat / 2048 = 0x03 ∧ (0xFFFF#16 : Head).toNat / 2048 = 0x1F := by decide

end Sys2Proof.Machine.Tests
end

section
/-! What one command, and one step, can do: the inversion of `exec` and of `step`, said once with every guard. -/

namespace Sys2Proof.Machine

/-- The response of a read command whose operand lies in its space; none for every other command (R103, R106, R108,
R110). -/
def readResponse (s : State) : Instr → Option Nat
  | .rdreg reg => (registerOf reg).map (registerValue s)
  | .rdnode k => if isNode s.inst k then some (nodeResponse s.inst (s.mem.readNode k.toNat)) else none
  | .rdct x => if isSymbol s.inst x then some (entryNum s.inst (s.mem.readCt x.toNat)) else none
  | .rdfreq x => if isSymbol s.inst x then some (s.mem.readFreq x.toNat) else none
  | _ => none

/-- Everything a command can do to a state, one constructor per outcome, with the guards under which it happens. -/
inductive Effect (s : State) : Instr → State → Prop
  | nop : Effect s .nop s
  | dropped (i : Instr) (hf : s.fault ≠ none) : Effect s i s
  | raised (i : Instr) (f : FaultCode) (info : Nat) (hf : s.fault = none) : Effect s i (raised f info s)
  | reset : Effect s .reset (toReset s)
  | responded (i : Instr) (v : Nat) (hv : readResponse s i = some v) : Effect s i (respond v s)
  | nodeWritten (k : Index) (word : NodeWord) (hf : s.fault = none) (hk : isNode s.inst k = true)
      (hd : s.dact = false) : Effect s (.wrnode k word) { s with mem := s.mem.writeNode k.toNat word }
  | ctWritten (x : Index) (entry : Codeword) (hf : s.fault = none) (hx : isSymbol s.inst x = true) :
      Effect s (.wrct x entry) { s with mem := s.mem.writeCt x.toNat entry }
  | freqWritten (x : Index) (w : Nat) (hf : s.fault = none) (hx : isSymbol s.inst x = true) :
      Effect s (.wrfreq x w) { s with mem := s.mem.writeFreq x.toNat w }
  | rootSet (k : Index) (hf : s.fault = none) (hk : isNodeOrNil s.inst k = true) (hd : s.dact = false) :
      Effect s (.setroot k) { s with root := k.toNat }
  | freqCleared (hf : s.fault = none) : Effect s .clrfreq { s with mem := s.mem.clearFreq }
  | counted (x : Index) (hf : s.fault = none) (hx : isSymbol s.inst x = true)
      (hw : s.mem.readFreq x.toNat ≠ 2 ^ s.inst.ww - 1) :
      Effect s (.count x) { s with mem := s.mem.writeFreq x.toNat (s.mem.readFreq x.toNat + 1) }
  | built (hf : s.fault = none) (hd : s.dact = false) (hy : presentSymbols s.inst s.mem ≠ [])
      (hw : totalWeight s.inst s.mem < 2 ^ s.inst.ww) :
      Effect s .build { s with
        mem := buildTree s.inst s.mem
        root := builtCount (presentSymbols s.inst s.mem).length - 1
        nnode := builtCount (presentSymbols s.inst s.mem).length }
  | derived (m : Memory) (hf : s.fault = none) (hr : s.root ≠ s.inst.nil)
      (hm : visit s.inst (s.inst.clmax + 1) s.root [] s.mem.clearCt = .ok m) :
      Effect s .derive { s with mem := m }
  | deriveRaised (f : FaultCode) (info : Nat) (hf : s.fault = none) :
      Effect s .derive (Machine.raised f info { s with mem := s.mem.clearCt })
  | bitsEmitted (x : Index) (hf : s.fault = none) (hx : isSymbol s.inst x = true)
      (hc : s.mem.readCt x.toNat ≠ []) : Effect s (.esym x) (emitBits (s.mem.readCt x.toNat) s)
  | sessionOpened (w l r : Nat) (hf : s.fault = none) (hd : s.dact = false) (hr : s.root ≠ s.inst.nil)
      (hn : s.mem.readNode s.root = some (.internal w l r)) :
      Effect s .dstart { s with cur := s.root, pos := 0, dact := true }
  | bitTaken (b : Bool) (w l r : Nat) (hf : s.fault = none) (hd : s.dact = true)
      (hn : s.mem.readNode (leafStep s).cur = some (.internal w l r)) (hnil : (if b then r else l) ≠ s.inst.nil)
      (hc : s.mem.readNode (if b then r else l) ≠ none) :
      Effect s (.dbit b)
        { leafStep s with cur := if b then r else l, pos := (s.pos + 1) % 2 ^ s.inst.pw }
  | bitRaised (b : Bool) (f : FaultCode) (info : Nat) (hf : s.fault = none) (hd : s.dact = true) :
      Effect s (.dbit b) (Machine.raised f info (leafStep s))
  | sessionClosed (w y : Nat) (hf : s.fault = none) (hd : s.dact = true)
      (hn : s.mem.readNode s.cur = some (.leaf w y)) : Effect s .dend { emitSym y s with dact := false }

/-! ## The freeze, the checks and a raised fault -/

/-- A `raise` records its fault, or finds one recorded and drops the command (R203, R207). -/
theorem effect_raise (i : Instr) (f : FaultCode) (info : Nat) (s : State) : Effect s i (raise f info s) := by
  by_cases hf : s.fault = none
  · rw [raise_live hf]; exact .raised i f info hf
  · rw [raise_faulted hf]; exact .dropped i hf

theorem effect_unlessFaulted {s t : State} {i : Instr} {k : Result} (h : unlessFaulted s k = .next t)
    (hk : s.fault = none → k = .next t → Effect s i t) : Effect s i t := by
  rcases unlessFaulted_cases h with ⟨hf, h⟩ | ⟨hf, rfl⟩
  · exact hk hf h
  · exact .dropped i hf

theorem effect_require {c : Prop} [Decidable c] {f : FaultCode} {info : Nat} {s t : State} {i : Instr} {k : Result}
    (h : require c f info s k = .next t) (hk : c → k = .next t → Effect s i t) : Effect s i t := by
  rcases require_cases h with ⟨hc, h⟩ | ⟨-, rfl⟩
  · exact hk hc h
  · exact effect_raise i f info s

/-! ## The commands that do more than check and write -/

theorem execRdreg_effect {reg : Index} {s t : State} (h : execRdreg reg s = .next t) : Effect s (.rdreg reg) t := by
  unfold execRdreg at h
  split at h
  · rename_i r hr
    cases h; exact .responded _ _ (by simp [readResponse, hr])
  · cases h; exact effect_raise _ _ _ _

theorem execDerive_effect {s t : State} (h : execDerive s = .next t) : Effect s .derive t := by
  refine effect_unlessFaulted h fun hf h => ?_
  have hraise := raise_live (s := { s with mem := s.mem.clearCt }) hf
  rcases require_cases h with ⟨hr, h⟩ | ⟨-, rfl⟩
  · split at h
    · rename_i m hm
      cases h; exact .derived m hf hr hm
    · cases h; rw [hraise]; exact .deriveRaised _ _ hf
  · rw [hraise]; exact .deriveRaised _ _ hf

theorem execDstart_effect {s t : State} (h : execDstart s = .next t) : Effect s .dstart t := by
  refine effect_unlessFaulted h fun hf h => effect_require h fun hd h => effect_require h fun hr h => ?_
  split at h
  · cases h; exact effect_raise _ _ _ _
  · cases h; exact effect_raise _ _ _ _
  · rename_i w l r hn
    cases h; exact .sessionOpened w l r hf hd hr hn

theorem execDbit_effect {b : Bool} {s t : State} (h : execDbit b s = .next t) : Effect s (.dbit b) t := by
  refine effect_unlessFaulted h fun hf h => effect_require h fun hd h => ?_
  rcases bitStep_cases h with ⟨w, l, r, hn, hnil, hc, rfl⟩ | ⟨f, info, rfl⟩
  · simpa using Effect.bitTaken b w l r hf hd (by simpa using hn) (by simpa using hnil) (by simpa using hc)
  · rw [raise_live (by simpa using hf)]; exact .bitRaised b f info hf hd

theorem execDend_effect {s t : State} (h : execDend s = .next t) : Effect s .dend t := by
  refine effect_unlessFaulted h fun hf h => effect_require h fun hd h => ?_
  split at h
  · rename_i w y hn
    cases h; exact .sessionClosed w y hf hd hn
  · cases h; exact effect_raise _ _ _ _
  · cases h; exact effect_raise _ _ _ _

/-! ## The inversion of `exec` and of `step` -/

/-- A command does one of the things `Effect` lists. -/
theorem exec_effect {i : Instr} {s t : State} (h : exec i s = .next t) : Effect s i t := by
  cases i with
  | nop => cases h; exact .nop
  | reset => cases h; exact .reset
  | rdreg reg => exact execRdreg_effect h
  | wrnode k word =>
    exact effect_unlessFaulted h fun hf h => effect_require h fun hk h => effect_require h fun hd h => by
      cases h; exact .nodeWritten k word hf hk hd
  | rdnode k => exact effect_require h fun hk h => by cases h; exact .responded _ _ (by simp [readResponse, hk])
  | wrct x entry =>
    exact effect_unlessFaulted h fun hf h => effect_require h fun hx h => by
      cases h; exact .ctWritten x entry hf hx
  | rdct x => exact effect_require h fun hx h => by cases h; exact .responded _ _ (by simp [readResponse, hx])
  | wrfreq x w =>
    exact effect_unlessFaulted h fun hf h => effect_require h fun hx h => by
      cases h; exact .freqWritten x w hf hx
  | rdfreq x => exact effect_require h fun hx h => by cases h; exact .responded _ _ (by simp [readResponse, hx])
  | setroot k =>
    exact effect_unlessFaulted h fun hf h => effect_require h fun hk h => effect_require h fun hd h => by
      cases h; exact .rootSet k hf hk hd
  | clrfreq => exact effect_unlessFaulted h fun hf h => by cases h; exact .freqCleared hf
  | count x =>
    exact effect_unlessFaulted h fun hf h => effect_require h fun hx h => effect_require h fun hw h => by
      cases h; exact .counted x hf hx hw
  | build =>
    exact effect_unlessFaulted h fun hf h => effect_require h fun hd h => effect_require h fun hy h =>
      effect_require h fun hw h => by cases h; exact .built hf hd hy hw
  | derive => exact execDerive_effect h
  | esym x =>
    exact effect_unlessFaulted h fun hf h => effect_require h fun hx h => effect_require h fun hc h => by
      cases h; exact .bitsEmitted x hf hx hc
  | dstart => exact execDstart_effect h
  | dbit b => exact execDbit_effect h
  | dend => exact execDend_effect h

/-- Everything a step can do: wait, take the rst input, refuse a command, or perform one. -/
inductive StepEffect (s : State) : State → Prop
  | waited (hq : s.cmdq = []) : StepEffect s s
  | reset (rest : List HostInput) (hq : s.cmdq = .rst :: rest) : StepEffect s (toReset { s with cmdq := rest })
  | refused (c : Command) (rest : List HostInput) (e : DecodeError) (hq : s.cmdq = .command c :: rest)
      (hc : decode s.inst c = .error e) :
      StepEffect s (raise .illegalCommand c.head.toNat { s with cmdq := rest })
  | performed (c : Command) (rest : List HostInput) (i : Instr) (t : State) (hq : s.cmdq = .command c :: rest)
      (hc : decode s.inst c = .ok i) (ht : Effect { s with cmdq := rest } i t) : StepEffect s t

theorem step_effect {s t : State} (h : step s = .next t) : StepEffect s t := by
  unfold step serviceHost at h
  split at h
  · cases h; exact .waited (by assumption)
  · rename_i c rest hq
    unfold takeCommand at h
    split at h
    · rename_i i hc
      exact .performed c rest i t hq hc (exec_effect h)
    · rename_i e hc
      cases h; exact .refused c rest e hq hc
  · rename_i rest hq
    cases h; exact .reset rest hq

end Sys2Proof.Machine
end

section
/-! Frames of a command and of a step: the parameters, the inputs, the streams, FAULT, the tree in a session. -/

namespace Sys2Proof.Machine

/-! ## The parameters and the inputs still to come (R41) -/

theorem Effect.inst_cmdq {s t : State} {i : Instr} (h : Effect s i t) : t.inst = s.inst ∧ t.cmdq = s.cmdq := by
  cases h <;> simp

/-- Settles O51, by the frame of the parameters and the inputs under every outcome of a command. -/
theorem parametersAreConstant : Obligations.ParametersAreConstant := by
  intro s t h
  cases step_effect h with
  | waited hq => simp [hq]
  | reset rest hq => simp [hq]
  | refused c rest e hq => simp [hq]
  | performed c rest i t hq hc ht => simpa [hq] using ht.inst_cmdq

/-! ## The output streams (R40) -/

/-- Each stream of `t` begins with what `s` holds on it. -/
def streamsExtend (s t : State) : Prop := s.symq <+: t.symq ∧ s.bitq <+: t.bitq ∧ s.rspq <+: t.rspq

theorem streamsExtend_of_eq {s t : State} (h1 : t.symq = s.symq) (h2 : t.bitq = s.bitq) (h3 : t.rspq = s.rspq) :
    streamsExtend s t := by
  simp [streamsExtend, h1, h2, h3]

theorem leafStep_symq_extends (s : State) : s.symq <+: (leafStep s).symq := by
  rcases leafStep_cases s with ⟨w, y, -, h⟩ | ⟨-, h⟩ <;> simp [h]

theorem Effect.streamsExtend {s t : State} {i : Instr} (h : Effect s i t) : streamsExtend s t := by
  cases h with
  | responded v hv => exact ⟨List.prefix_rfl, List.prefix_rfl, List.prefix_append _ _⟩
  | bitsEmitted x => exact ⟨List.prefix_rfl, List.prefix_append _ _, List.prefix_rfl⟩
  | bitTaken b w l r => exact ⟨leafStep_symq_extends s, by simp, by simp⟩
  | bitRaised b f info => exact ⟨leafStep_symq_extends s, by simp, by simp⟩
  | sessionClosed w y => exact ⟨List.prefix_append _ _, List.prefix_rfl, List.prefix_rfl⟩
  | _ => exact streamsExtend_of_eq rfl rfl rfl

/-- Settles O45, by the appends of `respond`, `emitBits` and `emitSym`: no other outcome touches a stream. -/
theorem streamsOnlyGrow : Obligations.StreamsOnlyGrow := by
  intro s t h
  cases step_effect h with
  | waited hq => exact streamsExtend_of_eq rfl rfl rfl
  | reset rest hq => exact streamsExtend_of_eq rfl rfl rfl
  | refused c rest e hq => exact streamsExtend_of_eq (by simp) (by simp) (by simp)
  | performed c rest i t hq hc ht => exact ht.streamsExtend

/-! ## FAULT (R29, R31, R207) -/

/-- No command but RESET clears FAULT (R207). -/
theorem Effect.fault_ne_none {s t : State} {i : Instr} (h : Effect s i t) (hi : i ≠ .reset) (hf : s.fault ≠ none) :
    t.fault ≠ none := by
  cases h with
  | reset => contradiction
  | raised | deriveRaised | bitRaised => simp
  | bitTaken => simpa using hf
  | _ => exact hf

theorem faultO_iff (s : State) : faultO s = true ↔ s.fault ≠ none := Option.isSome_iff_ne_none

theorem faultNumber_eq_zero_iff (f : Option FaultCode) : faultNumber f = 0 ↔ f = none := by
  cases f with
  | none => simp [faultNumber]
  | some f => cases f <;> simp [faultNumber]

/-- Settles O44: the codes of R201 start at 1, and a step that clears FAULT takes a RESET or the rst input. -/
theorem faultLineFollowsTheFaultRegister : Obligations.FaultLineFollowsTheFaultRegister := by
  refine ⟨fun s => by rw [faultO_iff, ne_eq, ne_eq, faultNumber_eq_zero_iff], fun s t h hs ht => ?_⟩
  rw [faultO_iff] at hs
  rw [← Bool.not_eq_true, faultO_iff, not_not] at ht
  cases step_effect h with
  | waited hq => contradiction
  | reset rest hq => exact ⟨rest, .inl hq⟩
  | refused c rest e hq =>
    rw [raise_faulted (s := { s with cmdq := rest }) hs] at ht
    contradiction
  | performed c rest i t hq hc he =>
    have hi : i = .reset := by
      by_contra hi
      exact he.fault_ne_none hi hs ht
    exact ⟨rest, .inr ⟨c, hq, hi ▸ hc⟩⟩

/-! ## The tree in a session (R34, R60) -/

/-- Settles O46: the four commands that write ROOT, NNODE or NODE are RESET and the three that R60 keeps out of a session. -/
theorem treeIsReadOnlyInASession : Obligations.TreeIsReadOnlyInASession := by
  intro s t i hd hi h
  cases exec_effect h with
  | reset => contradiction
  | nodeWritten k word hf hk hd' => simp [hd] at hd'
  | rootSet k hf hk hd' => simp [hd] at hd'
  | built hf hd' => simp [hd] at hd'
  | derived m hf hr hm => exact ⟨rfl, rfl, fun k => by simp [Memory.readNode, (visit_frame hm).2]⟩
  | bitTaken b w l r => simp
  | bitRaised b f info => simp
  | _ => exact ⟨rfl, rfl, fun _ => rfl⟩

/-! ## POS over a session (R27) -/

theorem perform_cons {i : Instr} {is : List Instr} {s t : State} (h : perform (i :: is) s = .next t) :
    ∃ s1, exec i s = .next s1 ∧ perform is s1 = .next t := by
  rw [perform] at h
  split at h
  · exact ⟨_, by assumption, h⟩
  · cases h
  · cases h

/-- A DBIT that ends without a fault found FAULT = 0 and an open session, and counted its bit (R182). -/
theorem dbit_counts_bit {b : Bool} {s t : State} (h : exec (.dbit b) s = .next t) (ht : t.fault = none) :
    s.fault = none ∧ s.dact = true ∧ t.dact = true ∧ t.inst = s.inst ∧ t.pos = (s.pos + 1) % 2 ^ s.inst.pw := by
  cases exec_effect h with
  | dropped _ hf => contradiction
  | raised => simp at ht
  | responded _ v hv => simp [readResponse] at hv
  | bitTaken _ w l r hf hd => exact ⟨hf, hd, by simpa using hd, by simp, rfl⟩
  | bitRaised => simp at ht

/-- DBITs that end without a fault found FAULT = 0. -/
theorem fault_of_dbits {bits : List Bool} {s t : State} (h : perform (dbits bits) s = .next t) (ht : t.fault = none) :
    s.fault = none := by
  cases bits with
  | nil => cases h; exact ht
  | cons b bits =>
    obtain ⟨s1, h1, h⟩ := perform_cons h
    exact (dbit_counts_bit h1 (fault_of_dbits h ht)).1

/-- DBITs that end without a fault count on from `n` bits modulo 2^PW. -/
theorem dbits_count_bits {bits : List Bool} {s t : State} {n : Nat} (h : perform (dbits bits) s = .next t)
    (ht : t.fault = none) (hd : s.dact = true) (hn : s.pos = n % 2 ^ s.inst.pw) :
    t.dact = true ∧ t.pos = (n + bits.length) % 2 ^ s.inst.pw := by
  induction bits generalizing s n with
  | nil => cases h; exact ⟨hd, hn⟩
  | cons b bits ih =>
    obtain ⟨s1, h1, h⟩ := perform_cons h
    obtain ⟨-, -, hd1, hi1, hp1⟩ := dbit_counts_bit h1 (fault_of_dbits h ht)
    have hn1 : s1.pos = (n + 1) % 2 ^ s1.inst.pw := by rw [hp1, hn, hi1, Nat.mod_add_mod]
    obtain ⟨hdt, hpt⟩ := ih h hd1 hn1
    exact ⟨hdt, by rw [hpt, hi1, List.length_cons, Nat.add_right_comm, Nat.add_assoc]⟩

/-- Settles O30, by induction on the bits from the 0 that DSTART writes. -/
theorem posCountsTheBitsModuloItsWidth : Obligations.PosCountsTheBitsModuloItsWidth := by
  intro s t bits hf hd h ht
  obtain ⟨s1, h1, h⟩ := perform_cons h
  have hf1 := fault_of_dbits h ht
  cases exec_effect h1 with
  | dropped _ hf' => contradiction
  | raised => simp at hf1
  | responded _ v hv => simp [readResponse] at hv
  | sessionOpened w l r =>
    simpa using dbits_count_bits (n := 0) h ht rfl (Nat.zero_mod _).symm

end Sys2Proof.Machine
end

section
/-! The memory a BUILD and a DERIVE leave: every entry of the tree valid, and the canonical form kept. -/

namespace Sys2Proof.Machine

/-! ## The entries BUILD writes are valid (R25, R141) -/

theorem seedLeaves_valid {ys : List Nat} {k j : Nat} {m : Memory}
    (h : m.readNode j ≠ none ∨ k ≤ j ∧ j < k + ys.length) : (seedLeaves ys k m).readNode j ≠ none := by
  induction ys generalizing k m with
  | nil => exact h.resolve_right (by simp)
  | cons y ys ih =>
    refine ih ?_
    rw [Memory.readNode_writeNode, List.length_cons] at *
    split
    · exact .inl (by simp)
    · exact h.imp_right (by omega)

/-- While the collection outlasts the fuel, each round merges a pair and so writes its entry. -/
theorem mergeLoop_valid {fuel : Nat} {q : List Pending} {k j : Nat} {m : Memory} (hq : fuel < q.length)
    (h : m.readNode j ≠ none ∨ k ≤ j ∧ j < k + fuel) : (mergeLoop fuel q k m).readNode j ≠ none := by
  induction fuel generalizing q k m with
  | zero => exact h.resolve_right (by omega)
  | succ fuel ih =>
    obtain ⟨a, q1, h1⟩ := popLeast_isSome (List.ne_nil_of_length_pos (by omega : 0 < q.length))
    have hl1 := (popLeast_cases h1).1.length_eq
    rw [List.length_cons] at hl1
    obtain ⟨b, q2, h2⟩ := popLeast_isSome (List.ne_nil_of_length_pos (by omega : 0 < q1.length))
    have hl2 := (popLeast_cases h2).1.length_eq
    rw [List.length_cons] at hl2
    simp only [mergeLoop, h1, h2]
    refine ih (by rw [List.length_cons]; omega) ?_
    rw [Memory.readNode_writeNode]
    split
    · exact .inl (by simp)
    · exact h.imp_right (by omega)

@[simp] theorem length_seedQueue (ys : List Nat) (k : Nat) (m : Memory) : (seedQueue ys k m).length = ys.length := by
  induction ys generalizing k with
  | nil => rfl
  | cons y ys ih => simp [seedQueue, ih]

/-- The tree of a single symbol (R148). -/
theorem buildTree_single {P : Params} {m : Memory} {y : Nat} (h : presentSymbols P m = [y]) :
    buildTree P m = (seedLeaves [y] 0 m.clearNode).writeNode 1 (.internal (m.readFreq y) 0 P.nil) := by
  simp only [buildTree, h]

/-- The tree of any other number of symbols (R141). -/
theorem buildTree_merged {P : Params} {m : Memory} (h : ∀ y, presentSymbols P m ≠ [y]) :
    buildTree P m = mergeLoop ((presentSymbols P m).length - 1) (seedQueue (presentSymbols P m) 0 m)
      (presentSymbols P m).length (seedLeaves (presentSymbols P m) 0 m.clearNode) := by
  unfold buildTree
  dsimp only
  split
  · rename_i y hy
    exact absurd hy (h y)
  · rfl

theorem builtCount_of_ne_single {ys : List Nat} (h : ∀ y, ys ≠ [y]) : builtCount ys.length = 2 * ys.length - 1 :=
  if_neg fun h1 => let ⟨y, hy⟩ := List.length_eq_one_iff.1 h1; h y hy

theorem buildTree_valid {P : Params} {m : Memory} (hne : presentSymbols P m ≠ []) {j : Nat}
    (hj : j < builtCount (presentSymbols P m).length) : (buildTree P m).readNode j ≠ none := by
  by_cases h1 : ∃ y, presentSymbols P m = [y]
  · obtain ⟨y, hy⟩ := h1
    have hj2 : j < 2 := by simpa [hy, builtCount] using hj
    rw [buildTree_single hy, Memory.readNode_writeNode]
    split
    · simp
    · exact seedLeaves_valid (.inr ⟨Nat.zero_le _, by simp only [List.length_singleton]; omega⟩)
  · rw [not_exists] at h1
    rw [builtCount_of_ne_single h1] at hj
    have hpos := List.length_pos_iff.2 hne
    rw [buildTree_merged h1]
    refine mergeLoop_valid (by rw [length_seedQueue]; omega) ?_
    by_cases hl : j < (presentSymbols P m).length
    · exact .inl (seedLeaves_valid (.inr ⟨Nat.zero_le _, by omega⟩))
    · exact .inr (by omega)

/-- The entries below NNODE are valid (R25). -/
def builtValid (s : State) : Prop := ∀ i, i < s.nnode → s.mem.readNode i ≠ none

theorem builtValid_of_eq {s t : State} (h : builtValid s) (hn : t.nnode = s.nnode)
    (hm : ∀ i, t.mem.readNode i = s.mem.readNode i) : builtValid t :=
  fun i hi => by rw [hm]; exact h i (hn ▸ hi)

theorem Effect.builtValid {s t : State} {i : Instr} (h : Effect s i t) (hs : builtValid s) : builtValid t := by
  cases h with
  | reset => exact fun i hi => absurd hi (Nat.not_lt_zero i)
  | nodeWritten k word =>
    intro i hi
    rw [Memory.readNode_writeNode]
    split
    · simp
    · exact hs i hi
  | built hf hd hy => exact fun i hi => buildTree_valid hy hi
  | derived m hf hr hm => exact builtValid_of_eq hs rfl fun i => by simp [Memory.readNode, (visit_frame hm).2]
  | bitTaken b w l r => exact builtValid_of_eq hs (by simp) (by simp)
  | bitRaised b f info => exact builtValid_of_eq hs (by simp) (by simp)
  | _ => exact builtValid_of_eq hs rfl fun _ => rfl

/-- Settles O50: WRNODE only makes entries valid, BUILD fills every index below its NNODE, RESET leaves NNODE 0. -/
theorem builtEntriesStayValid : Obligations.BuiltEntriesStayValid := by
  intro s t hs h
  cases step_effect h with
  | waited hq => exact hs
  | reset rest hq => exact fun i hi => absurd hi (Nat.not_lt_zero i)
  | refused c rest e hq => exact builtValid_of_eq hs (by simp) (by simp)
  | performed c rest i t hq hc ht => exact ht.builtValid hs

/-! ## BUILD keeps the canonical form (R22, R50) -/

theorem two_le_two_pow_sw {P : Params} (hP : P.legal = true) : 2 ≤ 2 ^ P.sw := by
  simp only [Params.legal, decide_eq_true_eq] at hP
  calc 2 = 2 ^ 1 := rfl
    _ ≤ 2 ^ P.sw := Nat.pow_le_pow_right (by norm_num) hP.1

theorem two_pow_na (P : Params) : 2 ^ P.na = 2 * 2 ^ P.sw := by rw [Params.na, Nat.pow_succ, Nat.mul_comm]

theorem mem_presentSymbols {P : Params} {m : Memory} {y : Nat} :
    y ∈ presentSymbols P m ↔ y < P.nsym ∧ m.readFreq y ≠ 0 := by
  simp [presentSymbols]

theorem length_presentSymbols_le (P : Params) (m : Memory) : (presentSymbols P m).length ≤ 2 ^ P.sw :=
  (List.length_filter_le _ _).trans_eq List.length_range

theorem builtCount_le_nnodes {P : Params} (hP : P.legal = true) (m : Memory) :
    builtCount (presentSymbols P m).length ≤ P.nnodes := by
  have h1 := two_le_two_pow_sw hP
  have h2 := length_presentSymbols_le P m
  rw [Params.nnodes, two_pow_na, builtCount]
  split <;> omega

theorem wf_leaf_iff {P : Params} {w y : Nat} :
    (NodeWord.leaf w y).wf P = true ↔ w < 2 ^ P.ww ∧ y < 2 ^ P.sw := decide_eq_true_iff

theorem wf_internal_iff {P : Params} {w l r : Nat} :
    (NodeWord.internal w l r).wf P = true ↔ w < 2 ^ P.ww ∧ l < 2 ^ P.na ∧ r < 2 ^ P.na := decide_eq_true_iff

theorem wf_seedLeaves {P : Params} {ys : List Nat} {k : Nat} {m : Memory} (hm : m.wf P = true)
    (hy : ∀ y ∈ ys, y < P.nsym) (hk : k + ys.length ≤ P.nnodes) : (seedLeaves ys k m).wf P = true := by
  induction ys generalizing k m with
  | nil => exact hm
  | cons y ys ih =>
    rw [List.length_cons] at hk
    have hleaf : (NodeWord.leaf (m.readFreq y) y).wf P = true :=
      wf_leaf_iff.2 ⟨Memory.readFreq_lt hm y, hy y List.mem_cons_self⟩
    exact ih (Memory.wf_writeNode hm (by omega) hleaf) (fun z hz => hy z (List.mem_cons_of_mem _ hz)) (by omega)

/-- The weights of a collection fit WW bits together, and its indices name entries: what the merges keep (R142, R145). -/
structure QueueFits (P : Params) (q : List Pending) : Prop where
  weight_sum : (q.map Pending.weight).sum < 2 ^ P.ww
  index_lt : ∀ a ∈ q, a.index < P.nnodes

theorem QueueFits.perm {P : Params} {q q' : List Pending} (h : QueueFits P q) (hp : q.Perm q') : QueueFits P q' where
  weight_sum := (hp.map Pending.weight).sum_eq ▸ h.weight_sum
  index_lt a ha := h.index_lt a (hp.mem_iff.2 ha)

/-- The merged pair in place of its two parts: the sum of the weights is the same. -/
theorem QueueFits.merge {P : Params} {a b : Pending} {q : List Pending} {k : Nat} (h : QueueFits P (a :: b :: q))
    (hk : k < P.nnodes) : QueueFits P ({ weight := a.weight + b.weight, index := k } :: q) where
  weight_sum := by simpa [Nat.add_assoc] using h.weight_sum
  index_lt c hc := by
    rcases List.mem_cons.1 hc with rfl | hc
    · exact hk
    · exact h.index_lt c (List.mem_cons_of_mem _ (List.mem_cons_of_mem _ hc))

theorem QueueFits.merged_wf {P : Params} {a b : Pending} {q : List Pending} (h : QueueFits P (a :: b :: q)) :
    (NodeWord.internal (a.weight + b.weight) a.index b.index).wf P = true := by
  have hw := h.weight_sum
  have ha := h.index_lt a (by simp)
  have hb := h.index_lt b (by simp)
  simp only [List.map_cons, List.sum_cons, Params.nnodes] at hw ha hb
  rw [wf_internal_iff]
  omega

theorem wf_mergeLoop {P : Params} {fuel : Nat} {q : List Pending} {k : Nat} {m : Memory} (hm : m.wf P = true)
    (hq : QueueFits P q) (hk : k + fuel ≤ P.nnodes) : (mergeLoop fuel q k m).wf P = true := by
  induction fuel generalizing q k m with
  | zero => exact hm
  | succ fuel ih =>
    unfold mergeLoop
    split
    · exact hm
    · rename_i a q1 h1
      split
      · exact hm
      · rename_i b q2 h2
        have hab : QueueFits P (a :: b :: q2) :=
          hq.perm ((popLeast_cases h1).1.trans ((popLeast_cases h2).1.cons a))
        exact ih (Memory.wf_writeNode hm (by omega) hab.merged_wf) (hab.merge (by omega)) (by omega)

theorem map_weight_seedQueue (ys : List Nat) (k : Nat) (m : Memory) :
    (seedQueue ys k m).map Pending.weight = ys.map m.readFreq := by
  induction ys generalizing k with
  | nil => rfl
  | cons y ys ih => simp [seedQueue, ih]

theorem index_lt_of_mem_seedQueue {ys : List Nat} {k : Nat} {m : Memory} {a : Pending} (h : a ∈ seedQueue ys k m) :
    a.index < k + ys.length := by
  induction ys generalizing k with
  | nil => cases h
  | cons y ys ih =>
    rw [List.length_cons]
    rcases List.mem_cons.1 h with rfl | h
    · simp
    · have := ih h
      omega

theorem wf_buildTree {P : Params} {m : Memory} (hP : P.legal = true) (hm : m.wf P = true)
    (hw : totalWeight P m < 2 ^ P.ww) : (buildTree P m).wf P = true := by
  have hcount := builtCount_le_nnodes hP m
  have hna := two_pow_na P
  have hsw := two_le_two_pow_sw hP
  have hleaves : (seedLeaves (presentSymbols P m) 0 m.clearNode).wf P = true := by
    refine wf_seedLeaves (Memory.wf_clearNode hm) (fun y hy => (mem_presentSymbols.1 hy).1) ?_
    have := length_presentSymbols_le P m
    rw [Params.nnodes]; omega
  by_cases h1 : ∃ y, presentSymbols P m = [y]
  · obtain ⟨y, hy⟩ := h1
    have hroot : (NodeWord.internal (m.readFreq y) 0 P.nil).wf P = true := by
      have := Memory.readFreq_lt hm y
      rw [wf_internal_iff, Params.nil]
      omega
    rw [buildTree_single hy]
    exact Memory.wf_writeNode (hy ▸ hleaves) (by rw [Params.nnodes]; omega) hroot
  · rw [not_exists] at h1
    rw [builtCount_of_ne_single h1] at hcount
    have hqueue : QueueFits P (seedQueue (presentSymbols P m) 0 m) :=
      ⟨by rw [map_weight_seedQueue]; exact hw, fun a ha => by have := index_lt_of_mem_seedQueue ha; omega⟩
    rw [buildTree_merged h1]
    exact wf_mergeLoop hleaves hqueue (by omega)

/-! ## DERIVE keeps the canonical form (R23, R161) -/

/-- `room` counts what is left of CLMAX below the node, so that no codeword written is longer than CLMAX. -/
theorem wf_visit {P : Params} {room i : Nat} {path : Codeword} {m m' : Memory} (hm : m.wf P = true)
    (hroom : room + path.length = P.clmax + 1) (h : visit P room i path m = .ok m') : m'.wf P = true := by
  induction room generalizing i path m m' with
  | zero => unfold visit at h; split at h <;> cases h
  | succ room ih =>
    have hchild (b : Bool) : room + (path ++ [b]).length = P.clmax + 1 := by
      rw [List.length_append, List.length_singleton]; omega
    unfold visit at h
    split at h
    · cases h
    · rename_i w y hn
      have hy : y < P.nsym := (wf_leaf_iff.1 (Memory.wf_of_readNode hm hn).2).2
      split at h
      · cases h
      · split at h
        · cases h
        · cases h
          exact Memory.wf_writeCt hm hy (decide_eq_true (by omega))
    · rename_i w l r hn
      split at h
      · cases h
      · rename_i m1 h1
        have hm1 : m1.wf P = true := by
          split at h1
          · cases h1; exact hm
          · exact ih hm (hchild false) h1
        split at h
        · cases h; exact hm1
        · exact ih hm1 (hchild true) h

end Sys2Proof.Machine
end

section
/-! What decodes is well formed, what is read fits the response port, and every step keeps the invariant. -/

namespace Sys2Proof.Machine

/-! ## What decodes is well formed (R92, R94) -/

theorem formatN_ok {c : Command} {i j : Instr} (h : formatN c i = .ok j) : j = i := by
  unfold formatN at h
  split at h
  · cases h
  · split at h
    · cases h
    · cases h; rfl

theorem formatIndex_ok {c : Command} {i : Index → Instr} {j : Instr} (h : formatIndex c i = .ok j) :
    j = i (headIndex c.head) := by
  unfold formatIndex at h
  split at h
  · cases h
  · cases h; rfl

theorem formatB_ok {c : Command} {i : Bool → Instr} {j : Instr} (h : formatB c i = .ok j) : ∃ b, j = i b := by
  unfold formatB at h
  split at h
  · cases h
  · split at h
    · cases h
    · cases h; exact ⟨_, rfl⟩

theorem formatXN_ok {P : Params} (hP : P.legal = true) {c : Command} {i : Index → NodeWord → Instr} {j : Instr}
    (h : formatXN P c i = .ok j) : ∃ word, j = i (headIndex c.head) word ∧ word.wf P = true := by
  unfold formatXN at h
  split at h
  · cases h
  · rename_i hd
    split at h
    · rename_i word hw
      cases h
      exact ⟨word, rfl, (nodeWordNum_of_read P hP _ word (not_not.1 hd) hw).2⟩
    · cases h

theorem formatSC_ok {P : Params} (hP : P.legal = true) {c : Command} {i : Index → Codeword → Instr} {j : Instr}
    (h : formatSC P c i = .ok j) : ∃ entry, j = i (headIndex c.head) entry ∧ codewordWf P entry = true := by
  unfold formatSC at h
  split at h
  · cases h
  · rename_i hd
    split at h
    · rename_i entry he
      cases h
      exact ⟨entry, rfl, decide_eq_true (entryNum_of_read P hP _ entry (not_not.1 hd) he).2⟩
    · cases h

theorem formatSF_ok {P : Params} {c : Command} {i : Index → Nat → Instr} {j : Instr}
    (h : formatSF P c i = .ok j) : j = i (headIndex c.head) c.data ∧ c.data < 2 ^ P.ww := by
  unfold formatSF at h
  split at h
  · cases h
  · rename_i hd
    cases h
    exact ⟨rfl, Nat.lt_of_div_eq_zero (Nat.two_pow_pos _) (not_not.1 hd)⟩

/-- Only the formats with a data operand put anything but an index in a command, and each checks its layout (R92, R94). -/
theorem decode_wf {P : Params} (hP : P.legal = true) {c : Command} {i : Instr} (h : decode P c = .ok i) :
    i.wf P = true := by
  unfold decode at h
  split at h
  · cases formatN_ok h; rfl
  · cases formatN_ok h; rfl
  · cases formatIndex_ok h; rfl
  · obtain ⟨word, rfl, hw⟩ := formatXN_ok hP h; exact hw
  · cases formatIndex_ok h; rfl
  · obtain ⟨entry, rfl, he⟩ := formatSC_ok hP h; exact he
  · cases formatIndex_ok h; rfl
  · obtain ⟨rfl, hw⟩ := formatSF_ok h; exact decide_eq_true hw
  · cases formatIndex_ok h; rfl
  · cases formatIndex_ok h; rfl
  · cases formatN_ok h; rfl
  · cases formatIndex_ok h; rfl
  · cases formatN_ok h; rfl
  · cases formatN_ok h; rfl
  · cases formatIndex_ok h; rfl
  · cases formatN_ok h; rfl
  · obtain ⟨b, rfl⟩ := formatB_ok h; rfl
  · cases formatN_ok h; rfl
  · cases h

/-! ## The invariant, field by field -/

/-- A session at `cur` in the tree of `root` is sound (R26, R182). -/
structure SessionSound (P : Params) (m : Memory) (root cur : Nat) : Prop where
  root_ne_nil : root ≠ P.nil
  cur_valid : m.readNode cur ≠ none
  root_internal : ∃ w l r, m.readNode root = some (.internal w l r)

/-- `State.inv` as propositions. -/
structure Sound (s : State) : Prop where
  legal : s.inst.legal = true
  mem_wf : s.mem.wf s.inst = true
  root_lt : s.root < 2 ^ s.inst.na
  nnode_lt : s.nnode < 2 ^ s.inst.na
  cur_lt : s.cur < 2 ^ s.inst.na
  pos_lt : s.pos < 2 ^ s.inst.pw
  finfo_zero : s.fault = none → s.finfo = 0#16
  session : s.dact = true → SessionSound s.inst s.mem s.root s.cur
  symq_lt : ∀ y ∈ s.symq, y < 2 ^ s.inst.sw
  rspq_lt : ∀ v ∈ s.rspq, v < 2 ^ s.inst.dw
  cmdq_wf : ∀ c, .command c ∈ s.cmdq → c.wf s.inst = true

theorem sessionOk_iff (s : State) :
    s.sessionOk = true ↔ (s.dact = true → SessionSound s.inst s.mem s.root s.cur) := by
  unfold State.sessionOk
  split
  · rename_i hd
    simp only [Bool.and_eq_true, decide_eq_true_eq, Option.isSome_iff_ne_none, hd, forall_const]
    constructor
    · rintro ⟨⟨hr, hc⟩, hn⟩
      split at hn
      · exact ⟨hr, hc, _, _, _, by assumption⟩
      · cases hn
    · rintro ⟨hr, hc, w, l, r, hn⟩
      simp [hr, hc, hn]
  · simp [*]

theorem inv_iff (s : State) : s.inv = true ↔ Sound s := by
  simp only [State.inv, Bool.and_eq_true, decide_eq_true_eq, List.all_eq_true, sessionOk_iff]
  constructor
  · rintro ⟨⟨⟨⟨⟨⟨⟨legal, mem⟩, root, nnode, cur, pos⟩, finfo⟩, session⟩, symq⟩, rspq⟩, cmdq⟩
    exact ⟨legal, mem, root, nnode, cur, pos, finfo, session, symq, rspq, fun c hc => cmdq _ hc⟩
  · rintro ⟨legal, mem, root, nnode, cur, pos, finfo, session, symq, rspq, cmdq⟩
    refine ⟨⟨⟨⟨⟨⟨⟨legal, mem⟩, root, nnode, cur, pos⟩, finfo⟩, session⟩, symq⟩, rspq⟩, fun x hx => ?_⟩
    cases x with
    | command c => exact cmdq c hx
    | rst => rfl

theorem nil_lt (P : Params) : P.nil < 2 ^ P.na := Nat.sub_lt (by positivity) Nat.one_pos

/-- Settles O49, field by field: the memories are empty, the indices NIL and the numbers 0. -/
theorem resetMeetsTheInvariant : Obligations.ResetMeetsTheInvariant := by
  refine ⟨fun P hP => (inv_iff _).2 ?_, rfl, rfl⟩
  exact {
    legal := hP
    mem_wf := Memory.wf_reset P
    root_lt := nil_lt P
    nnode_lt := by positivity
    cur_lt := nil_lt P
    pos_lt := by positivity
    finfo_zero := fun _ => rfl
    session := nofun
    symq_lt := nofun
    rspq_lt := nofun
    cmdq_wf := nofun }

/-! ## What a read responds fits the data port (R6, R83, R85) -/

theorem lt_two_pow_dw {P : Params} {v n : Nat} (hv : v < 2 ^ n) (hn : n ≤ P.dw) : v < 2 ^ P.dw :=
  hv.trans_le (Nat.pow_le_pow_right (by norm_num) hn)

theorem widths_le_dw (P : Params) :
    P.ctw ≤ P.dw ∧ P.nodew + 1 ≤ P.dw ∧ P.ww ≤ P.dw ∧ P.pw ≤ P.dw ∧ 16 ≤ P.dw ∧ P.na ≤ P.dw := by
  have hna : P.na ≤ P.nodew := by unfold Params.nodew; omega
  simp only [Params.dw, Params.fiw]
  omega

theorem faultNumber_le (f : Option FaultCode) : faultNumber f ≤ 13 := by
  cases f with
  | none => simp [faultNumber]
  | some f => cases f <;> simp [faultNumber]

theorem status_le (s : State) : status s ≤ 3 := by
  have h1 := (flt s).toNat_le
  have h2 := s.dact.toNat_le
  unfold status; omega

theorem Sound.registerValue_lt {s : State} (h : Sound s) (r : Register) : registerValue s r < 2 ^ s.inst.dw := by
  obtain ⟨-, -, -, hpw, h16, hna⟩ := widths_le_dw s.inst
  cases r with
  | status => exact lt_two_pow_dw (n := 16) ((status_le s).trans_lt (by norm_num)) h16
  | fault => exact lt_two_pow_dw (n := 16) ((faultNumber_le s.fault).trans_lt (by norm_num)) h16
  | finfo => exact lt_two_pow_dw s.finfo.isLt h16
  | root => exact lt_two_pow_dw h.root_lt hna
  | nnode => exact lt_two_pow_dw h.nnode_lt hna
  | cur => exact lt_two_pow_dw h.cur_lt hna
  | pos => exact lt_two_pow_dw h.pos_lt hpw

theorem nodeWordNum_lt {P : Params} {word : NodeWord} (h : word.wf P = true) : nodeWordNum P word < 2 ^ P.nodew := by
  cases word with
  | leaf w y =>
    obtain ⟨hw, hy⟩ := wf_leaf_iff.1 h
    exact Nat.lt_of_div_eq_zero (Nat.two_pow_pos _) (readNodeWord_leaf P w y hw hy).2
  | internal w l r =>
    obtain ⟨hw, hl, hr⟩ := wf_internal_iff.1 h
    exact Nat.lt_of_div_eq_zero (Nat.two_pow_pos _) (readNodeWord_internal P w l r hw hl hr).2

theorem nodeResponse_lt {P : Params} {m : Memory} (hm : m.wf P = true) (i : Nat) :
    nodeResponse P (m.readNode i) < 2 ^ (P.nodew + 1) := by
  cases hn : m.readNode i with
  | none => exact Nat.two_pow_pos _
  | some word =>
    have := nodeWordNum_lt (Memory.wf_of_readNode hm hn).2
    rw [nodeResponse, Nat.pow_succ]; omega

theorem Sound.readResponse_lt {s : State} (h : Sound s) {i : Instr} {v : Nat} (hv : readResponse s i = some v) :
    v < 2 ^ s.inst.dw := by
  obtain ⟨hctw, hnodew, hww, -, -, -⟩ := widths_le_dw s.inst
  unfold readResponse at hv
  split at hv
  · obtain ⟨r, -, rfl⟩ := Option.map_eq_some_iff.1 hv
    exact h.registerValue_lt r
  · obtain ⟨-, ⟨⟩⟩ := Option.ite_none_right_eq_some.1 hv
    exact lt_two_pow_dw (nodeResponse_lt h.mem_wf _) hnodew
  · obtain ⟨-, ⟨⟩⟩ := Option.ite_none_right_eq_some.1 hv
    exact lt_two_pow_dw (readEntry_entryNum _ h.legal _ (Memory.length_readCt_le h.mem_wf _)).2 hctw
  · obtain ⟨-, ⟨⟩⟩ := Option.ite_none_right_eq_some.1 hv
    exact lt_two_pow_dw (Memory.readFreq_lt h.mem_wf _) hww
  · cases hv

/-! ## Each kind of update keeps the invariant -/

theorem SessionSound.of_node_eq {P : Params} {m m' : Memory} {root cur : Nat} (h : SessionSound P m root cur)
    (hm : m'.node = m.node) : SessionSound P m' root cur := by
  have hread (i : Nat) : m'.readNode i = m.readNode i := by rw [Memory.readNode, hm, Memory.readNode]
  exact ⟨h.root_ne_nil, by rw [hread]; exact h.cur_valid, by rw [hread]; exact h.root_internal⟩

theorem Sound.raised {s : State} (h : Sound s) (f : FaultCode) (info : Nat) : Sound (raised f info s) :=
  { h with finfo_zero := nofun }

theorem Sound.raise {s : State} (h : Sound s) (f : FaultCode) (info : Nat) : Sound (raise f info s) := by
  by_cases hf : s.fault = none
  · rw [raise_live hf]; exact h.raised f info
  · rw [raise_faulted hf]; exact h

theorem Sound.toReset {s : State} (h : Sound s) : Sound (toReset s) :=
  { h with
    mem_wf := Memory.wf_reset _
    root_lt := nil_lt _
    nnode_lt := Nat.two_pow_pos _
    cur_lt := nil_lt _
    pos_lt := Nat.two_pow_pos _
    finfo_zero := fun _ => rfl
    session := nofun }

theorem Sound.takeInput {s : State} (h : Sound s) {x : HostInput} {rest : List HostInput} (hq : s.cmdq = x :: rest) :
    Sound { s with cmdq := rest } :=
  { h with cmdq_wf := fun c hc => h.cmdq_wf c (hq ▸ List.mem_cons_of_mem _ hc) }

theorem Sound.respond {s : State} (h : Sound s) {v : Nat} (hv : v < 2 ^ s.inst.dw) : Sound (respond v s) :=
  { h with rspq_lt := fun u hu => (List.mem_append.1 hu).elim (h.rspq_lt u) fun hu => List.mem_singleton.1 hu ▸ hv }

theorem Sound.emitBits {s : State} (h : Sound s) (bits : List Bool) : Sound (emitBits bits s) := { h with }

theorem Sound.emitSym {s : State} (h : Sound s) {i w y : Nat} (hn : s.mem.readNode i = some (.leaf w y)) :
    Sound (emitSym y s) :=
  { h with
    symq_lt := fun z hz => (List.mem_append.1 hz).elim (h.symq_lt z) fun hz =>
      List.mem_singleton.1 hz ▸ (wf_leaf_iff.1 (Memory.wf_of_readNode h.mem_wf hn).2).2 }

/-- FREQ and CT may be written at any time: the session does not read them (R60). -/
theorem Sound.withMem {s : State} (h : Sound s) {m : Memory} (hm : m.wf s.inst = true) (hnode : m.node = s.mem.node) :
    Sound { s with mem := m } :=
  { h with mem_wf := hm, session := fun hd => (h.session hd).of_node_eq hnode }

/-- Outside a session the tree, ROOT and NNODE may be written. -/
theorem Sound.withTree {s : State} (h : Sound s) (hd : s.dact = false) {m : Memory} {root nnode : Nat}
    (hm : m.wf s.inst = true) (hr : root < 2 ^ s.inst.na) (hn : nnode < 2 ^ s.inst.na) :
    Sound { s with mem := m, root := root, nnode := nnode } :=
  { h with mem_wf := hm, root_lt := hr, nnode_lt := hn, session := fun hd' => by simp [hd] at hd' }

/-- The cursor may stand on the root, and on any valid entry. -/
theorem Sound.withCur {s : State} (h : Sound s) {cur pos : Nat} (hc : s.mem.readNode cur ≠ none)
    (hp : pos < 2 ^ s.inst.pw) : Sound { s with cur := cur, pos := pos } := by
  obtain ⟨word, hw⟩ := Option.ne_none_iff_exists'.1 hc
  have hlt := (Memory.wf_of_readNode h.mem_wf hw).1
  rw [Params.nnodes] at hlt
  exact { h with
    cur_lt := Nat.lt_of_lt_pred hlt
    pos_lt := hp
    session := fun hd => { h.session hd with cur_valid := hc } }

theorem Sound.leafStep {s : State} (h : Sound s) (hd : s.dact = true) : Sound (leafStep s) := by
  rcases leafStep_cases s with ⟨w, y, hn, hs⟩ | ⟨-, hs⟩
  · obtain ⟨w', l, r, hroot⟩ := (h.session hd).root_internal
    rw [hs]
    exact (h.emitSym hn).withCur (by simp [hroot]) h.pos_lt
  · rw [hs]; exact h

/-! ## Every step keeps the invariant -/

/-- A count that is not at its maximum has room for one more (R130). -/
theorem readFreq_succ_lt {P : Params} {m : Memory} (hm : m.wf P = true) {y : Nat}
    (h : m.readFreq y ≠ 2 ^ P.ww - 1) : m.readFreq y + 1 < 2 ^ P.ww := by
  have := Memory.readFreq_lt hm y
  omega

theorem Effect.sound {s t : State} {i : Instr} (h : Effect s i t) (hs : Sound s) (hi : i.wf s.inst = true) : Sound t := by
  have hm := hs.mem_wf
  have hnodes : s.inst.nnodes < 2 ^ s.inst.na := nil_lt s.inst
  cases h with
  | nop => exact hs
  | dropped _ hf => exact hs
  | raised _ f info hf => exact hs.raised f info
  | reset => exact hs.toReset
  | responded _ v hv => exact hs.respond (hs.readResponse_lt hv)
  | nodeWritten k word hf hk hd =>
    exact hs.withTree hd (Memory.wf_writeNode hm (of_decide_eq_true hk) hi) hs.root_lt hs.nnode_lt
  | ctWritten x entry hf hx => exact hs.withMem (Memory.wf_writeCt hm (of_decide_eq_true hx) hi) rfl
  | freqWritten x w hf hx =>
    exact hs.withMem (Memory.wf_writeFreq hm (of_decide_eq_true hx) (of_decide_eq_true hi)) rfl
  | rootSet k hf hk hd =>
    have hroot : k.toNat < 2 ^ s.inst.na :=
      (of_decide_eq_true hk).elim (fun h => h.trans hnodes) (fun h => h ▸ nil_lt s.inst)
    exact hs.withTree hd hm hroot hs.nnode_lt
  | freqCleared hf => exact hs.withMem (Memory.wf_clearFreq hm) rfl
  | counted x hf hx hw =>
    exact hs.withMem (Memory.wf_writeFreq hm (of_decide_eq_true hx) (readFreq_succ_lt hm hw)) rfl
  | built hf hd hy hw =>
    have hcount := (builtCount_le_nnodes hs.legal s.mem).trans_lt hnodes
    exact hs.withTree hd (wf_buildTree hs.legal hm hw) ((Nat.sub_le _ _).trans_lt hcount) hcount
  | derived m hf hr hv => exact hs.withMem (wf_visit (Memory.wf_clearCt hm) rfl hv) (visit_frame hv).2
  | deriveRaised f info hf => exact (hs.withMem (Memory.wf_clearCt hm) rfl).raised f info
  | bitsEmitted x hf hx hc => exact hs.emitBits _
  | sessionOpened w l r hf hd hr hn =>
    exact { hs with
      cur_lt := hs.root_lt
      pos_lt := Nat.two_pow_pos _
      session := fun _ => ⟨hr, by simp [hn], w, l, r, hn⟩ }
  | bitTaken b w l r hf hd hn hnil hc =>
    refine (hs.leafStep hd).withCur (by simpa using hc) ?_
    rw [leafStep_inst]
    exact Nat.mod_lt _ (Nat.two_pow_pos _)
  | bitRaised b f info hf hd => exact (hs.leafStep hd).raised f info
  | sessionClosed w y hf hd hn => exact { hs.emitSym hn with session := nofun }

/-- Settles O48: the input taken decodes to a well-formed command, and each outcome of such a command keeps every part of
the invariant. -/
theorem everyStepKeepsTheInvariant : Obligations.EveryStepKeepsTheInvariant := by
  intro s t hs h
  rw [inv_iff] at hs ⊢
  cases step_effect h with
  | waited hq => exact hs
  | reset rest hq => exact (hs.takeInput hq).toReset
  | refused c rest e hq => exact (hs.takeInput hq).raise _ _
  | performed c rest i t hq hc ht => exact ht.sound (hs.takeInput hq) (decode_wf hs.legal hc)

end Sys2Proof.Machine
end

section
/-! What a write command stored, the read command of the same space returns (R54). -/

namespace Sys2Proof.Machine

/-! ## The data field of a write command is the number of its operand (R74, R80 to R84) -/

theorem formatXN_ok_data {P : Params} (hP : P.legal = true) {c : Command} {i : Index → NodeWord → Instr} {j : Instr}
    (h : formatXN P c i = .ok j) : ∃ word, j = i (headIndex c.head) word ∧ nodeWordNum P word = c.data := by
  unfold formatXN at h
  split at h
  · cases h
  · rename_i hd
    split at h
    · rename_i word hw
      cases h
      exact ⟨word, rfl, (nodeWordNum_of_read P hP _ word (not_not.1 hd) hw).1⟩
    · cases h

theorem formatSC_ok_data {P : Params} (hP : P.legal = true) {c : Command} {i : Index → Codeword → Instr} {j : Instr}
    (h : formatSC P c i = .ok j) : ∃ entry, j = i (headIndex c.head) entry ∧ entryNum P entry = c.data := by
  unfold formatSC at h
  split at h
  · cases h
  · rename_i hd
    split at h
    · rename_i entry he
      cases h
      exact ⟨entry, rfl, (entryNum_of_read P hP _ entry (not_not.1 hd) he).1⟩
    · cases h

theorem headValue_fields {base : Nat} {op : Opcode} (h : base = op.toNat * 2048) (x : Index) :
    headOpcode (headValue base x) = op ∧ headIndex (headValue base x) = x := by
  rw [h, headValue_headOf]
  exact ⟨headOpcode_headOf op x, headIndex_headOf op x⟩

theorem decode_wrnode {P : Params} (hP : P.legal = true) {x : Index} {d : Nat} {i : Instr}
    (h : decode P { head := headValue 0x2000 x, data := d } = .ok i) :
    ∃ word, i = .wrnode x word ∧ nodeWordNum P word = d := by
  obtain ⟨hop, hidx⟩ := headValue_fields (base := 0x2000) (op := 0x04#5) rfl x
  rw [decode, hop] at h
  simpa only [hidx] using formatXN_ok_data hP h

theorem decode_wrct {P : Params} (hP : P.legal = true) {x : Index} {d : Nat} {i : Instr}
    (h : decode P { head := headValue 0x3000 x, data := d } = .ok i) :
    ∃ entry, i = .wrct x entry ∧ entryNum P entry = d := by
  obtain ⟨hop, hidx⟩ := headValue_fields (base := 0x3000) (op := 0x06#5) rfl x
  rw [decode, hop] at h
  simpa only [hidx] using formatSC_ok_data hP h

theorem decode_wrfreq {P : Params} {x : Index} {d : Nat} {i : Instr}
    (h : decode P { head := headValue 0x4000 x, data := d } = .ok i) : i = .wrfreq x d := by
  obtain ⟨hop, hidx⟩ := headValue_fields (base := 0x4000) (op := 0x08#5) rfl x
  rw [decode, hop] at h
  simpa only [hidx] using (formatSF_ok h).1

/-! ## A write command that raises no fault has written its entry (R105, R107, R109) -/

/-- A command that leaves FAULT = 0 was not refused: it decodes and is performed (R91, R92). -/
theorem takeCommand_effect {s t : State} {c : Command} (hs : s.fault = none) (h : takeCommand c s = .next t)
    (ht : t.fault = none) : ∃ i, decode s.inst c = .ok i ∧ Effect s i t := by
  cases hc : decode s.inst c with
  | ok i =>
    rw [takeCommand_ok hc] at h
    exact ⟨i, rfl, exec_effect h⟩
  | error e =>
    rw [takeCommand_error hs hc] at h
    cases h; cases ht

theorem Effect.wrnode_readback {s t : State} {k : Index} {word : NodeWord} (h : Effect s (.wrnode k word) t)
    (hs : s.fault = none) (ht : t.fault = none) :
    isNode t.inst k = true ∧ t.mem.readNode k.toNat = some word := by
  cases h with
  | dropped _ hf => exact absurd hs hf
  | raised => cases ht
  | responded _ v hv => cases hv
  | nodeWritten _ _ _ hk => exact ⟨hk, by simp⟩

theorem Effect.wrct_readback {s t : State} {x : Index} {entry : Codeword} (h : Effect s (.wrct x entry) t)
    (hs : s.fault = none) (ht : t.fault = none) :
    isSymbol t.inst x = true ∧ t.mem.readCt x.toNat = entry := by
  cases h with
  | dropped _ hf => exact absurd hs hf
  | raised => cases ht
  | responded _ v hv => cases hv
  | ctWritten _ _ _ hx => exact ⟨hx, by simp⟩

theorem Effect.wrfreq_readback {s t : State} {x : Index} {w : Nat} (h : Effect s (.wrfreq x w) t)
    (hs : s.fault = none) (ht : t.fault = none) :
    isSymbol t.inst x = true ∧ t.mem.readFreq x.toNat = w := by
  cases h with
  | dropped _ hf => exact absurd hs hf
  | raised => cases ht
  | responded _ v hv => cases hv
  | freqWritten _ _ _ hx => exact ⟨hx, by simp⟩

/-! ## A read command of an index in its space responds with the entry (R106, R108, R110) -/

theorem exec_rdnode {s : State} {k : Index} (hk : isNode s.inst k = true) :
    exec (.rdnode k) s = .next (respond (nodeResponse s.inst (s.mem.readNode k.toNat)) s) :=
  require_pos hk _ _ _ _

theorem exec_rdct {s : State} {x : Index} (hx : isSymbol s.inst x = true) :
    exec (.rdct x) s = .next (respond (entryNum s.inst (s.mem.readCt x.toNat)) s) :=
  require_pos hx _ _ _ _

theorem exec_rdfreq {s : State} {x : Index} (hx : isSymbol s.inst x = true) :
    exec (.rdfreq x) s = .next (respond (s.mem.readFreq x.toNat) s) :=
  require_pos hx _ _ _ _

/-! ## The read that follows the write (R54) -/

theorem rdnode_after_wrnode {s t : State} {x : Index} {d : Nat} (hP : s.inst.legal = true) (hs : s.fault = none)
    (h : takeCommand { head := headValue 0x2000 x, data := d } s = .next t) (ht : t.fault = none) :
    exec (.rdnode x) t = .next (respond (2 ^ s.inst.nodew + d) t) := by
  obtain ⟨i, hi, heffect⟩ := takeCommand_effect hs h ht
  obtain ⟨word, rfl, rfl⟩ := decode_wrnode hP hi
  obtain ⟨hk, hread⟩ := heffect.wrnode_readback hs ht
  rw [exec_rdnode hk, hread, heffect.inst_cmdq.1, nodeResponse]

theorem rdct_after_wrct {s t : State} {x : Index} {d : Nat} (hP : s.inst.legal = true) (hs : s.fault = none)
    (h : takeCommand { head := headValue 0x3000 x, data := d } s = .next t) (ht : t.fault = none) :
    exec (.rdct x) t = .next (respond d t) := by
  obtain ⟨i, hi, heffect⟩ := takeCommand_effect hs h ht
  obtain ⟨entry, rfl, rfl⟩ := decode_wrct hP hi
  obtain ⟨hx, hread⟩ := heffect.wrct_readback hs ht
  rw [exec_rdct hx, hread, heffect.inst_cmdq.1]

theorem rdfreq_after_wrfreq {s t : State} {x : Index} {d : Nat} (hs : s.fault = none)
    (h : takeCommand { head := headValue 0x4000 x, data := d } s = .next t) (ht : t.fault = none) :
    exec (.rdfreq x) t = .next (respond d t) := by
  obtain ⟨i, hi, heffect⟩ := takeCommand_effect hs h ht
  obtain rfl := decode_wrfreq hi
  obtain ⟨hx, hread⟩ := heffect.wrfreq_readback hs ht
  rw [exec_rdfreq hx, hread]

/-- Settles O12: a write that leaves FAULT = 0 decoded and stored the operand its data field is the number of, and the read
of that entry responds with the number. -/
theorem readsReturnTheDataWritten : Obligations.ReadsReturnTheDataWritten :=
  ⟨fun _ _ _ _ hP hs h ht => rdnode_after_wrnode hP hs h ht, fun _ _ _ _ hP hs h ht => rdct_after_wrct hP hs h ht,
    fun _ _ _ _ hs h ht => rdfreq_after_wrfreq hs h ht⟩

end Sys2Proof.Machine
end

section
/-! What the decoder reads of a command, said once and for all parameters, and with it that `decode` and `encode` are
inverse. -/

namespace Sys2Proof.Machine

/-! ## What each format reads of a command (R74, R75, R92) -/

theorem formatN_eq_ok_iff {c : Command} {i j : Instr} :
    formatN c i = .ok j ↔ i = j ∧ headIndex c.head = 0#11 ∧ c.data = 0 := by
  unfold formatN
  split
  · simp_all
  · split <;> simp_all

theorem formatIndex_eq_ok_iff {c : Command} {i : Index → Instr} {j : Instr} :
    formatIndex c i = .ok j ↔ i (headIndex c.head) = j ∧ c.data = 0 := by
  unfold formatIndex
  split <;> simp_all

/-- An index that is zero above bit 0 is that bit (R75). -/
theorem index_eq_of_div_two {x : Index} (h : x.toNat / 2 = 0) : BitVec.ofNat 11 (x.toNat % 2 == 1).toNat = x := by
  apply BitVec.eq_of_toNat_eq
  have hx : x.toNat = 0 ∨ x.toNat = 1 := by omega
  rcases hx with hx | hx <;> simp [hx]

theorem formatB_eq_ok_iff {c : Command} {i : Bool → Instr} {j : Instr} :
    formatB c i = .ok j ↔ ∃ b : Bool, i b = j ∧ BitVec.ofNat 11 b.toNat = headIndex c.head ∧ c.data = 0 := by
  unfold formatB
  constructor
  · intro h
    split at h
    · cases h
    · rename_i hx
      split at h
      · cases h
      · rename_i hd
        cases h
        exact ⟨_, rfl, index_eq_of_div_two (not_not.1 hx), not_not.1 hd⟩
  · rintro ⟨b, rfl, hx, hd⟩
    cases b <;> simp [← hx, hd]

theorem formatXN_eq_ok_iff {P : Params} {c : Command} {i : Index → NodeWord → Instr} {j : Instr} :
    formatXN P c i = .ok j ↔
      ∃ word, i (headIndex c.head) word = j ∧ c.data / 2 ^ P.nodew = 0 ∧ readNodeWord P c.data = some word := by
  unfold formatXN
  split
  · simp_all
  · cases readNodeWord P c.data <;> simp_all

theorem formatSC_eq_ok_iff {P : Params} {c : Command} {i : Index → Codeword → Instr} {j : Instr} :
    formatSC P c i = .ok j ↔
      ∃ entry, i (headIndex c.head) entry = j ∧ c.data / 2 ^ P.ctw = 0 ∧ readEntry P c.data = some entry := by
  unfold formatSC
  split
  · simp_all
  · cases readEntry P c.data <;> simp_all

theorem formatSF_eq_ok_iff {P : Params} {c : Command} {i : Index → Nat → Instr} {j : Instr} :
    formatSF P c i = .ok j ↔ i (headIndex c.head) c.data = j ∧ c.data / 2 ^ P.ww = 0 := by
  unfold formatSF
  split <;> simp_all

/-! ## What the decoder reads (R73, R76) -/

/-- The data field `d` is in the layout of the command's format and holds its data operand; zero in a format without one
(R74, R92, R94). -/
def DataReads (P : Params) (d : Nat) : Instr → Prop
  | .wrnode _ word => d / 2 ^ P.nodew = 0 ∧ readNodeWord P d = some word
  | .wrct _ entry => d / 2 ^ P.ctw = 0 ∧ readEntry P d = some entry
  | .wrfreq _ w => d = w ∧ d / 2 ^ P.ww = 0
  | _ => d = 0

/-- The three fields of the command `c` are those of `i` (R73). -/
structure Decodes (P : Params) (c : Command) (i : Instr) : Prop where
  opcode : opcodeOf i = headOpcode c.head
  index : indexOf i = headIndex c.head
  data : DataReads P c.data i

theorem decodes_of_formatN {P : Params} {c : Command} {i j : Instr} (h : formatN c i = .ok j)
    (hop : (headOpcode c.head).toNat = (opcodeOf i).toNat) (hx : indexOf i = 0#11) (hd : DataReads P 0 i) :
    Decodes P c j := by
  obtain ⟨rfl, hidx, hdata⟩ := formatN_eq_ok_iff.1 h
  exact ⟨BitVec.eq_of_toNat_eq hop.symm, hx.trans hidx.symm, hdata ▸ hd⟩

theorem decodes_of_formatIndex {P : Params} {c : Command} {i : Index → Instr} {j : Instr}
    (h : formatIndex c i = .ok j) (hop : (headOpcode c.head).toNat = (opcodeOf (i (headIndex c.head))).toNat)
    (hx : indexOf (i (headIndex c.head)) = headIndex c.head) (hd : DataReads P 0 (i (headIndex c.head))) :
    Decodes P c j := by
  obtain ⟨rfl, hdata⟩ := formatIndex_eq_ok_iff.1 h
  exact ⟨BitVec.eq_of_toNat_eq hop.symm, hx, hdata ▸ hd⟩

theorem decodes_of_decode {P : Params} {c : Command} {i : Instr} (h : decode P c = .ok i) : Decodes P c i := by
  unfold decode at h
  split at h <;> rename_i hop
  · exact decodes_of_formatN h hop rfl rfl
  · exact decodes_of_formatN h hop rfl rfl
  · exact decodes_of_formatIndex h hop rfl rfl
  · obtain ⟨word, rfl, hd⟩ := formatXN_eq_ok_iff.1 h
    exact ⟨BitVec.eq_of_toNat_eq hop.symm, rfl, hd⟩
  · exact decodes_of_formatIndex h hop rfl rfl
  · obtain ⟨entry, rfl, hd⟩ := formatSC_eq_ok_iff.1 h
    exact ⟨BitVec.eq_of_toNat_eq hop.symm, rfl, hd⟩
  · exact decodes_of_formatIndex h hop rfl rfl
  · obtain ⟨rfl, hd⟩ := formatSF_eq_ok_iff.1 h
    exact ⟨BitVec.eq_of_toNat_eq hop.symm, rfl, rfl, hd⟩
  · exact decodes_of_formatIndex h hop rfl rfl
  · exact decodes_of_formatIndex h hop rfl rfl
  · exact decodes_of_formatN h hop rfl rfl
  · exact decodes_of_formatIndex h hop rfl rfl
  · exact decodes_of_formatN h hop rfl rfl
  · exact decodes_of_formatN h hop rfl rfl
  · exact decodes_of_formatIndex h hop rfl rfl
  · exact decodes_of_formatN h hop rfl rfl
  · obtain ⟨b, rfl, hx, hd⟩ := formatB_eq_ok_iff.1 h
    exact ⟨BitVec.eq_of_toNat_eq hop.symm, hx, hd⟩
  · exact decodes_of_formatN h hop rfl rfl
  · cases h

theorem Decodes.decode_eq {P : Params} {c : Command} {i : Instr} (h : Decodes P c i) : decode P c = .ok i := by
  obtain ⟨hop, hx, hd⟩ := h
  rw [decode, ← hop]
  cases i with
  | nop | reset | clrfreq | build | derive | dstart | dend => exact formatN_eq_ok_iff.2 ⟨rfl, hx.symm, hd⟩
  | rdreg x | rdnode x | rdct x | rdfreq x | setroot x | count x | esym x =>
    exact formatIndex_eq_ok_iff.2 ⟨congrArg _ hx.symm, hd⟩
  | wrnode x word => exact formatXN_eq_ok_iff.2 ⟨word, congrArg (Instr.wrnode · word) hx.symm, hd⟩
  | wrct x entry => exact formatSC_eq_ok_iff.2 ⟨entry, congrArg (Instr.wrct · entry) hx.symm, hd⟩
  | wrfreq x w => exact formatSF_eq_ok_iff.2 ⟨congrArg₂ Instr.wrfreq hx.symm hd.1, hd.2⟩
  | dbit b => exact formatB_eq_ok_iff.2 ⟨b, rfl, hx, hd⟩

/-- The whole decoder: a command decodes to the one instruction whose fields it holds (R73 to R76, R92). -/
theorem decode_eq_ok_iff {P : Params} {c : Command} {i : Instr} : decode P c = .ok i ↔ Decodes P c i :=
  ⟨decodes_of_decode, Decodes.decode_eq⟩

/-! ## The data field and the data operand (R80 to R84, R94) -/

theorem readNodeWord_nodeWordNum {P : Params} {word : NodeWord} (h : word.wf P = true) :
    readNodeWord P (nodeWordNum P word) = some word := by
  cases word with
  | leaf w y =>
    obtain ⟨hw, hy⟩ := wf_leaf_iff.1 h
    exact (readNodeWord_leaf P w y hw hy).1
  | internal w l r =>
    obtain ⟨hw, hl, hr⟩ := wf_internal_iff.1 h
    exact (readNodeWord_internal P w l r hw hl hr).1

/-- A data field that is read is the number of the operand it holds. -/
theorem DataReads.dataOf_eq {P : Params} (hP : P.legal = true) {d : Nat} {i : Instr} (h : DataReads P d i) :
    dataOf P i = d := by
  cases i with
  | wrnode x word => exact (nodeWordNum_of_read P hP d word h.1 h.2).1
  | wrct x entry => exact (entryNum_of_read P hP d entry h.1 h.2).1
  | wrfreq x w => exact h.1.symm
  | _ => exact h.symm

/-- The number of a well-formed operand is a data field that reads as it. -/
theorem dataReads_dataOf {P : Params} (hP : P.legal = true) {i : Instr} (h : i.wf P = true) :
    DataReads P (dataOf P i) i := by
  cases i with
  | wrnode x word => exact ⟨Nat.div_eq_of_lt (nodeWordNum_lt h), readNodeWord_nodeWordNum h⟩
  | wrct x entry =>
    obtain ⟨hread, hlt⟩ := readEntry_entryNum P hP entry (of_decide_eq_true h)
    exact ⟨Nat.div_eq_of_lt hlt, hread⟩
  | wrfreq x w => exact ⟨rfl, Nat.div_eq_of_lt (of_decide_eq_true h)⟩
  | _ => rfl

theorem dataOf_lt_two_pow_dw {P : Params} (hP : P.legal = true) {i : Instr} (h : i.wf P = true) :
    dataOf P i < 2 ^ P.dw := by
  obtain ⟨hctw, hnodew, hww, -⟩ := widths_le_dw P
  cases i with
  | wrnode x word => exact lt_two_pow_dw (Laws.DataFits.wrnode x word P hP h) (Nat.le_of_succ_le hnodew)
  | wrct x entry => exact lt_two_pow_dw (Laws.DataFits.wrct x entry P hP h) hctw
  | wrfreq x w => exact lt_two_pow_dw (Laws.DataFits.wrfreq x w P hP h) hww
  | _ => exact Nat.two_pow_pos _

/-! ## `decode` and `encode` are inverse (R73 to R76) -/

theorem decodes_encode {P : Params} (hP : P.legal = true) {i : Instr} (h : i.wf P = true) : Decodes P (encode P i) i where
  opcode := (headOpcode_headOf _ _).symm
  index := (headIndex_headOf _ _).symm
  data := dataReads_dataOf hP h

theorem Decodes.encode_eq {P : Params} (hP : P.legal = true) {c : Command} {i : Instr} (h : Decodes P c i) :
    encode P i = c := by
  rw [encode, h.opcode, h.index, h.data.dataOf_eq hP, headOf_fields]

/-- Settles O54: the encoding of a well-formed command holds exactly its fields, and the decoder reads those. -/
theorem decodeOfEncodeIsTheCommand : Obligations.DecodeOfEncodeIsTheCommand := fun _ _ hP hi =>
  ⟨decode_eq_ok_iff.2 (decodes_encode hP hi), decide_eq_true (dataOf_lt_two_pow_dw hP hi)⟩

/-- Settles O55: what decodes holds the fields of its instruction, and the encoder writes those. -/
theorem encodeOfDecodeIsTheWord : Obligations.EncodeOfDecodeIsTheWord := fun _ _ _ hP h =>
  ⟨decode_wf hP h, (decode_eq_ok_iff.1 h).encode_eq hP⟩

end Sys2Proof.Machine
end

section
/-! The opcode table's rows as the fields of a head, the reserved opcodes, and the assembled commands of R98. -/

namespace Sys2Proof.Machine

/-! ## The rows of the opcode table (R76) -/

/-- The bits of the index field that the format fixes to zero: all in format N, all but bit 0 in format B (R74, R75). -/
def fixedIndexBits : Instr → Index
  | .rdreg _ | .wrnode _ _ | .rdnode _ | .wrct _ _ | .rdct _ | .wrfreq _ _ | .rdfreq _ | .setroot _ | .count _
  | .esym _ => 0#11
  | .dbit _ => 0x7FE#11
  | _ => BitVec.allOnes 11

/-- The row of a command: its opcode above an index field of zeros, the mask of the opcode and of the fixed index bits. -/
def rowOf (i : Instr) : OpcodeRow where
  mnemonic := mnemonicOf i
  bits := headOf (opcodeOf i) 0#11
  mask := headOf (BitVec.allOnes 5) (fixedIndexBits i)

/-- The command of the same row with the index `x`, where its format has one, and zero data. -/
def atIndex (x : Index) : Instr → Instr
  | .rdreg _ => .rdreg x
  | .wrnode _ _ => .wrnode x (.leaf 0 0)
  | .rdnode _ => .rdnode x
  | .wrct _ _ => .wrct x []
  | .rdct _ => .rdct x
  | .wrfreq _ _ => .wrfreq x 0
  | .rdfreq _ => .rdfreq x
  | .setroot _ => .setroot x
  | .count _ => .count x
  | .esym _ => .esym x
  | .dbit _ => .dbit (x.toNat % 2 == 1)
  | i => i

/-- One command for each row, in the table's order. -/
def rowCommands : List Instr :=
  [.nop, .reset, .rdreg 0#11, .wrnode 0#11 (.leaf 0 0), .rdnode 0#11, .wrct 0#11 [], .rdct 0#11, .wrfreq 0#11 0,
    .rdfreq 0#11, .setroot 0#11, .clrfreq, .count 0#11, .build, .derive, .esym 0#11, .dstart, .dbit false, .dend]

theorem opcodeTable_eq : opcodeTable = rowCommands.map rowOf := by decide

@[simp] theorem rowOf_atIndex (x : Index) (i : Instr) : rowOf (atIndex x i) = rowOf i := by cases i <;> rfl

theorem atIndex_zero_mem_rowCommands (i : Instr) : atIndex 0#11 i ∈ rowCommands := by
  cases i <;> simp [atIndex, rowCommands]

theorem mem_opcodeTable_iff {row : OpcodeRow} : row ∈ opcodeTable ↔ ∃ i, rowOf i = row := by
  rw [opcodeTable_eq, List.mem_map]
  constructor
  · rintro ⟨i, -, rfl⟩
    exact ⟨i, rfl⟩
  · rintro ⟨i, rfl⟩
    exact ⟨_, atIndex_zero_mem_rowCommands i, rowOf_atIndex 0#11 i⟩

theorem headOf_and (op op' : Opcode) (x x' : Index) :
    headOf op x &&& headOf op' x' = headOf (op &&& op') (x &&& x') := BitVec.and_append

theorem headOf_inj {op op' : Opcode} {x x' : Index} : headOf op x = headOf op' x' ↔ op = op' ∧ x = x' := by
  constructor
  · intro h
    exact ⟨by simpa using congrArg headOpcode h, by simpa using congrArg headIndex h⟩
  · rintro ⟨rfl, rfl⟩
    rfl

/-- A head matches a row when it has the row's opcode and zeros in the fixed bits of the index. -/
theorem matches_rowOf_iff (h : Head) (i : Instr) :
    h &&& (rowOf i).mask = (rowOf i).bits ↔ headOpcode h = opcodeOf i ∧ headIndex h &&& fixedIndexBits i = 0#11 := by
  rw [rowOf, ← headOf_fields h, headOf_and, BitVec.and_allOnes, headOf_inj, headOpcode_headOf, headIndex_headOf]

/-! ## Heads with zero data (R76) -/

theorem indexOf_and_fixedIndexBits (i : Instr) : indexOf i &&& fixedIndexBits i = 0#11 := by
  cases i with
  | dbit b => cases b <;> rfl
  | _ => simp [indexOf, fixedIndexBits]

theorem readNodeWord_zero (P : Params) : readNodeWord P 0 = some (.leaf 0 0) := by simp [readNodeWord, field]

theorem readEntry_zero (P : Params) : readEntry P 0 = some [] := by simp [readEntry, field, codeBits]

/-- An index whose bits above bit 0 are zero. -/
theorem toNat_div_two_of_and {x : Index} (h : x &&& 0x7FE#11 = 0#11) : x.toNat / 2 = 0 := by
  have hx : x = x &&& 1#11 := by
    calc x = x &&& (0x7FE#11 ||| 1#11) := (BitVec.and_allOnes).symm
      _ = x &&& 1#11 := by rw [BitVec.and_or_distrib_left, h, BitVec.zero_or]
  have : x.toNat = x.toNat % 2 := by simpa using congrArg BitVec.toNat hx
  omega

/-- A head that matches a row decodes, with zero data, to the row's command at the head's index. -/
theorem decodes_atIndex {P : Params} {h : Head} {i : Instr} (hop : headOpcode h = opcodeOf i)
    (hx : headIndex h &&& fixedIndexBits i = 0#11) :
    Decodes P { head := h, data := 0 } (atIndex (headIndex h) i) := by
  cases i with
  | rdreg | rdnode | rdct | rdfreq | setroot | count | esym => exact ⟨hop.symm, rfl, rfl⟩
  | wrnode => exact ⟨hop.symm, rfl, Nat.zero_div _, readNodeWord_zero P⟩
  | wrct => exact ⟨hop.symm, rfl, Nat.zero_div _, readEntry_zero P⟩
  | wrfreq => exact ⟨hop.symm, rfl, rfl, Nat.zero_div _⟩
  | dbit => exact ⟨hop.symm, index_eq_of_div_two (toNat_div_two_of_and hx), rfl⟩
  | _ => exact ⟨hop.symm, (BitVec.and_allOnes.symm.trans hx).symm, rfl⟩

/-- Settles O56: the rows of the table are those of the commands, and a head matches a command's row exactly when it carries
its opcode and an index that its format admits. -/
theorem decoderAgreesWithTheOpcodeTable : Obligations.DecoderAgreesWithTheOpcodeTable := by
  intro P h name
  constructor
  · rintro ⟨i, hi, hname⟩
    have hd := decode_eq_ok_iff.1 hi
    exact ⟨rowOf i, mem_opcodeTable_iff.2 ⟨i, rfl⟩, hname,
      (matches_rowOf_iff h i).2 ⟨hd.opcode.symm, hd.index ▸ indexOf_and_fixedIndexBits i⟩⟩
  · rintro ⟨row, hrow, hname, hmatch⟩
    obtain ⟨i, rfl⟩ := mem_opcodeTable_iff.1 hrow
    obtain ⟨hop, hx⟩ := (matches_rowOf_iff h i).1 hmatch
    exact ⟨_, decode_eq_ok_iff.2 (decodes_atIndex hop hx), (congrArg OpcodeRow.mnemonic (rowOf_atIndex _ i)).trans hname⟩

/-! ## The reserved opcodes (R91) -/

theorem headOpcode_toNat (h : Head) : (headOpcode h).toNat = h.toNat / 2048 := by
  have := h.isLt
  simp only [headOpcode, BitVec.extractLsb'_toNat, Nat.shiftRight_eq_div_pow]
  omega

theorem headIndex_toNat (h : Head) : (headIndex h).toNat = h.toNat % 2048 := by
  simp [headIndex]

/-- An opcode of no command is reserved (R91). -/
theorem decode_of_opcodeOf_ne {P : Params} {c : Command} (h : ∀ i, opcodeOf i ≠ headOpcode c.head) :
    ∃ e, decode P c = .error e := by
  cases hc : decode P c with
  | error e => exact ⟨e, rfl⟩
  | ok i => exact absurd (decode_eq_ok_iff.1 hc).opcode (h i)

/-- Settles O57: no command has one of these opcodes, so that nothing decodes from it. -/
theorem reservedOpcodesAreIllegal : Obligations.ReservedOpcodesAreIllegal := by
  intro s c hf hop
  rw [← headOpcode_toNat] at hop
  obtain ⟨e, he⟩ : ∃ e, decode s.inst c = .error e := by
    refine decode_of_opcodeOf_ne fun i hi => ?_
    rw [← hi] at hop
    cases i <;> simp [opcodeOf] at hop
  exact takeCommand_error hf he

/-- Settles O58, by running the decoder on each word. -/
theorem assembledCommandsDecodeAsWritten : Obligations.AssembledCommandsDecodeAsWritten :=
  ⟨rfl, rfl, rfl, rfl, rfl⟩

end Sys2Proof.Machine
end

section
/-! The order of a command's checks, the drops of the faulted state, and the step as the performance of one command. -/

namespace Sys2Proof.Machine

/-! ## The index check and the session check (R93, R95) -/

/-- The register numbers are 0 to 6 (R32). -/
theorem isSome_registerOf_iff (x : Index) : (registerOf x).isSome ↔ x.toNat < 7 := by
  unfold registerOf
  generalize x.toNat = n
  match n with
  | 0 | 1 | 2 | 3 | 4 | 5 | 6 => simp
  | n + 7 => simp

theorem requireIndex_neg {ok : Bool} (h : ok = false) (x : Index) (s : State) (k : Result) :
    requireIndex ok x s k = .next (raise .badIndex x.toNat s) := by
  simp [requireIndex, h]

/-- A check that fails comes to its `raise` in every state: under the freeze that is a drop (R90). -/
theorem unlessFaulted_raise {s : State} {k : Result} {f : FaultCode} {info : Nat} (h : k = .next (raise f info s)) :
    unlessFaulted s k = .next (raise f info s) := by
  by_cases hf : s.fault = none
  · rw [unlessFaulted_live hf, h]
  · rw [unlessFaulted_faulted hf, raise_faulted hf]

/-- A command with an index outside its space comes to the BadIndex of its index (R93). -/
theorem exec_of_indexInSpace_false {s : State} {i : Instr} (h : indexInSpace s.inst i = false) :
    exec i s = .next (raise .badIndex (indexOf i).toNat s) := by
  cases i with
  | rdreg x =>
    have hr : registerOf x = none :=
      Option.not_isSome_iff_eq_none.1 ((isSome_registerOf_iff x).not.2 (of_decide_eq_false h))
    simp [exec, execRdreg, hr, indexOf]
  | rdnode x | rdct x | rdfreq x => exact requireIndex_neg h x s _
  | wrnode x _ | wrct x _ | wrfreq x _ | setroot x | count x | esym x =>
    exact unlessFaulted_raise (requireIndex_neg h x s _)
  | _ => cases h

/-- A command whose index is in its space but which the session state forbids comes to the SeqError of its opcode (R28,
R95). -/
theorem exec_of_sessionAllows_false {s : State} {i : Instr} (hx : indexInSpace s.inst i = true)
    (h : sessionAllows s.dact i = false) : exec i s = .next (raise .seqError (opcodeOf i).toNat s) := by
  cases i with
  | wrnode | setroot =>
    have hd : ¬ s.dact = false := by simpa [sessionAllows] using h
    exact unlessFaulted_raise ((require_pos hx _ _ _ _).trans (require_neg hd _ _ _ _))
  | build | dstart =>
    have hd : ¬ s.dact = false := by simpa [sessionAllows] using h
    exact unlessFaulted_raise (require_neg hd _ _ _ _)
  | dbit | dend =>
    have hd : ¬ s.dact = true := by simpa [sessionAllows] using h
    exact unlessFaulted_raise (require_neg hd _ _ _ _)
  | _ => cases h

/-- Settles O40: the decoder, the index check and the session check each raise before the command does anything, with the
head, the index and the opcode of the command as their info. -/
theorem theFirstFailedCheckIsReported : Obligations.TheFirstFailedCheckIsReported := by
  intro s c hf
  refine ⟨fun e he => takeCommand_error hf he, fun i hi hx => ?_, fun i hi hx hd => ?_⟩
  · rw [takeCommand_ok hi, exec_of_indexInSpace_false hx, raise_live hf, (decode_eq_ok_iff.1 hi).index, headIndex_toNat]
  · rw [takeCommand_ok hi, exec_of_sessionAllows_false hx hd, raise_live hf, (decode_eq_ok_iff.1 hi).opcode,
      headOpcode_toNat]

/-! ## The faulted state (R90) -/

/-- Only RESET, NOP and the reads have no freeze, and NOP does nothing. -/
theorem exec_of_faulted {s : State} {i : Instr} (hf : s.fault ≠ none) (hi : i ≠ .reset) (hr : isRead i = false) :
    exec i s = .next s := by
  cases i with
  | reset => contradiction
  | nop => rfl
  | rdreg | rdnode | rdct | rdfreq => cases hr
  | _ => exact unlessFaulted_faulted hf _

/-- A read with its index in its space responds in every operating state (R103, R106, R108, R110). -/
theorem exec_read {s : State} {i : Instr} (hr : isRead i = true) (hx : indexInSpace s.inst i = true) :
    ∃ v, exec i s = .next (respond v s) := by
  cases i with
  | rdreg x =>
    obtain ⟨r, hreg⟩ := Option.isSome_iff_exists.1 ((isSome_registerOf_iff x).2 (of_decide_eq_true hx))
    exact ⟨registerValue s r, by simp [exec, execRdreg, hreg]⟩
  | rdnode x => exact ⟨_, exec_rdnode hx⟩
  | rdct x => exact ⟨_, exec_rdct hx⟩
  | rdfreq x => exact ⟨_, exec_rdfreq hx⟩
  | _ => cases hr

/-- Settles O38: a refused command and a failed check come to a `raise`, which changes nothing here, the freeze drops the
rest, and the reads, NOP and RESET do not ask for FAULT. -/
theorem faultedStateDropsAllButResetAndReads : Obligations.FaultedStateDropsAllButResetAndReads := by
  intro s hf
  refine ⟨fun c e he => takeCommand_error_faulted hf he, fun i hi hr => exec_of_faulted hf hi hr, fun i hr hx => ?_,
    fun i hr hx => exec_read hr hx, rfl, toReset s, rfl, rfl⟩
  rw [exec_of_indexInSpace_false hx, raise_faulted hf]

/-! ## The step (R71) -/

theorem step_of_command {s : State} {c : Command} {rest : List HostInput} (h : s.cmdq = .command c :: rest) :
    step s = takeCommand c { s with cmdq := rest } := by
  simp [step, serviceHost, h]

theorem step_of_idle {s : State} (h : s.cmdq = []) : step s = .next s := by simp [step, serviceHost, h]

/-- Settles O53: the next command is taken off the inputs, and taken it is performed or refused. -/
theorem stepPerformsTheDecodedCommand : Obligations.StepPerformsTheDecodedCommand := by
  refine ⟨fun s c rest i hq hi => ?_, fun s c rest e hq he => ?_, fun s hq => step_of_idle hq⟩
  · exact (step_of_command hq).trans (takeCommand_ok hi)
  · rw [step_of_command hq]
    split
    · rename_i hf
      exact takeCommand_error hf he
    · rename_i hf
      exact takeCommand_error_faulted hf he

end Sys2Proof.Machine
end

section
/-! What the rules of the host access commands need: failed checks, refused commands, the data layouts bit by bit, and the
effect of each command once its checks pass. -/

namespace Sys2Proof.Machine

/-! ## A failed check of an unfaulted state (R28, R93) -/

theorem exec_badIndex {s : State} {i : Instr} (hf : s.fault = none) (h : indexInSpace s.inst i = false) :
    exec i s = .next (raised .badIndex (indexOf i).toNat s) := by
  rw [exec_of_indexInSpace_false h, raise_live hf]

theorem exec_seqError {s : State} {i : Instr} (hf : s.fault = none) (hx : indexInSpace s.inst i = true)
    (h : sessionAllows s.dact i = false) : exec i s = .next (raised .seqError (opcodeOf i).toNat s) := by
  rw [exec_of_sessionAllows_false hx h, raise_live hf]

/-! ## A command that does not decode (R90, R91, R92) -/

theorem decode_error_of_ne_ok {P : Params} {c : Command} (h : ∀ i, decode P c ≠ .ok i) : ∃ e, decode P c = .error e := by
  cases hc : decode P c with
  | ok i => exact absurd hc (h i)
  | error e => exact ⟨e, rfl⟩

theorem toNat_headValue {base : Nat} {op : Opcode} (h : base = op.toNat * 2048) (x : Index) :
    (headValue base x).toNat = base + x.toNat := by
  rw [h, headValue_headOf, headOf_toNat]; rfl

theorem takeCommand_illegal {s : State} {base : Nat} {op : Opcode} {x : Index} {d : Nat} (hb : base = op.toNat * 2048)
    (hf : s.fault = none) (h : ∀ i, decode s.inst { head := headValue base x, data := d } ≠ .ok i) :
    takeCommand { head := headValue base x, data := d } s = .next (raised .illegalCommand (base + x.toNat) s) := by
  obtain ⟨e, he⟩ := decode_error_of_ne_ok h
  rw [takeCommand_error hf he, toNat_headValue hb]

/-! ## What RESET and the write commands decode from (R74, R76) -/

theorem decode_reset_iff {P : Params} {x : Index} {d : Nat} {i : Instr} :
    decode P { head := headValue 0x0800 x, data := d } = .ok i ↔ .reset = i ∧ x = 0#11 ∧ d = 0 := by
  obtain ⟨hop, hidx⟩ := headValue_fields (base := 0x0800) (op := 0x01#5) rfl x
  rw [decode, hop]
  exact formatN_eq_ok_iff.trans (by rw [hidx])

theorem decode_wrnode_iff {P : Params} {x : Index} {d : Nat} {i : Instr} :
    decode P { head := headValue 0x2000 x, data := d } = .ok i ↔
      ∃ word, .wrnode x word = i ∧ d / 2 ^ P.nodew = 0 ∧ readNodeWord P d = some word := by
  obtain ⟨hop, hidx⟩ := headValue_fields (base := 0x2000) (op := 0x04#5) rfl x
  rw [decode, hop]
  exact formatXN_eq_ok_iff.trans (by rw [hidx])

theorem decode_wrct_iff {P : Params} {x : Index} {d : Nat} {i : Instr} :
    decode P { head := headValue 0x3000 x, data := d } = .ok i ↔
      ∃ entry, .wrct x entry = i ∧ d / 2 ^ P.ctw = 0 ∧ readEntry P d = some entry := by
  obtain ⟨hop, hidx⟩ := headValue_fields (base := 0x3000) (op := 0x06#5) rfl x
  rw [decode, hop]
  exact formatSC_eq_ok_iff.trans (by rw [hidx])

theorem decode_wrfreq_iff {P : Params} {x : Index} {d : Nat} {i : Instr} :
    decode P { head := headValue 0x4000 x, data := d } = .ok i ↔ .wrfreq x d = i ∧ d / 2 ^ P.ww = 0 := by
  obtain ⟨hop, hidx⟩ := headValue_fields (base := 0x4000) (op := 0x08#5) rfl x
  rw [decode, hop]
  exact formatSF_eq_ok_iff.trans (by rw [hidx])

/-! ## The node word's layout: a Leaf's reserved bits (R82, R94) -/

theorem readNodeWord_reserved {P : Params} {d : Nat} (hk : d / 2 ^ (P.nodew - 1) % 2 = 0)
    (hr : d % 2 ^ (2 * P.na) / 2 ^ P.sw ≠ 0) : readNodeWord P d = none := by
  have hna : P.na = P.sw + 1 := rfl
  have hkind : field d (P.nodew - 1) (P.nodew - 1) = 0 := by rw [field_eq _ _ _ 1 rfl, Nat.pow_one, hk]
  have hreserved : field d (2 * P.na - 1) P.sw ≠ 0 := by
    rw [field_eq _ _ _ (2 * P.na - P.sw) (by omega), ← Nat.mod_mul_right_div_self, ← Nat.pow_add]
    rwa [show P.sw + (2 * P.na - P.sw) = 2 * P.na by omega]
  simp [readNodeWord, hkind, hreserved]

/-! ## The code-table entry's layout, bit by bit (R84, R94) -/

theorem codeBits_eq_map_testBit (len code : Nat) : codeBits len code = (List.range len).map code.testBit := by
  induction len generalizing code with
  | zero => rfl
  | succ len ih =>
    simp only [codeBits, ih, List.range_succ_eq_map, List.map_cons, List.map_map, Nat.testBit_zero, List.cons.injEq]
    exact ⟨rfl, List.map_congr_left fun k _ => (Nat.testBit_succ code k).symm⟩

theorem testBit_codeNum (entry : Codeword) (k : Nat) : (codeNum entry).testBit k = entry[k]?.getD false := by
  induction entry generalizing k with
  | nil => simp [codeNum]
  | cons b rest ih =>
    cases k with
    | zero => cases b <;> simp [codeNum, Nat.testBit_zero]
    | succ k =>
      have hhalf : (b.toNat + 2 * codeNum rest) / 2 = codeNum rest := by cases b <;> simp; omega
      rw [codeNum, Nat.testBit_succ, hhalf, ih, List.getElem?_cons_succ]

/-- The low `n` bits of a number make a number of `len` bits when none of them is set at a position of `len` or more. -/
theorem mod_two_pow_lt_two_pow_iff {d n len : Nat} :
    d % 2 ^ n < 2 ^ len ↔ ∀ k, len ≤ k → k < n → d.testBit k = false := by
  constructor
  · intro h k hk hkn
    have hbit := Nat.testBit_lt_two_pow (lt_of_lt_of_le h (Nat.pow_le_pow_right two_pos hk))
    simpa [Nat.testBit_mod_two_pow, hkn] using hbit
  · intro h
    refine Nat.lt_pow_two_of_testBit _ fun k hk => ?_
    rw [Nat.testBit_mod_two_pow]
    by_cases hkn : k < n
    · simp [h k hk hkn]
    · simp [hkn]

/-- What a data field of CTW bits holds: LEN above CLMAX, and CODE with no bit at a position of LEN or more (R84, R94). -/
theorem readEntry_eq_some_iff {P : Params} (hP : P.legal = true) {d : Nat} (hd : d < 2 ^ P.ctw) {c : Codeword} :
    readEntry P d = some c ↔ d / 2 ^ P.clmax ≤ P.clmax ∧
      (∀ k, d / 2 ^ P.clmax ≤ k → k < P.clmax → d.testBit k = false) ∧
      (List.range (d / 2 ^ P.clmax)).map d.testBit = c := by
  obtain ⟨-, -, -, -, hclmax, -⟩ := of_decide_eq_true hP
  have hlen : field d (P.ctw - 1) P.clmax = d / 2 ^ P.clmax := by
    rw [field_eq _ _ _ P.lw (by unfold Params.ctw; omega)]
    refine Nat.mod_eq_of_lt ((Nat.div_lt_iff_lt_mul (Nat.two_pow_pos _)).2 ?_)
    rwa [← Nat.pow_add]
  have hcode : field d (P.clmax - 1) 0 = d % 2 ^ P.clmax := by
    rw [field_eq _ _ _ P.clmax (by omega), Nat.pow_zero, Nat.div_one]
  have hbits (h : d / 2 ^ P.clmax ≤ P.clmax) :
      codeBits (d / 2 ^ P.clmax) (d % 2 ^ P.clmax) = (List.range (d / 2 ^ P.clmax)).map d.testBit := by
    rw [codeBits_eq_map_testBit]
    refine List.map_congr_left fun k hk => ?_
    have hk : k < P.clmax := lt_of_lt_of_le (List.mem_range.1 hk) h
    simp [Nat.testBit_mod_two_pow, hk]
  simp only [readEntry, hlen, hcode, mod_two_pow_lt_two_pow_iff]
  split
  · rename_i h
    obtain ⟨hle, hzero⟩ := h
    rw [hbits hle, Option.some.injEq]
    exact ⟨fun hc => ⟨hle, hzero, hc⟩, fun hc => hc.2.2⟩
  · rename_i h
    simp [← and_assoc, h]

theorem codeNum_lt_two_pow_clmax {P : Params} {entry : Codeword} (hc : entry.length ≤ P.clmax) :
    codeNum entry < 2 ^ P.clmax :=
  lt_of_lt_of_le (codeNum_lt entry) (Nat.pow_le_pow_right two_pos hc)

theorem entryNum_div_two_pow {P : Params} {entry : Codeword} (hc : entry.length ≤ P.clmax) :
    entryNum P entry / 2 ^ P.clmax = entry.length :=
  (div_mod_split _ _ _ (Nat.two_pow_pos _) (codeNum_lt_two_pow_clmax hc)).1

theorem testBit_entryNum {P : Params} {entry : Codeword} (hc : entry.length ≤ P.clmax) {k : Nat} (hk : k < P.clmax) :
    (entryNum P entry).testBit k = entry[k]?.getD false := by
  rw [entryNum, Nat.mul_comm, Nat.testBit_two_pow_mul_add _ (codeNum_lt_two_pow_clmax hc), if_pos hk, testBit_codeNum]

/-! ## What each command does once its checks pass -/

theorem exec_wrnode {s : State} {x : Index} (hf : s.fault = none) (hx : isNode s.inst x = true) (hd : s.dact = false)
    (word : NodeWord) : exec (.wrnode x word) s = .next { s with mem := s.mem.writeNode x.toNat word } :=
  (unlessFaulted_live hf _).trans ((require_pos hx _ _ _ _).trans (require_pos hd _ _ _ _))

theorem exec_wrct {s : State} {x : Index} (hf : s.fault = none) (hx : isSymbol s.inst x = true) (c : Codeword) :
    exec (.wrct x c) s = .next { s with mem := s.mem.writeCt x.toNat c } :=
  (unlessFaulted_live hf _).trans (require_pos hx _ _ _ _)

theorem exec_wrfreq {s : State} {x : Index} (hf : s.fault = none) (hx : isSymbol s.inst x = true) (w : Nat) :
    exec (.wrfreq x w) s = .next { s with mem := s.mem.writeFreq x.toNat w } :=
  (unlessFaulted_live hf _).trans (require_pos hx _ _ _ _)

theorem exec_setroot {s : State} {x : Index} (hf : s.fault = none) (hx : isNodeOrNil s.inst x = true)
    (hd : s.dact = false) : exec (.setroot x) s = .next { s with root := x.toNat } :=
  (unlessFaulted_live hf _).trans ((require_pos hx _ _ _ _).trans (require_pos hd _ _ _ _))

theorem exec_clrfreq {s : State} (hf : s.fault = none) :
    exec .clrfreq s = .next { s with mem := s.mem.clearFreq } := unlessFaulted_live hf _

theorem exec_rdreg {s : State} {x : Index} {r : Register} (h : registerOf x = some r) :
    exec (.rdreg x) s = .next (respond (registerValue s r) s) := by
  simp [exec, execRdreg, h]

/-- DSTART of an idle state without a root (R181). -/
theorem exec_dstart_noTree {s : State} (hf : s.fault = none) (hd : s.dact = false) (hr : s.root = s.inst.nil) :
    exec .dstart s = .next (raised .noTree 0 s) := by
  rw [← raise_live hf]
  exact (unlessFaulted_live hf _).trans ((require_pos hd _ _ _ _).trans (require_neg (not_not.2 hr) _ _ _ _))

/-! ## The registers (R32, R103) -/

theorem status_eq (s : State) : status s = (if s.fault = none then 0 else 2) + (if s.dact then 1 else 0) := by
  unfold status flt
  cases s.fault <;> cases s.dact <;> rfl

theorem getElem?_registers (s : State) (x : Index) :
    [status s, faultNumber s.fault, s.finfo.toNat, s.root, s.nnode, s.cur, s.pos][x.toNat]? =
      (registerOf x).map (registerValue s) := by
  unfold registerOf
  generalize x.toNat = n
  match n with
  | 0 | 1 | 2 | 3 | 4 | 5 | 6 | n + 7 => rfl

end Sys2Proof.Machine
end

section
/-! The rules of the host access commands (R100 to R112). -/

namespace Sys2Proof.Machine

/-- Settles O4: the data field reads as the two layouts of R81 and R82 or not at all, then the index, then the session. -/
theorem wrnodeMakesOneEntryValid : Obligations.WrnodeMakesOneEntryValid := by
  refine ⟨fun P x w y hw hy => ?leaf, fun P x w l r hw hl hr => ?internal, fun s x d hf hd => ?layout,
    fun s x word hf hx => ?index, fun s x word hf hx hd => ?session, fun s x word hf hx hd => ?written⟩
  case leaf =>
    obtain ⟨hread, hdata⟩ := readNodeWord_leaf P w y hw hy
    exact decode_wrnode_iff.2 ⟨_, rfl, hdata, hread⟩
  case internal =>
    obtain ⟨hread, hdata⟩ := readNodeWord_internal P w l r hw hl hr
    exact decode_wrnode_iff.2 ⟨_, rfl, hdata, hread⟩
  case layout =>
    refine takeCommand_illegal (op := 0x04#5) rfl hf fun i hi => ?_
    obtain ⟨word, -, hdata, hread⟩ := decode_wrnode_iff.1 hi
    rcases hd with hwide | ⟨hk, hr⟩
    · exact hwide hdata
    · rw [readNodeWord_reserved hk hr] at hread
      cases hread
  case index => exact exec_badIndex hf (decide_eq_false (Nat.not_lt.2 hx))
  case session => exact exec_seqError hf (decide_eq_true hx) (by rw [hd]; rfl)
  case written => exact ⟨_, exec_wrnode hf (decide_eq_true hx) hd word, by simp, by simp⟩

/-- Settles O6: a data field decodes exactly when it is a LEN up to CLMAX above a CODE of LEN bits. -/
theorem wrctWritesOneCodeword : Obligations.WrctWritesOneCodeword := by
  refine ⟨fun P x d hP hd hlen hcode => ?decodes, fun s x d hP hf hd => ?layout, fun s x c hf hx => ?index,
    fun s x c hf hx => ?written⟩
  case decodes =>
    exact decode_wrct_iff.2 ⟨_, rfl, Nat.div_eq_of_lt hd, (readEntry_eq_some_iff hP hd).2 ⟨hlen, hcode, rfl⟩⟩
  case layout =>
    refine takeCommand_illegal (op := 0x06#5) rfl hf fun i hi => ?_
    obtain ⟨c, -, hdata, hread⟩ := decode_wrct_iff.1 hi
    have hfits : d < 2 ^ s.inst.ctw := Nat.lt_of_div_eq_zero (Nat.two_pow_pos _) hdata
    obtain ⟨hlen, hcode, -⟩ := (readEntry_eq_some_iff hP hfits).1 hread
    rcases hd with hwide | hlong | ⟨k, hk, hkmax, hbit⟩
    · exact absurd hfits (Nat.not_lt.2 hwide)
    · exact absurd hlen (Nat.not_le.2 hlong)
    · exact absurd ((hcode k hk hkmax).symm.trans hbit) Bool.false_ne_true
  case index => exact exec_badIndex hf (decide_eq_false (Nat.not_lt.2 hx))
  case written => exact ⟨_, exec_wrct hf (decide_eq_true hx) c, by simp, by simp, by simp⟩

/-- Settles O7: the entry's number has LEN above CLMAX, because the codewords of a canonical memory have at most CLMAX bits. -/
theorem rdctRespondsWithTheEntry : Obligations.RdctRespondsWithTheEntry := by
  refine ⟨encodedIndex_of_formatIndex 0x07#5 _ fun P c h => by rw [decode, h]; rfl, fun s x hf hx => ?index,
    fun s x hm hx => ?entry⟩
  case index => exact exec_badIndex hf (decide_eq_false (Nat.not_lt.2 hx))
  case entry =>
    have hlen := Memory.length_readCt_le hm x.toNat
    exact ⟨_, exec_rdct (decide_eq_true hx), entryNum_div_two_pow hlen, fun k hk => testBit_entryNum hlen hk⟩

/-- Settles O1: NOP is of format N, and its performance asks neither for FAULT nor for DACT. -/
theorem nopLeavesEverythingAsItWas : Obligations.NopLeavesEverythingAsItWas :=
  ⟨encodedN_of_formatN 0x00#5 _ fun P c h => by rw [decode, h]; rfl, fun _ => rfl⟩

/-- Settles O2: `toReset` has the values of R42, and every other outcome of a command keeps a recorded fault. -/
theorem resetWritesEveryResetValue : Obligations.ResetWritesEveryResetValue := by
  refine ⟨encodedN_of_formatN 0x01#5 _ fun P c h => by rw [decode, h]; rfl, fun s => ?values,
    fun s t i hf h ht => ?only, fun s x d hf hx => ?dropped⟩
  case values =>
    exact ⟨toReset s, rfl, fun _ => ⟨rfl, rfl⟩, fun _ => rfl, rfl, rfl, rfl, rfl, rfl, rfl, rfl, rfl, rfl, rfl, rfl, rfl,
      exec_dstart_noTree rfl rfl rfl⟩
  case only =>
    by_contra hi
    exact (exec_effect h).fault_ne_none hi hf ht
  case dropped =>
    obtain ⟨e, he⟩ : ∃ e, decode s.inst { head := headValue 0x0800 x, data := d } = .error e := by
      refine decode_error_of_ne_ok fun i hi => ?_
      obtain ⟨-, hx0, hd0⟩ := decode_reset_iff.1 hi
      exact hx.elim (· hx0) (· hd0)
    exact takeCommand_error_faulted hf he

/-- Settles O3: the seven registers in the order of their numbers are what `registerOf` names. -/
theorem rdregRespondsWithTheNumberedRegister : Obligations.RdregRespondsWithTheNumberedRegister := by
  refine ⟨encodedIndex_of_formatIndex 0x02#5 _ fun P c h => by rw [decode, h]; rfl, fun s x v hv => ?value,
    fun s x hf hx => ?index⟩
  case value =>
    rw [← status_eq, getElem?_registers] at hv
    obtain ⟨r, hr, rfl⟩ := Option.map_eq_some_iff.1 hv
    exact exec_rdreg hr
  case index => exact exec_badIndex hf (decide_eq_false (Nat.not_lt.2 hx))

/-- Settles O5: `nodeResponse` of an invalid entry, of a Leaf and of an Internal node. -/
theorem rdnodeRespondsWithTheEntry : Obligations.RdnodeRespondsWithTheEntry := by
  refine ⟨encodedIndex_of_formatIndex 0x05#5 _ fun P c h => by rw [decode, h]; rfl, fun s x hf hx => ?index,
    fun s x hx => ?entry⟩
  case index => exact exec_badIndex hf (decide_eq_false (Nat.not_lt.2 hx))
  case entry =>
    have hread := exec_rdnode (s := s) (k := x) (decide_eq_true hx)
    exact ⟨fun hn => by rw [hread, hn]; rfl, fun w y hn => by rw [hread, hn]; rfl, fun w l r hn => by rw [hread, hn]; rfl⟩

/-- Settles O8: a data field decodes exactly when it has no bit above WW. -/
theorem wrfreqWritesOneCount : Obligations.WrfreqWritesOneCount := by
  refine ⟨fun P x w hw => ?decodes, fun s x d hf hd => ?layout, fun s x w hf hx => ?index, fun s x w hf hx => ?written⟩
  case decodes => exact decode_wrfreq_iff.2 ⟨rfl, Nat.div_eq_of_lt hw⟩
  case layout =>
    refine takeCommand_illegal (op := 0x08#5) rfl hf fun i hi => ?_
    obtain ⟨-, hdata⟩ := decode_wrfreq_iff.1 hi
    exact absurd (Nat.lt_of_div_eq_zero (Nat.two_pow_pos _) hdata) (Nat.not_lt.2 hd)
  case index => exact exec_badIndex hf (decide_eq_false (Nat.not_lt.2 hx))
  case written => exact ⟨_, exec_wrfreq hf (decide_eq_true hx) w, by simp, by simp, by simp⟩

/-- Settles O9: the read has no freeze, and its response is the entry itself. -/
theorem rdfreqRespondsWithTheCount : Obligations.RdfreqRespondsWithTheCount :=
  ⟨encodedIndex_of_formatIndex 0x09#5 _ fun P c h => by rw [decode, h]; rfl,
    fun _ _ hf hx => exec_badIndex hf (decide_eq_false (Nat.not_lt.2 hx)),
    fun _ _ hx => exec_rdfreq (decide_eq_true hx)⟩

/-- Settles O10: NIL passes the index check besides the node indices, and the entry named is not read. -/
theorem setrootWritesRoot : Obligations.SetrootWritesRoot := by
  refine ⟨encodedIndex_of_formatIndex 0x0A#5 _ fun P c h => by rw [decode, h]; rfl, fun s x hf hx hnil => ?index,
    fun s x hf hx hd => ?session, fun s x hf hx hd => ?written⟩
  case index => exact exec_badIndex hf (decide_eq_false (not_or.2 ⟨Nat.not_lt.2 hx, hnil⟩))
  case session => exact exec_seqError hf (decide_eq_true hx) (by rw [hd]; rfl)
  case written => exact exec_setroot hf (decide_eq_true hx) hd

/-- Settles O11: the whole of FREQ is emptied under the freeze alone, without a session check. -/
theorem clrfreqEmptiesTheCounts : Obligations.ClrfreqEmptiesTheCounts :=
  ⟨encodedN_of_formatN 0x0B#5 _ fun P c h => by rw [decode, h]; rfl,
    fun _ hf => ⟨_, exec_clrfreq hf, by simp, by simp, by simp⟩⟩

end Sys2Proof.Machine
end

section
/-! The rules of the frequency counter (R130, R131). -/

namespace Sys2Proof.Machine

/-! ## One COUNT (R130) -/

/-- COUNT is the write of the next count, once the index and the maximum have been checked. -/
theorem exec_count {s : State} {x : Index} (hf : s.fault = none) (hx : isSymbol s.inst x = true)
    (hw : s.mem.readFreq x.toNat ≠ 2 ^ s.inst.ww - 1) :
    exec (.count x) s = .next { s with mem := s.mem.writeFreq x.toNat (s.mem.readFreq x.toNat + 1) } :=
  (unlessFaulted_live hf _).trans ((require_pos hx _ _ _ _).trans (require_pos hw _ _ _ _))

theorem exec_count_weightOverflow {s : State} {x : Index} (hf : s.fault = none) (hx : isSymbol s.inst x = true)
    (hw : s.mem.readFreq x.toNat = 2 ^ s.inst.ww - 1) :
    exec (.count x) s = .next (raised .weightOverflow x.toNat s) := by
  rw [← raise_live hf]
  exact (unlessFaulted_live hf _).trans ((require_pos hx _ _ _ _).trans (require_neg (not_not.2 hw) _ _ _ _))

theorem Memory.readFreq_writeFreq_succ (m : Memory) (x y : Nat) :
    (m.writeFreq x (m.readFreq x + 1)).readFreq y = if y = x then m.readFreq y + 1 else m.readFreq y := by
  rw [readFreq_writeFreq]
  split
  case isTrue h => rw [h]
  case isFalse => rfl

/-- Settles O13: the index check, then the check of the maximum, then the write of the next count. -/
theorem countAddsOneToOneCount : Obligations.CountAddsOneToOneCount := by
  refine ⟨encodedIndex_of_formatIndex 0x0C#5 _ fun P c h => by rw [decode, h]; rfl, fun s x hf hx => ?index,
    fun s x hf hx hw => ?overflow, fun s x hf hx hw => ?counted⟩
  case index => exact exec_badIndex hf (decide_eq_false (Nat.not_lt.2 hx))
  case overflow => exact exec_count_weightOverflow hf (decide_eq_true hx) hw
  case counted =>
    exact ⟨_, exec_count hf (decide_eq_true hx) hw, Memory.readFreq_writeFreq_succ _ _, by simp, by simp⟩

/-! ## A sequence of COUNTs (R131) -/

/-- With legal parameters every symbol fits the index field of a command (R6, R75). -/
theorem toNat_ix_of_lt_nsym {P : Params} (hP : P.legal = true) {y : Nat} (hy : y < P.nsym) : (ix y).toNat = y := by
  obtain ⟨-, hsw, -⟩ := of_decide_eq_true hP
  have hle : P.nsym ≤ 2 ^ 10 := Nat.pow_le_pow_right Nat.two_pos hsw
  exact Nat.mod_eq_of_lt (by omega)

theorem perform_cons_of_exec {i : Instr} {s t : State} (h : exec i s = .next t) (is : List Instr) :
    perform (i :: is) s = perform is t := by
  rw [perform, h]

/-- Settles O14, by induction on the sequence: one COUNT takes one occurrence of its symbol off the sequence and puts it on
the symbol's count, so that their sum, and with it the premise that no count overflows, passes to the rest. -/
theorem countsTallyASequenceOfSymbols : Obligations.CountsTallyASequenceOfSymbols := by
  intro s xs hP hf hsym hfit
  induction xs generalizing s with
  | nil => exact ⟨s.mem, rfl, fun _ => rfl, fun _ => rfl, fun _ => rfl⟩
  | cons x xs ih =>
    obtain ⟨hx, hxs⟩ := List.forall_mem_cons.1 hsym
    have hix : (ix x).toNat = x := toNat_ix_of_lt_nsym hP hx
    have hroom : s.mem.readFreq x ≠ 2 ^ s.inst.ww - 1 := by
      have hfitx := hfit x
      rw [List.count_cons_self] at hfitx
      omega
    obtain ⟨-, -, -, hcount⟩ := countAddsOneToOneCount
    obtain ⟨m₁, hexec, hfreq₁, hct₁, hnode₁⟩ := hcount s (ix x) hf (hix.symm ▸ hx) (hix.symm ▸ hroom)
    have hsum (y : Nat) : m₁.readFreq y + xs.count y = s.mem.readFreq y + (x :: xs).count y := by
      rw [hfreq₁, hix]
      rcases eq_or_ne y x with rfl | hne
      · rw [if_pos rfl, List.count_cons_self]
        omega
      · rw [if_neg hne, List.count_cons_of_ne hne.symm]
    obtain ⟨m, hrun, hfreq, hct, hnode⟩ :=
      ih { s with mem := m₁ } hP hf hxs fun y => (hsum y).trans_lt (hfit y)
    exact ⟨m, (perform_cons_of_exec hexec _).trans hrun, fun y => (hfreq y).trans (hsum y),
      fun y => (hct y).trans (hct₁ y), fun i => (hnode i).trans (hnode₁ i)⟩

end Sys2Proof.Machine
end

section
/-! The merge loop of BUILD (R141, R144, R145): what one round does, and the invariant it keeps: the collection is the set
of nodes not yet merged, and every merged node joined the two with the least keys. -/

namespace Sys2Proof.Machine

/-! ## One round of the loop -/

/-- A round takes the two elements with the least keys out of the collection and puts their sum in. -/
theorem mergeLoop_succ {q : List Pending} (hq : 2 ≤ q.length) :
    ∃ a b rest, q.Perm (a :: b :: rest) ∧ (∀ c ∈ b :: rest, ¬ keyLt c a = true) ∧ (∀ c ∈ rest, ¬ keyLt c b = true) ∧
      ∀ fuel k m, mergeLoop (fuel + 1) q k m =
        mergeLoop fuel ({ weight := a.weight + b.weight, index := k } :: rest) (k + 1)
          (m.writeNode k (.internal (a.weight + b.weight) a.index b.index)) := by
  obtain ⟨a, q₁, ha⟩ := popLeast_isSome (List.ne_nil_of_length_pos (by omega : 0 < q.length))
  obtain ⟨hperm, hleast⟩ := popLeast_cases ha
  have hlen := hperm.length_eq
  rw [List.length_cons] at hlen
  obtain ⟨b, rest, hb⟩ := popLeast_isSome (List.ne_nil_of_length_pos (by omega : 0 < q₁.length))
  obtain ⟨hperm₁, hleast₁⟩ := popLeast_cases hb
  refine ⟨a, b, rest, hperm.trans (hperm₁.cons a), fun c hc => hleast c (hperm₁.mem_iff.2 hc), hleast₁,
    fun fuel k m => ?_⟩
  simp only [mergeLoop, ha, hb]

/-- The merges write the entries from `k` on, at most one per unit of fuel, and no other. -/
theorem readNode_mergeLoop_of_outside {fuel : Nat} {q : List Pending} {k j : Nat} {m : Memory}
    (hj : j < k ∨ k + fuel ≤ j) : (mergeLoop fuel q k m).readNode j = m.readNode j := by
  induction fuel generalizing q k m with
  | zero => rfl
  | succ fuel ih =>
    unfold mergeLoop
    split
    · rfl
    · split
      · rfl
      · rw [ih (by omega), Memory.readNode_writeNode, if_neg (by omega)]

/-! ## The nodes not yet merged -/

/-- `i` is one of the nodes that stand when node `k` is made, and no merge has taken it yet. -/
def Unmerged (m : Memory) (n k i : Nat) : Prop := i < k ∧ ¬ mergedBefore m n k i

/-- Of the nodes unmerged when node `k` is made, `a` has the least key and `b` the next one (R144). -/
structure LeastPair (m : Memory) (n k a b : Nat) : Prop where
  left : Unmerged m n k a
  right : Unmerged m n k b
  ne : a ≠ b
  left_least : ∀ i, Unmerged m n k i → i ≠ a → keyBefore m a i
  right_least : ∀ i, Unmerged m n k i → i ≠ a → i ≠ b → keyBefore m b i

/-- Every node from `n` up to but not including `k` joins the least pair, the least on the left (R145). -/
def Merged (m : Memory) (n k : Nat) : Prop :=
  ∀ j, n ≤ j → j < k →
    ∃ a b, m.readNode j = some (.internal (weightAt m a + weightAt m b) a b) ∧ LeastPair m n j a b

theorem weightAt_of_internal {m : Memory} {i w l r : Nat} (h : m.readNode i = some (.internal w l r)) :
    weightAt m i = w := by
  simp only [weightAt, h]

theorem weightAt_of_leaf {m : Memory} {i w y : Nat} (h : m.readNode i = some (.leaf w y)) : weightAt m i = w := by
  simp only [weightAt, h]

theorem weightAt_congr {m m' : Memory} {i : Nat} (h : m'.readNode i = m.readNode i) : weightAt m' i = weightAt m i := by
  simp only [weightAt, h]

/-- What has been merged before node `k` is read off the entries below `k`. -/
theorem mergedBefore_congr {m m' : Memory} {n k i : Nat} (h : ∀ j, j < k → m'.readNode j = m.readNode j) :
    mergedBefore m' n k i ↔ mergedBefore m n k i := by
  constructor
  · rintro ⟨j, w, l, r, hn, hk, hj, hi⟩
    exact ⟨j, w, l, r, hn, hk, (h j hk).symm.trans hj, hi⟩
  · rintro ⟨j, w, l, r, hn, hk, hj, hi⟩
    exact ⟨j, w, l, r, hn, hk, (h j hk).trans hj, hi⟩

/-- The merge of `a` and `b` into node `k` takes these two and no other. -/
theorem mergedBefore_succ {m : Memory} {n k w a b i : Nat} (hn : n ≤ k) (hk : m.readNode k = some (.internal w a b)) :
    mergedBefore m n (k + 1) i ↔ mergedBefore m n k i ∨ i = a ∨ i = b := by
  constructor
  · rintro ⟨j, w', l, r, hnj, hjk, hj, hi⟩
    rcases Nat.lt_succ_iff_lt_or_eq.1 hjk with hlt | rfl
    · exact .inl ⟨j, w', l, r, hnj, hlt, hj, hi⟩
    · cases hk.symm.trans hj
      exact .inr hi
  · rintro (⟨j, w', l, r, hnj, hjk, hj, hi⟩ | hi)
    · exact ⟨j, w', l, r, hnj, by omega, hj, hi⟩
    · exact ⟨k, w, a, b, hn, by omega, hk, hi⟩

theorem unmerged_congr {m m' : Memory} {n k i : Nat} (h : ∀ j, j < k → m'.readNode j = m.readNode j) :
    Unmerged m' n k i ↔ Unmerged m n k i :=
  and_congr_right fun _ => not_congr (mergedBefore_congr h)

theorem LeastPair.congr {m m' : Memory} {n k a b : Nat} (h : LeastPair m n k a b)
    (hm : ∀ j, j < k → m'.readNode j = m.readNode j) : LeastPair m' n k a b := by
  have hun {i : Nat} : Unmerged m' n k i ↔ Unmerged m n k i := unmerged_congr hm
  have hwt {i : Nat} (hi : Unmerged m n k i) : weightAt m' i = weightAt m i := weightAt_congr (hm i hi.1)
  refine ⟨hun.2 h.left, hun.2 h.right, h.ne, fun i hi hia => ?_, fun i hi hia hib => ?_⟩
  · rw [keyBefore, hwt h.left, hwt (hun.1 hi)]
    exact h.left_least i (hun.1 hi) hia
  · rw [keyBefore, hwt h.right, hwt (hun.1 hi)]
    exact h.right_least i (hun.1 hi) hia hib

/-- One more node that joins the least pair of the nodes before it. -/
theorem Merged.succ {m m' : Memory} {n k a b : Nat} (h : Merged m n k) (hab : LeastPair m n k a b)
    (hm : ∀ j, j < k → m'.readNode j = m.readNode j)
    (hk : m'.readNode k = some (.internal (weightAt m a + weightAt m b) a b)) : Merged m' n (k + 1) := by
  intro j hn hj
  rcases Nat.lt_succ_iff_lt_or_eq.1 hj with hlt | rfl
  · obtain ⟨c, d, hnode, hcd⟩ := h j hn hlt
    refine ⟨c, d, ?_, hcd.congr fun i hi => hm i (hi.trans hlt)⟩
    rw [hm j hlt, weightAt_congr (hm c (hcd.left.1.trans hlt)), weightAt_congr (hm d (hcd.right.1.trans hlt)), hnode]
  · refine ⟨a, b, ?_, hab.congr hm⟩
    rw [hk, weightAt_congr (hm a hab.left.1), weightAt_congr (hm b hab.right.1)]

/-- A merged node stands before the one made of it. -/
theorem Merged.lt_of_mergedBefore {m : Memory} {n k i : Nat} (h : Merged m n k) (hi : mergedBefore m n k i) :
    i + 1 < k := by
  obtain ⟨j, w, l, r, hn, hk, hj, hi⟩ := hi
  obtain ⟨a, b, hnode, hab⟩ := h j hn hk
  cases hnode.symm.trans hj
  obtain ⟨hal, -⟩ := hab.left
  obtain ⟨hbl, -⟩ := hab.right
  omega

/-- The node made last is not merged. -/
theorem Merged.unmerged_last {m : Memory} {n k : Nat} (h : Merged m n (k + 1)) : Unmerged m n (k + 1) k :=
  ⟨k.lt_succ_self, fun hk => (h.lt_of_mergedBefore hk).false⟩

/-- The nodes not yet merged once `a` and `b` have been joined into node `k`: `k` in place of the two. -/
theorem unmerged_succ {m m' : Memory} {n k w a b i : Nat} (hn : n ≤ k) (h : Merged m' n (k + 1))
    (hm : ∀ j, j < k → m'.readNode j = m.readNode j) (hk : m'.readNode k = some (.internal w a b)) :
    Unmerged m' n (k + 1) i ↔ i = k ∨ (Unmerged m n k i ∧ i ≠ a ∧ i ≠ b) := by
  rcases eq_or_ne i k with rfl | hik
  · exact iff_of_true h.unmerged_last (.inl rfl)
  · have hlt : i < k + 1 ↔ i < k := by omega
    simp only [Unmerged, mergedBefore_succ hn hk, mergedBefore_congr hm, not_or, hlt, hik, false_or, and_assoc, ne_eq]

/-! ## The loop's invariant -/

/-- Before node `k` is made, the collection `q` holds each unmerged node once, with its weight. -/
structure Merging (m : Memory) (n k : Nat) (q : List Pending) : Prop where
  start : n ≤ k
  nodup : q.Nodup
  mem_iff : ∀ e, e ∈ q ↔ Unmerged m n k e.index ∧ weightAt m e.index = e.weight
  merged : Merged m n k

theorem Merging.perm {m : Memory} {n k : Nat} {q q' : List Pending} (h : Merging m n k q) (hp : q.Perm q') :
    Merging m n k q' :=
  { h with nodup := hp.nodup_iff.1 h.nodup, mem_iff := fun e => hp.mem_iff.symm.trans (h.mem_iff e) }

/-- An unmerged node stands in the collection with its weight. -/
theorem Merging.mem_of_unmerged {m : Memory} {n k i : Nat} {q : List Pending} (h : Merging m n k q)
    (hi : Unmerged m n k i) : { weight := weightAt m i, index := i } ∈ q := (h.mem_iff _).2 ⟨hi, rfl⟩

theorem Merging.eq_of_index_eq {m : Memory} {n k : Nat} {q : List Pending} {a b : Pending} (h : Merging m n k q)
    (ha : a ∈ q) (hb : b ∈ q) (hab : a.index = b.index) : a = b := by
  obtain ⟨-, hwa⟩ := (h.mem_iff a).1 ha
  obtain ⟨-, hwb⟩ := (h.mem_iff b).1 hb
  obtain ⟨wa, ia⟩ := a
  obtain ⟨wb, ib⟩ := b
  cases hab
  cases hwa.symm.trans hwb
  rfl

/-- Distinct elements have distinct keys: one that is not before `a` comes after it. -/
theorem Merging.keyBefore_of_not_keyLt {m : Memory} {n k i : Nat} {q : List Pending} {a : Pending} (h : Merging m n k q)
    (ha : a ∈ q) (hi : i ≠ a.index) (hle : ¬ keyLt { weight := weightAt m i, index := i } a = true) :
    keyBefore m a.index i := by
  obtain ⟨-, hwa⟩ := (h.mem_iff a).1 ha
  simp only [keyLt_iff, ← hwa] at hle
  rw [keyBefore]
  omega

/-- What remains once the first two are taken: the elements of any other index. -/
theorem Merging.mem_rest_iff {m : Memory} {n k : Nat} {a b e : Pending} {rest : List Pending}
    (h : Merging m n k (a :: b :: rest)) :
    e ∈ rest ↔ e ∈ a :: b :: rest ∧ e.index ≠ a.index ∧ e.index ≠ b.index := by
  obtain ⟨hanot, hnodup⟩ := List.nodup_cons.1 h.nodup
  obtain ⟨hbnot, -⟩ := List.nodup_cons.1 hnodup
  constructor
  · intro he
    have hmem : e ∈ a :: b :: rest := by simp [he]
    refine ⟨hmem, fun hea => hanot ?_, fun heb => hbnot ?_⟩
    · rw [← h.eq_of_index_eq hmem (by simp) hea]
      exact List.mem_cons_of_mem _ he
    · rwa [← h.eq_of_index_eq hmem (by simp) heb]
  · rintro ⟨hmem, hea, heb⟩
    have hmem := List.mem_of_ne_of_mem (fun he => hea (congrArg Pending.index he)) hmem
    exact List.mem_of_ne_of_mem (fun he => heb (congrArg Pending.index he)) hmem

/-- The two elements a round takes are the least pair. -/
theorem Merging.leastPair {m : Memory} {n k : Nat} {a b : Pending} {rest : List Pending}
    (h : Merging m n k (a :: b :: rest)) (ha : ∀ c ∈ b :: rest, ¬ keyLt c a = true)
    (hb : ∀ c ∈ rest, ¬ keyLt c b = true) : LeastPair m n k a.index b.index := by
  have hamem : a ∈ a :: b :: rest := by simp
  have hbmem : b ∈ a :: b :: rest := by simp
  refine ⟨((h.mem_iff a).1 hamem).1, ((h.mem_iff b).1 hbmem).1, fun hab => ?_, fun i hi hia => ?_,
    fun i hi hia hib => ?_⟩
  · obtain ⟨hnot, -⟩ := List.nodup_cons.1 h.nodup
    exact hnot (by simp [h.eq_of_index_eq hamem hbmem hab])
  · refine h.keyBefore_of_not_keyLt hamem hia (ha _ ?_)
    exact List.mem_of_ne_of_mem (fun he => hia (congrArg Pending.index he)) (h.mem_of_unmerged hi)
  · exact h.keyBefore_of_not_keyLt hbmem hib (hb _ (h.mem_rest_iff.2 ⟨h.mem_of_unmerged hi, hia, hib⟩))

/-- A round joins the least pair and keeps the invariant. -/
theorem Merging.round {m : Memory} {n k : Nat} {a b : Pending} {rest : List Pending}
    (h : Merging m n k (a :: b :: rest)) (ha : ∀ c ∈ b :: rest, ¬ keyLt c a = true)
    (hb : ∀ c ∈ rest, ¬ keyLt c b = true) :
    Merging (m.writeNode k (.internal (a.weight + b.weight) a.index b.index)) n (k + 1)
      ({ weight := a.weight + b.weight, index := k } :: rest) := by
  obtain ⟨-, hwa⟩ := (h.mem_iff a).1 (by simp)
  obtain ⟨-, hwb⟩ := (h.mem_iff b).1 (by simp)
  generalize hm' : m.writeNode k (.internal (a.weight + b.weight) a.index b.index) = m'
  have hsame (j : Nat) (hj : j < k) : m'.readNode j = m.readNode j := by
    rw [← hm', Memory.readNode_writeNode, if_neg (by omega)]
  have hnode : m'.readNode k = some (.internal (a.weight + b.weight) a.index b.index) := by
    rw [← hm', Memory.readNode_writeNode, if_pos rfl]
  have hmerged : Merged m' n (k + 1) := h.merged.succ (h.leastPair ha hb) hsame (by rw [hnode, hwa, hwb])
  have hold (e : Pending) (he : e ∈ rest) : e.index < k := ((h.mem_iff e).1 (by simp [he])).1.1
  refine ⟨h.start.trans k.le_succ, ?nodup, fun e => ?mem, hmerged⟩
  case nodup => exact List.nodup_cons.2 ⟨fun hk => (hold _ hk).false, h.nodup.of_cons.of_cons⟩
  case mem =>
    rw [List.mem_cons, h.mem_rest_iff, h.mem_iff, unmerged_succ h.start hmerged hsame hnode]
    constructor
    · rintro (rfl | ⟨⟨hu, hwe⟩, hea, heb⟩)
      · exact ⟨.inl rfl, weightAt_of_internal hnode⟩
      · exact ⟨.inr ⟨hu, hea, heb⟩, (weightAt_congr (hsame _ hu.1)).trans hwe⟩
    · rintro ⟨hek | ⟨hu, hea, heb⟩, hwe⟩
      · obtain ⟨w, i⟩ := e
        cases hek
        cases (weightAt_of_internal hnode).symm.trans hwe
        exact .inl rfl
      · exact .inr ⟨⟨hu, (weightAt_congr (hsame _ hu.1)).symm.trans hwe⟩, hea, heb⟩

/-- The whole loop: with one element fewer of fuel than the collection has, one element is left, whose weight is the sum of
all. -/
theorem Merging.mergeLoop {fuel n k : Nat} {q : List Pending} {m : Memory} (h : Merging m n k q)
    (hq : q.length = fuel + 1) :
    ∃ e, Merging (mergeLoop fuel q k m) n (k + fuel) [e] ∧ e.weight = (q.map Pending.weight).sum := by
  induction fuel generalizing q k m with
  | zero =>
    obtain ⟨e, rfl⟩ := List.length_eq_one_iff.1 hq
    exact ⟨e, h, by simp⟩
  | succ fuel ih =>
    obtain ⟨a, b, rest, hp, ha, hb, hloop⟩ := mergeLoop_succ (q := q) (by omega)
    have hlen := hp.length_eq
    simp only [List.length_cons] at hlen
    obtain ⟨e, he, hw⟩ := ih ((h.perm hp).round ha hb) (by rw [List.length_cons]; omega)
    refine ⟨e, ?_, ?_⟩
    · rw [hloop, show k + (fuel + 1) = k + 1 + fuel by omega]
      exact he
    · rw [hw, (hp.map Pending.weight).sum_eq]
      simp [Nat.add_assoc]

/-- At the end the one element left is the node made last. -/
theorem Merging.index_last {m : Memory} {n k : Nat} {e : Pending} (h : Merging m n (k + 1) [e]) : e.index = k :=
  (congrArg Pending.index (List.mem_singleton.1 (h.mem_of_unmerged h.merged.unmerged_last))).symm

/-- At the end every other node has been merged. -/
theorem Merging.mergedBefore_of_lt {m : Memory} {n k i : Nat} {e : Pending} (h : Merging m n (k + 1) [e]) (hi : i < k) :
    mergedBefore m n (k + 1) i := by
  by_contra hnot
  have hie : i = e.index :=
    congrArg Pending.index (List.mem_singleton.1 (h.mem_of_unmerged ⟨by omega, hnot⟩))
  rw [h.index_last] at hie
  omega

/-! ## The start of the loop (R143) -/

/-- The seeding writes the entries from `k` on, one per symbol, and no other. -/
theorem readNode_seedLeaves_of_outside {ys : List Nat} {k j : Nat} {m : Memory} (hj : j < k ∨ k + ys.length ≤ j) :
    (seedLeaves ys k m).readNode j = m.readNode j := by
  induction ys generalizing k m with
  | nil => rfl
  | cons y ys ih =>
    rw [List.length_cons] at hj
    rw [seedLeaves, ih (by omega), Memory.readNode_writeNode, if_neg (by omega)]

/-- The seeding puts the leaf of the `j`-th symbol at `k + j`. -/
theorem readNode_seedLeaves {ys : List Nat} {k j y : Nat} {m : Memory} (hj : ys[j]? = some y) :
    (seedLeaves ys k m).readNode (k + j) = some (.leaf (m.readFreq y) y) := by
  induction ys generalizing k j m with
  | nil => simp at hj
  | cons z ys ih =>
    rw [seedLeaves]
    cases j with
    | zero =>
      cases hj
      rw [readNode_seedLeaves_of_outside (.inl (by omega)), Memory.readNode_writeNode, if_pos (by omega)]
    | succ j =>
      rw [show k + (j + 1) = k + 1 + j by omega]
      exact ih hj

theorem seedQueue_eq_map_zipIdx (ys : List Nat) (k : Nat) (m : Memory) :
    seedQueue ys k m = (ys.zipIdx k).map fun p => { weight := m.readFreq p.1, index := p.2 } := by
  induction ys generalizing k with
  | nil => rfl
  | cons y ys ih => simp [seedQueue, ih]

/-- Before the first merge the collection holds every leaf, once and with its weight. -/
theorem merging_seed (ys : List Nat) (m : Memory) :
    Merging (seedLeaves ys 0 m.clearNode) ys.length ys.length (seedQueue ys 0 m) := by
  refine ⟨le_rfl, ?_, fun e => ?_, fun j hn hk => absurd hk (by omega)⟩
  · refine List.Nodup.of_map Pending.index ?_
    rw [seedQueue_eq_map_zipIdx, List.map_map]
    exact List.zipIdx_map_snd 0 ys ▸ List.nodup_range'
  · have hun : Unmerged (seedLeaves ys 0 m.clearNode) ys.length ys.length e.index ↔ e.index < ys.length :=
      and_iff_left fun ⟨j, _, _, _, hn, hk, _⟩ => absurd hk (by omega)
    have hleaf (y : Nat) (hy : ys[e.index]? = some y) :
        weightAt (seedLeaves ys 0 m.clearNode) e.index = m.readFreq y :=
      weightAt_of_leaf (by simpa using readNode_seedLeaves (k := 0) (m := m.clearNode) hy)
    obtain ⟨w, i⟩ := e
    rw [hun, seedQueue_eq_map_zipIdx, List.mem_map]
    constructor
    · rintro ⟨⟨y, i'⟩, hmem, hp⟩
      cases hp
      have hy := List.mem_zipIdx_iff_getElem?.1 hmem
      exact ⟨(List.getElem?_eq_some_iff.1 hy).1, hleaf y hy⟩
    · rintro ⟨hlt, hw⟩
      have hy := List.getElem?_eq_getElem hlt
      refine ⟨(ys[i], i), List.mem_zipIdx_iff_getElem?.2 hy, ?_⟩
      rw [Pending.mk.injEq, ← hleaf _ hy]
      exact ⟨hw, rfl⟩

/-- The tree of two or more symbols: all nodes merged by the rule, one left, and its weight the total (R145, R151). -/
theorem merging_buildTree {P : Params} {m : Memory} (h : 2 ≤ (presentSymbols P m).length) :
    ∃ e, Merging (buildTree P m) (presentSymbols P m).length (2 * (presentSymbols P m).length - 2 + 1) [e] ∧
      e.weight = totalWeight P m := by
  have hne (y : Nat) : presentSymbols P m ≠ [y] := fun hy => by simp [hy] at h
  obtain ⟨e, he, hw⟩ := (merging_seed (presentSymbols P m) m).mergeLoop
    (fuel := (presentSymbols P m).length - 1) (by rw [length_seedQueue]; omega)
  rw [buildTree_merged hne]
  refine ⟨e, ?_, by rw [hw, map_weight_seedQueue, totalWeight]⟩
  convert he using 1
  omega

/-! ## What a BUILD without fault has done (R141) -/

/-- A BUILD that raises no fault passed its three checks and wrote the tree. -/
structure Built (s t : State) : Prop where
  dact : s.dact = false
  present : presentSymbols s.inst s.mem ≠ []
  total : totalWeight s.inst s.mem < 2 ^ s.inst.ww
  mem : t.mem = buildTree s.inst s.mem
  root : t.root = builtCount (presentSymbols s.inst s.mem).length - 1
  nnode : t.nnode = builtCount (presentSymbols s.inst s.mem).length
  inst : t.inst = s.inst

theorem built_of_exec {s t : State} (hs : s.fault = none) (h : exec .build s = .next t) (ht : t.fault = none) :
    Built s t := by
  cases exec_effect h with
  | dropped _ hf => exact absurd hs hf
  | raised => simp at ht
  | responded _ v hv => simp [readResponse] at hv
  | built hf hd hy hw => exact ⟨hd, hy, hw, rfl, rfl, rfl, rfl⟩

theorem builtCount_of_two_le {n : Nat} (h : 2 ≤ n) : builtCount n = 2 * n - 1 := if_neg (by omega)

/-- Settles O17: the invariant of the merge loop at its end, where one node is left. -/
theorem buildMergesTheTwoLeastKeys : Obligations.BuildMergesTheTwoLeastKeys := by
  intro s t n hs h ht hn hn2
  obtain ⟨-, -, -, hmem, hroot, -⟩ := built_of_exec hs h ht
  have hlen : (presentSymbols s.inst s.mem).length = n := hn.symm
  obtain ⟨e, he, -⟩ := merging_buildTree (P := s.inst) (m := s.mem) (by omega)
  rw [hlen, builtCount_of_two_le hn2] at hroot
  rw [hlen, ← hmem] at he
  have hlast : 2 * n - 2 + 1 = 2 * n - 1 := by omega
  refine ⟨by omega, fun i hi => hlast ▸ he.mergedBefore_of_lt hi, fun k hnk hk => ?_⟩
  obtain ⟨a, b, hnode, hab⟩ := he.merged k hnk (by omega)
  exact ⟨a, b, hnode, hab.left.1, hab.right.1, hab.ne, hab.left.2, hab.right.2,
    fun i hik hia hi => hab.left_least i ⟨hik, hi⟩ hia, fun i hik hia hib hi => hab.right_least i ⟨hik, hi⟩ hia hib⟩

end Sys2Proof.Machine
end

section
/-! The memory and the checks of BUILD: its leaves, its valid entries, the total of the counts, and the counts as its only
input (R141 to R148, R151). -/

namespace Sys2Proof.Machine

/-! ## The built memory, entry by entry (R143, R148) -/

/-- Entry `k` is the leaf of the `k`-th symbol present. -/
theorem readNode_buildTree_leaf {P : Params} {m : Memory} {k y : Nat} (h : (presentSymbols P m)[k]? = some y) :
    (buildTree P m).readNode k = some (.leaf (m.readFreq y) y) := by
  have hlt : k < (presentSymbols P m).length := (List.getElem?_eq_some_iff.1 h).1
  have hleaf : (seedLeaves (presentSymbols P m) 0 m.clearNode).readNode k = some (.leaf (m.readFreq y) y) := by
    simpa using readNode_seedLeaves (k := 0) (m := m.clearNode) h
  by_cases hs : ∃ z, presentSymbols P m = [z]
  · obtain ⟨z, hz⟩ := hs
    rw [hz, List.length_singleton] at hlt
    rw [buildTree_single hz, Memory.readNode_writeNode, if_neg (by omega), ← hz, hleaf]
  · rw [buildTree_merged (not_exists.1 hs), readNode_mergeLoop_of_outside (.inl hlt), hleaf]

/-- No entry from NNODE on is valid. -/
theorem readNode_buildTree_of_le {P : Params} {m : Memory} {i : Nat} (h : builtCount (presentSymbols P m).length ≤ i) :
    (buildTree P m).readNode i = none := by
  have hleaves (hi : (presentSymbols P m).length ≤ i) :
      (seedLeaves (presentSymbols P m) 0 m.clearNode).readNode i = none := by
    rw [readNode_seedLeaves_of_outside (.inr (by omega)), Memory.readNode_clearNode]
  by_cases hs : ∃ z, presentSymbols P m = [z]
  · obtain ⟨z, hz⟩ := hs
    have h2 : 2 ≤ i := by simpa [hz, builtCount] using h
    rw [buildTree_single hz, Memory.readNode_writeNode, if_neg (by omega), ← hz, hleaves (by rw [hz]; simp; omega)]
  · rw [not_exists] at hs
    rw [builtCount_of_ne_single hs] at h
    rw [buildTree_merged hs, readNode_mergeLoop_of_outside (.inr (by omega)), hleaves (by omega)]

/-- BUILD writes NODE and no other memory. -/
theorem buildTree_frame (P : Params) (m : Memory) : (buildTree P m).freq = m.freq ∧ (buildTree P m).ct = m.ct := by
  by_cases hs : ∃ z, presentSymbols P m = [z]
  · obtain ⟨z, hz⟩ := hs
    rw [buildTree_single hz]
    exact seedLeaves_frame _ _ _
  · obtain ⟨hf, hc⟩ := seedLeaves_frame (presentSymbols P m) 0 m.clearNode
    rw [buildTree_merged (not_exists.1 hs), (mergeLoop_frame _ _ _ _).1, (mergeLoop_frame _ _ _ _).2]
    exact ⟨hf, hc⟩

/-! ## The symbols present and the total of the counts (R141) -/

theorem presentSymbols_eq_nil_iff {P : Params} {m : Memory} :
    presentSymbols P m = [] ↔ ∀ y, y < P.nsym → m.readFreq y = 0 := by
  simp only [List.eq_nil_iff_forall_not_mem, mem_presentSymbols, not_and, not_not]

/-- A strictly ascending list of the symbols with a non-zero count is `S`. -/
theorem eq_presentSymbols {P : Params} {m : Memory} {ys : List Nat} (hys : ys.Pairwise (· < ·))
    (hmem : ∀ y, y ∈ ys ↔ y < P.nsym ∧ m.readFreq y ≠ 0) : ys = presentSymbols P m :=
  hys.eq_of_mem_iff (List.pairwise_lt_range.filter _) fun y => (hmem y).trans mem_presentSymbols.symm

/-- The symbols that are not present add nothing to the total. -/
theorem totalWeight_eq_sum (P : Params) (m : Memory) : totalWeight P m = ((List.range P.nsym).map m.readFreq).sum :=
  Finset.sum_filter_ne_zero (f := m.readFreq) (Finset.range P.nsym)

theorem sum_count_eq_length {n : Nat} {xs : List Nat} (h : ∀ x ∈ xs, x < n) :
    ((List.range n).map fun y => xs.count y).sum = xs.length := by
  have hsum := Multiset.sum_count_eq_card (s := Finset.range n) (m := (xs : Multiset Nat)) fun x hx =>
    Finset.mem_range.2 (h x hx)
  simp only [Multiset.coe_count, Multiset.coe_card] at hsum
  exact hsum

/-! ## The checks of BUILD and its outcome (R141, R142) -/

/-- A BUILD that passes its three checks writes the tree. -/
theorem exec_build {s : State} (hf : s.fault = none) (hd : s.dact = false) (hy : presentSymbols s.inst s.mem ≠ [])
    (hw : totalWeight s.inst s.mem < 2 ^ s.inst.ww) :
    exec .build s = .next { s with
      mem := buildTree s.inst s.mem
      root := builtCount (presentSymbols s.inst s.mem).length - 1
      nnode := builtCount (presentSymbols s.inst s.mem).length } :=
  (unlessFaulted_live hf _).trans
    ((require_pos hd _ _ _ _).trans ((require_pos hy _ _ _ _).trans (require_pos hw _ _ _ _)))

/-- Settles O15: format N, the session check, then the two checks of the counts, each before the tree is written. -/
theorem buildChecksBeforeItWrites : Obligations.BuildChecksBeforeItWrites := by
  refine ⟨encodedN_of_formatN 0x0D#5 _ fun P c h => by rw [decode, h]; rfl, fun s hf hd => ?session,
    fun s hf hd h0 => ?empty, fun s hf hd ⟨y, hy, hne⟩ hw => ?overflow⟩
  case session => exact exec_seqError hf rfl (by rw [hd]; rfl)
  case empty =>
    have hnone : ¬ presentSymbols s.inst s.mem ≠ [] := not_not.2 (presentSymbols_eq_nil_iff.2 h0)
    rw [← raise_live hf]
    exact (unlessFaulted_live hf _).trans ((require_pos hd _ _ _ _).trans (require_neg hnone _ _ _ _))
  case overflow =>
    have hsome : presentSymbols s.inst s.mem ≠ [] := List.ne_nil_of_mem (mem_presentSymbols.2 ⟨hy, hne⟩)
    have hfull : ¬ totalWeight s.inst s.mem < 2 ^ s.inst.ww := by rw [totalWeight_eq_sum]; exact Nat.not_lt.2 hw
    rw [← raise_live hf]
    exact (unlessFaulted_live hf _).trans
      ((require_pos hd _ _ _ _).trans ((require_pos hsome _ _ _ _).trans (require_neg hfull _ _ _ _)))

/-- Settles O16: `ys` is `S`, and the built memory is known entry by entry. -/
theorem buildPlacesLeavesAndRoot : Obligations.BuildPlacesLeavesAndRoot := by
  intro s ys hf hd hne hys hmem hw
  obtain rfl := eq_presentSymbols hys hmem
  obtain ⟨hfreq, hct⟩ := buildTree_frame s.inst s.mem
  have hroot : builtCount (presentSymbols s.inst s.mem).length - 1 =
      if (presentSymbols s.inst s.mem).length = 1 then 1 else 2 * (presentSymbols s.inst s.mem).length - 2 := by
    rw [builtCount]
    split <;> omega
  refine ⟨buildTree s.inst s.mem, ?_, fun y => ⟨?_, ?_⟩, fun i => ⟨fun hi => ?_, buildTree_valid hne⟩,
    fun k y => readNode_buildTree_leaf, fun y hy => ?_⟩
  · rw [exec_build hf hd hne hw, hroot, builtCount]
  · rw [Memory.readFreq, hfreq, Memory.readFreq]
  · rw [Memory.readCt, hct, Memory.readCt]
  · exact Nat.lt_of_not_le fun hle => hi (readNode_buildTree_of_le hle)
  · rw [buildTree_single hy, Memory.readNode_writeNode, if_pos rfl]

/-! ## The weight of the root (R151) -/

theorem weightAt_root_buildTree {P : Params} {m : Memory} (h : presentSymbols P m ≠ []) :
    weightAt (buildTree P m) (builtCount (presentSymbols P m).length - 1) = totalWeight P m := by
  by_cases hs : ∃ z, presentSymbols P m = [z]
  · obtain ⟨z, hz⟩ := hs
    rw [buildTree_single hz, totalWeight, hz]
    exact weightAt_of_internal (by rw [Memory.readNode_writeNode]; rfl)
  · rw [not_exists] at hs
    have hpos := List.length_pos_iff.2 h
    have hne1 : (presentSymbols P m).length ≠ 1 := fun h1 => let ⟨z, hz⟩ := List.length_eq_one_iff.1 h1; hs z hz
    obtain ⟨e, he, hw⟩ := merging_buildTree (P := P) (m := m) (by omega)
    obtain ⟨-, hwe⟩ := (he.mem_iff e).1 List.mem_cons_self
    rw [he.index_last, hw] at hwe
    rw [builtCount_of_ne_single hs]
    exact hwe

theorem Built.weightAt_root {s t : State} (h : Built s t) : weightAt t.mem t.root = totalWeight s.inst s.mem := by
  rw [h.mem, h.root, weightAt_root_buildTree h.present]

theorem perform_append {is js : List Instr} {s t : State} (h : perform is s = .next t) :
    perform (is ++ js) s = perform js t := by
  induction is generalizing s with
  | nil => cases h; rfl
  | cons i is ih =>
    obtain ⟨s₁, h₁, h⟩ := perform_cons h
    rw [List.cons_append, perform_cons_of_exec h₁, ih h]

/-- Settles O18: the merges keep the sum of the weights, and COUNTs from an empty table add up to their number. -/
theorem rootWeightIsTheTotalCount : Obligations.RootWeightIsTheTotalCount := by
  refine ⟨fun s t hs h ht => ?_, fun s xs hP hf hd hne hsym hlen => ?_⟩
  · rw [(built_of_exec hs h ht).weightAt_root, totalWeight_eq_sum]
  · obtain ⟨-, hclr⟩ := clrfreqEmptiesTheCounts
    obtain ⟨m₀, hexec, hzero, -, -⟩ := hclr s hf
    obtain ⟨m, hrun, hfreq, -, -⟩ := countsTallyASequenceOfSymbols { s with mem := m₀ } xs hP hf hsym
      fun y => by rw [hzero, Nat.zero_add]; exact List.count_le_length.trans_lt hlen
    simp only [hzero, Nat.zero_add] at hfreq
    have htotal : totalWeight s.inst m = xs.length := by
      rw [totalWeight_eq_sum, funext hfreq, sum_count_eq_length hsym]
    have hpresent : presentSymbols s.inst m ≠ [] := by
      obtain ⟨x, hx⟩ := List.exists_mem_of_ne_nil xs hne
      refine List.ne_nil_of_mem (mem_presentSymbols.2 ⟨hsym x hx, ?_⟩)
      rw [hfreq]
      exact (List.count_pos_iff.2 hx).ne'
    have hbuild := exec_build (s := { s with mem := m }) hf hd hpresent (htotal.trans_lt hlen)
    exact ⟨_, (perform_cons_of_exec hexec _).trans ((perform_append hrun).trans (perform_cons_of_exec hbuild [])), hf,
      (weightAt_root_buildTree hpresent).trans htotal⟩

/-! ## The counts as the only input (R144) -/

/-- The leaves depend on the counts of their symbols and on NODE. -/
theorem seedLeaves_node_congr {ys : List Nat} {k : Nat} {m m' : Memory} (hn : m.node = m'.node)
    (hf : ∀ y ∈ ys, m.readFreq y = m'.readFreq y) : (seedLeaves ys k m).node = (seedLeaves ys k m').node := by
  induction ys generalizing k m m' with
  | nil => exact hn
  | cons y ys ih =>
    obtain ⟨hy, hys⟩ := List.forall_mem_cons.1 hf
    refine ih ?_ fun z hz => ?_
    · simp only [Memory.writeNode, hn, hy]
    · simpa using hys z hz

/-- The merges depend on the collection and on NODE. -/
theorem mergeLoop_node_congr {fuel : Nat} {q : List Pending} {k : Nat} {m m' : Memory} (hn : m.node = m'.node) :
    (mergeLoop fuel q k m).node = (mergeLoop fuel q k m').node := by
  induction fuel generalizing q k m m' with
  | zero => exact hn
  | succ fuel ih =>
    unfold mergeLoop
    split
    · exact hn
    · split
      · exact hn
      · exact ih (by simp only [Memory.writeNode, hn])

theorem presentSymbols_congr {P : Params} {m m' : Memory} (h : ∀ y, y < P.nsym → m.readFreq y = m'.readFreq y) :
    presentSymbols P m = presentSymbols P m' :=
  List.filter_congr fun y hy => by rw [h y (List.mem_range.1 hy)]

theorem totalWeight_congr {P : Params} {m m' : Memory} (h : ∀ y, y < P.nsym → m.readFreq y = m'.readFreq y) :
    totalWeight P m = totalWeight P m' := by
  rw [totalWeight_eq_sum, totalWeight_eq_sum, List.map_congr_left fun y hy => h y (List.mem_range.1 hy)]

theorem buildTree_node_congr {P : Params} {m m' : Memory} (h : ∀ y, y < P.nsym → m.readFreq y = m'.readFreq y) :
    (buildTree P m).node = (buildTree P m').node := by
  have hS := presentSymbols_congr h
  have hfreq : ∀ y ∈ presentSymbols P m, m.readFreq y = m'.readFreq y := fun y hy => h y (mem_presentSymbols.1 hy).1
  have hleaves : (seedLeaves (presentSymbols P m) 0 m.clearNode).node =
      (seedLeaves (presentSymbols P m) 0 m'.clearNode).node :=
    seedLeaves_node_congr rfl fun y hy => by simpa using hfreq y hy
  by_cases hs : ∃ z, presentSymbols P m = [z]
  · obtain ⟨z, hz⟩ := hs
    rw [buildTree_single hz, buildTree_single (hS ▸ hz)]
    rw [hz] at hleaves
    simp only [Memory.writeNode, hleaves, hfreq z (by simp [hz])]
  · rw [not_exists] at hs
    have hqueue : seedQueue (presentSymbols P m) 0 m = seedQueue (presentSymbols P m) 0 m' := by
      rw [seedQueue_eq_map_zipIdx, seedQueue_eq_map_zipIdx]
      exact List.map_congr_left fun p hp => by rw [hfreq p.1 (List.fst_mem_of_mem_zipIdx hp)]
    rw [buildTree_merged hs, buildTree_merged (hS ▸ hs), ← hS, hqueue]
    exact mergeLoop_node_congr hleaves

/-- Settles O20: the checks and the tree read the counts below 2^SW and nothing else. -/
theorem buildDependsOnTheCountsOnly : Obligations.BuildDependsOnTheCountsOnly := by
  intro s s' t t' hinst hfreq hf hf' hd hd' h h' ht
  have hb := built_of_exec hf h ht
  have hS := presentSymbols_congr hfreq
  have hpresent : presentSymbols s'.inst s'.mem ≠ [] := by rw [← hinst, ← hS]; exact hb.present
  have htotal : totalWeight s'.inst s'.mem < 2 ^ s'.inst.ww := by
    rw [← hinst, ← totalWeight_congr hfreq]; exact hb.total
  have ht' : t'.fault = none := by
    rw [exec_build hf' hd' hpresent htotal] at h'
    cases h'
    exact hf'
  have hb' := built_of_exec hf' h' ht'
  refine ⟨ht', by rw [hb.root, hb'.root, ← hinst, hS], by rw [hb.nnode, hb'.nnode, ← hinst, hS], fun i => ?_⟩
  rw [Memory.readNode, Memory.readNode, hb.mem, hb'.mem, ← hinst, buildTree_node_congr hfreq]

end Sys2Proof.Machine
end

section
/-! R152: in the built tree the nodes are merged in the order of their keys, so a node with the greater key never has the
later parent, and by induction towards the root it never lies deeper. -/

namespace Sys2Proof.Machine

/-! ## Merged nodes: parents, weights and order (R144, R145) -/

section Order

variable {m : Memory} {n k : Nat}

/-- `i` is a child of the Internal node `j`. -/
def childOf (m : Memory) (i j : Nat) : Prop := ∃ w l r, m.readNode j = some (.internal w l r) ∧ (i = l ∨ i = r)

/-- A merged node was unmerged until its parent was made, and weighs no more. -/
theorem Merged.of_childOf (h : Merged m n k) {i j : Nat} (hn : n ≤ j) (hk : j < k) (hc : childOf m i j) :
    Unmerged m n j i ∧ weightAt m i ≤ weightAt m j := by
  obtain ⟨w, l, r, hj, hi⟩ := hc
  obtain ⟨a, b, hnode, hab⟩ := h j hn hk
  cases hnode.symm.trans hj
  rw [weightAt_of_internal hnode]
  rcases hi with rfl | rfl
  · exact ⟨hab.left, Nat.le_add_right _ _⟩
  · exact ⟨hab.right, Nat.le_add_left _ _⟩

/-- The children of node `j` go before every other node unmerged at that point. -/
theorem Merged.keyBefore_of_childOf (h : Merged m n k) {i j x : Nat} (hn : n ≤ j) (hk : j < k) (hc : childOf m i j)
    (hx : Unmerged m n j x) (hxc : ¬ childOf m x j) : keyBefore m i x := by
  obtain ⟨w, l, r, hj, hi⟩ := hc
  obtain ⟨a, b, hnode, hab⟩ := h j hn hk
  cases hnode.symm.trans hj
  have hxl : x ≠ l := fun hxl => hxc ⟨_, l, r, hj, .inl hxl⟩
  have hxr : x ≠ r := fun hxr => hxc ⟨_, l, r, hj, .inr hxr⟩
  rcases hi with rfl | rfl
  · exact hab.left_least x hx hxl
  · exact hab.right_least x hx hxl hxr

theorem mergedBefore_of_childOf {i j : Nat} (hn : n ≤ j) (hk : j < k) (hc : childOf m i j) : mergedBefore m n k i :=
  let ⟨w, l, r, hj, hi⟩ := hc; ⟨j, w, l, r, hn, hk, hj, hi⟩

theorem weightAt_le_of_keyBefore {i j : Nat} (h : keyBefore m i j) : weightAt m i ≤ weightAt m j :=
  h.elim Nat.le_of_lt fun ⟨he, _⟩ => he.le

/-- A node weighs no more than the node made after it: what that one joins was left over by the merge before. -/
theorem Merged.weightAt_le_succ (h : Merged m n k) {j : Nat} (hn : n ≤ j) (hk : j + 1 < k) :
    weightAt m j ≤ weightAt m (j + 1) := by
  obtain ⟨a, b, hnode, hab⟩ := h j hn (by omega)
  obtain ⟨c, d, hnode', hcd⟩ := h (j + 1) (by omega) hk
  have hwj : weightAt m j = weightAt m a + weightAt m b := weightAt_of_internal hnode
  have hwj' : weightAt m (j + 1) = weightAt m c + weightAt m d := weightAt_of_internal hnode'
  have hle : weightAt m a ≤ weightAt m b := weightAt_le_of_keyBefore (hab.left_least b hab.right hab.ne.symm)
  have hleft {x : Nat} (hx : Unmerged m n (j + 1) x) : x = j ∨ weightAt m b ≤ weightAt m x := by
    obtain ⟨hlt, hnot⟩ := hx
    rw [mergedBefore_succ hn hnode, not_or, not_or] at hnot
    obtain ⟨hnot, hxa, hxb⟩ := hnot
    rcases Nat.lt_succ_iff_lt_or_eq.1 hlt with hlt | hxj
    · exact .inr (weightAt_le_of_keyBefore (hab.right_least x ⟨hlt, hnot⟩ hxa hxb))
    · exact .inl hxj
  rcases hleft hcd.left with rfl | hc
  · omega
  · rcases hleft hcd.right with rfl | hd <;> omega

/-- Merged nodes weigh no less the later they are made. -/
theorem Merged.weightAt_mono (h : Merged m n k) {i j : Nat} (hn : n ≤ i) (hij : i ≤ j) (hk : j < k) :
    weightAt m i ≤ weightAt m j := by
  induction j, hij using Nat.le_induction with
  | base => exact le_rfl
  | succ j hij ih => exact (ih (by omega)).trans (h.weightAt_le_succ (by omega) hk)

/-- Of two merged nodes the one whose key is not greater has the parent that was made no later: were `j` merged first, then
`i` would be left over at that merge, or be made by it or after it and weigh no less, and so have the greater key. -/
theorem Merged.parent_le (h : Merged m n k) {i j i' j' : Nat} (hi' : n ≤ i') (hik : i' < k) (hj' : n ≤ j')
    (hjk : j' < k) (hi : childOf m i i') (hj : childOf m j j') (hle : ¬ keyBefore m j i) : i' ≤ j' := by
  by_contra hlt
  obtain ⟨⟨hii', hnot⟩, -⟩ := h.of_childOf hi' hik hi
  obtain ⟨⟨hjj', -⟩, hwj⟩ := h.of_childOf hj' hjk hj
  refine hle ?_
  by_cases hij' : i < j'
  · refine h.keyBefore_of_childOf hj' hjk hj ⟨hij', fun hm => hnot ?_⟩ fun hc => hnot ?_
    · obtain ⟨x, w, l, r, hnx, hx, hrest⟩ := hm
      exact ⟨x, w, l, r, hnx, by omega, hrest⟩
    · exact mergedBefore_of_childOf hj' (by omega) hc
  · have hwi := h.weightAt_mono hj' (by omega : j' ≤ i) (by omega)
    rw [keyBefore]
    omega

end Order

/-! ## Paths and depths (R152, R160) -/

/-- The first branch of a path leads from a valid Internal node to a child that is not NIL. -/
theorem follow_cons_eq_some_iff {P : Params} {m : Memory} {i j : Nat} {b : Bool} {p : Codeword} :
    follow P m i (b :: p) = some j ↔ ∃ w l r, m.readNode i = some (.internal w l r) ∧ (if b then r else l) ≠ P.nil ∧
      follow P m (if b then r else l) p = some j := by
  rw [follow]
  rcases hn : m.readNode i with _ | (_ | ⟨w, l, r⟩)
  · simp
  · simp
  · simp

/-- The last branch of a path leads from an Internal node to its child. -/
theorem follow_append_singleton {P : Params} {m : Memory} {i j : Nat} {p : Codeword} {b : Bool}
    (h : follow P m i (p ++ [b]) = some j) : ∃ i', follow P m i p = some i' ∧ childOf m j i' := by
  induction p generalizing i with
  | nil =>
    obtain ⟨w, l, r, hn, -, hj⟩ := follow_cons_eq_some_iff.1 h
    cases hj
    exact ⟨i, rfl, w, l, r, hn, by cases b <;> simp⟩
  | cons c p ih =>
    obtain ⟨w, l, r, hn, hnil, hj⟩ := follow_cons_eq_some_iff.1 h
    obtain ⟨i', hi', hc⟩ := ih hj
    exact ⟨i', follow_cons_eq_some_iff.2 ⟨w, l, r, hn, hnil, hi'⟩, hc⟩

/-- In a tree merged up to its root, of two nodes with paths from the root the one with the greater key does not lie
deeper. -/
theorem Merged.depth_le {P : Params} {m : Memory} {n k : Nat} (h : Merged m n (k + 1))
    (hint : ∀ i j, childOf m i j → n ≤ j ∧ j ≤ k) {p q : Codeword} {i j : Nat}
    (hp : follow P m k p = some i) (hq : follow P m k q = some j) (hle : ¬ keyBefore m j i) : q.length ≤ p.length := by
  induction q using List.reverseRecOn generalizing p i j with
  | nil => exact Nat.zero_le _
  | append_singleton q b ih =>
    obtain ⟨j', hq', hj⟩ := follow_append_singleton hq
    obtain ⟨hnj, hjk⟩ := hint _ _ hj
    obtain ⟨⟨hlt, -⟩, hwj⟩ := h.of_childOf hnj (by omega) hj
    rcases List.eq_nil_or_concat' p with rfl | ⟨p, c, rfl⟩
    · cases hp
      have hw := h.weightAt_mono hnj hjk (by omega)
      refine absurd ?_ hle
      rw [keyBefore]
      omega
    · obtain ⟨i', hp', hi⟩ := follow_append_singleton hp
      obtain ⟨hni, hik⟩ := hint _ _ hi
      have hle' := h.parent_le hni (by omega) hnj (by omega) hi hj hle
      have hw := h.weightAt_mono hni hle' (by omega)
      have hlen := ih hp' hq' (by rw [keyBefore]; omega)
      simpa using hlen

/-! ## The leaves and the Internal nodes of the built tree (R143) -/

theorem internal_of_buildTree {P : Params} {m : Memory} {i : Nat} (hn : (presentSymbols P m).length ≤ i)
    (hi : i < builtCount (presentSymbols P m).length) : ∃ w l r, (buildTree P m).readNode i = some (.internal w l r) := by
  by_cases hs : ∃ z, presentSymbols P m = [z]
  · obtain ⟨z, hz⟩ := hs
    rw [hz] at hn hi
    have hi1 : i = 1 := Nat.le_antisymm (Nat.le_of_lt_succ hi) hn
    exact ⟨_, _, _, by rw [buildTree_single hz, Memory.readNode_writeNode, if_pos hi1]⟩
  · rw [builtCount_of_ne_single (not_exists.1 hs)] at hi
    obtain ⟨e, he, -⟩ := merging_buildTree (P := P) (m := m) (by omega)
    obtain ⟨a, b, hnode, -⟩ := he.merged i hn (by omega)
    exact ⟨_, _, _, hnode⟩

/-- A Leaf of the built tree holds a symbol present with its count. -/
theorem leaf_of_buildTree {P : Params} {m : Memory} {i w y : Nat} (h : (buildTree P m).readNode i = some (.leaf w y)) :
    y ∈ presentSymbols P m ∧ w = m.readFreq y := by
  by_cases hn : i < (presentSymbols P m).length
  · have hy := List.getElem?_eq_getElem hn
    cases (readNode_buildTree_leaf hy).symm.trans h
    exact ⟨List.mem_of_getElem? hy, rfl⟩
  · by_cases hi : i < builtCount (presentSymbols P m).length
    · obtain ⟨w', l, r, hnode⟩ := internal_of_buildTree (by omega) hi
      cases hnode.symm.trans h
    · cases (readNode_buildTree_of_le (by omega)).symm.trans h

/-- The Internal nodes of the built tree are the entries after the leaves. -/
theorem of_childOf_buildTree {P : Params} {m : Memory} {i j : Nat} (h : childOf (buildTree P m) i j) :
    (presentSymbols P m).length ≤ j ∧ j < builtCount (presentSymbols P m).length := by
  obtain ⟨w, l, r, hnode, -⟩ := h
  constructor
  · by_contra hn
    cases (readNode_buildTree_leaf (List.getElem?_eq_getElem (by omega : j < _))).symm.trans hnode
  · by_contra hj
    cases (readNode_buildTree_of_le (by omega)).symm.trans hnode

/-- Settles O19: the greater count is the greater key, and of two nodes the one with the greater key does not lie deeper; a
tree of one symbol has one count. -/
theorem greaterCountNeverLiesDeeper : Obligations.GreaterCountNeverLiesDeeper := by
  intro s t a b p q hs h ht hlt ⟨i, w, hp, hi⟩ ⟨j, v, hq, hj⟩
  have hb := built_of_exec hs h ht
  rw [hb.mem] at hp hi hq hj
  obtain ⟨ha, hw⟩ := leaf_of_buildTree hi
  obtain ⟨hb', hv⟩ := leaf_of_buildTree hj
  have hne : (presentSymbols s.inst s.mem).length ≠ 1 := fun h1 => by
    obtain ⟨z, hz⟩ := List.length_eq_one_iff.1 h1
    rw [hz, List.mem_singleton] at ha hb'
    rw [ha, hb'] at hlt
    exact hlt.false
  have hn2 : 2 ≤ (presentSymbols s.inst s.mem).length := by
    have := List.length_pos_iff.2 hb.present
    omega
  obtain ⟨e, he, -⟩ := merging_buildTree hn2
  have hroot : t.root = 2 * (presentSymbols s.inst s.mem).length - 2 := by
    rw [hb.root, builtCount_of_two_le hn2]
    omega
  rw [hroot] at hp hq
  refine he.merged.depth_le (fun x y hc => ?_) hq hp ?_
  · have hxy := of_childOf_buildTree hc
    rw [builtCount_of_two_le hn2] at hxy
    omega
  · rw [keyBefore, weightAt_of_leaf hi, weightAt_of_leaf hj]
    omega

end Sys2Proof.Machine
end

section
/-! The paths of a tree and the order of a traversal, as DERIVE's visit meets them (R160, R162). -/

namespace Sys2Proof.Machine

/-! ## Paths (R160) -/

theorem follow_append {P : Params} {m : Memory} {i : Nat} {p q : Codeword} :
    follow P m i (p ++ q) = (follow P m i p).bind fun j => follow P m j q := by
  induction p generalizing i with
  | nil => rfl
  | cons b p ih =>
    rw [List.cons_append, follow, follow]
    rcases m.readNode i with _ | (_ | ⟨w, l, r⟩)
    · rfl
    · rfl
    · by_cases hnil : (if b then r else l) = P.nil
      · simp [hnil]
      · simp [hnil, ih]

/-- No path goes on from an entry that is not an Internal node. -/
theorem eq_nil_of_follow {P : Params} {m : Memory} {i j : Nat} {p : Codeword} (h : follow P m i p = some j)
    (hn : ∀ w l r, m.readNode i ≠ some (.internal w l r)) : p = [] := by
  cases p with
  | nil => rfl
  | cons b p =>
    obtain ⟨w, l, r, hi, -⟩ := follow_cons_eq_some_iff.1 h
    exact absurd hi (hn w l r)

/-- A path that extends one to an entry that is not an Internal node is that path. -/
theorem eq_of_follow_of_prefix {P : Params} {m : Memory} {i j k : Nat} {p q : Codeword} (hp : follow P m i p = some j)
    (hn : ∀ w l r, m.readNode j ≠ some (.internal w l r)) (hpq : p <+: q) (hq : follow P m i q = some k) : q = p := by
  obtain ⟨r, rfl⟩ := hpq
  rw [follow_append, hp] at hq
  rw [eq_nil_of_follow hq hn, List.append_nil]

/-- "A Leaf has no children and DERIVE never descends below one" (R166). -/
theorem leafAt.eq_of_prefix {s : State} {p q : Codeword} {a b : Nat} (ha : leafAt s p a) (hb : leafAt s q b)
    (hpq : p <+: q) : q = p := by
  obtain ⟨i, w, hp, hi⟩ := ha
  obtain ⟨j, v, hq, -⟩ := hb
  exact eq_of_follow_of_prefix hp (fun _ _ _ h => by cases hi.symm.trans h) hpq hq

theorem leafAt.symbol_eq {s : State} {p : Codeword} {a b : Nat} (ha : leafAt s p a) (hb : leafAt s p b) : a = b := by
  obtain ⟨i, w, hp, hi⟩ := ha
  obtain ⟨j, v, hq, hj⟩ := hb
  cases hp.symm.trans hq
  cases hi.symm.trans hj
  rfl

/-! ## The traversal order (R162) -/

@[simp] theorem visitedBefore_nil_right (p : Codeword) : visitedBefore p [] = false := by cases p <;> rfl

theorem visitedBefore_append_left (r p q : Codeword) : visitedBefore (r ++ p) (r ++ q) = visitedBefore p q := by
  induction r with
  | nil => rfl
  | cons b r ih => rw [List.cons_append, List.cons_append, visitedBefore, if_pos rfl, ih]

theorem visitedBefore_self (p : Codeword) : visitedBefore p p = false := by
  simpa using visitedBefore_append_left p [] []

/-- A node comes before the nodes below it. -/
theorem not_visitedBefore_of_prefix {p q : Codeword} (h : p <+: q) : visitedBefore q p = false := by
  obtain ⟨r, rfl⟩ := h
  simpa using visitedBefore_append_left p r []

/-- The nodes below the left child come before those below the right one. -/
theorem not_visitedBefore_right_left {p q r : Codeword} (hq : p ++ [true] <+: q) (hr : p ++ [false] <+: r) :
    visitedBefore q r = false := by
  obtain ⟨q, rfl⟩ := hq
  obtain ⟨r, rfl⟩ := hr
  rw [List.append_assoc, List.append_assoc, visitedBefore_append_left]
  rfl

/-- The left child is visited right after the node. -/
theorem visitedBefore_left_iff {p q : Codeword} :
    visitedBefore q (p ++ [false]) = true ↔ visitedBefore q p = true ∨ q = p := by
  induction p generalizing q with
  | nil => cases q <;> simp [visitedBefore]
  | cons b p ih =>
    cases q with
    | nil => simp [visitedBefore]
    | cons c q => by_cases hcb : c = b <;> simp [visitedBefore, hcb, ih]

/-- The right child is visited right after the nodes from the left child down. -/
theorem visitedBefore_right_iff {p q : Codeword} :
    visitedBefore q (p ++ [true]) = true ↔ visitedBefore q (p ++ [false]) = true ∨ p ++ [false] <+: q := by
  induction p generalizing q with
  | nil =>
    rcases q with _ | ⟨c, q⟩
    · simp [visitedBefore]
    · cases c <;> simp [visitedBefore]
  | cons b p ih =>
    cases q with
    | nil => simp [visitedBefore]
    | cons c q =>
      rcases eq_or_ne b c with rfl | hcb
      · simp [visitedBefore, ih]
      · simp [visitedBefore, hcb, hcb.symm]

/-- From a node down: the node, then from its left child down, then from its right child down. -/
theorem prefix_iff_child {p q : Codeword} : p <+: q ↔ q = p ∨ p ++ [false] <+: q ∨ p ++ [true] <+: q := by
  constructor
  · rintro ⟨_ | ⟨b, r⟩, rfl⟩
    · exact .inl (List.append_nil p)
    · cases b <;> simp
  · rintro (rfl | h | h)
    · exact List.prefix_rfl
    · exact (List.prefix_append _ _).trans h
    · exact (List.prefix_append _ _).trans h

end Sys2Proof.Machine
end

section
/-! What DERIVE's visit does, in one induction over the depth that is left: it records the leaves from its node down, or
stops at the first fault (R161 to R165). -/

namespace Sys2Proof.Machine

/-! ## The visit, entry by entry (R161) -/

theorem readNode_congr {m m' : Memory} {i : Nat} {word : Option NodeWord} (h : m'.node = m.node)
    (hi : m.readNode i = word) : m'.readNode i = word := by
  rw [← hi, Memory.readNode, Memory.readNode, h]

theorem visit_invalid {P : Params} {room i : Nat} {path : Codeword} {m : Memory} (hn : m.readNode i = none) :
    visit P room i path m = .error (.invalidNode, i) := by
  cases room <;> rw [visit, hn]

theorem visit_tooDeep {P : Params} {i : Nat} {path : Codeword} {m : Memory} {word : NodeWord}
    (hn : m.readNode i = some word) : visit P 0 i path m = .error (.codeTooLong, i) := by
  rw [visit, hn]

theorem visit_leaf {P : Params} {room i w y : Nat} {path : Codeword} {m : Memory}
    (hn : m.readNode i = some (.leaf w y)) :
    visit P (room + 1) i path m = if path = [] then .error (.rootIsLeaf, i)
      else if m.readCt y ≠ [] then .error (.duplicateSymbol, y) else .ok (m.writeCt y path) := by
  rw [visit, hn]

/-- The visit of a child, which is skipped when it is NIL. -/
def visitChild (P : Params) (room c : Nat) (path : Codeword) (m : Memory) : Except (FaultCode × Nat) Memory :=
  if c = P.nil then .ok m else visit P room c path m

theorem visit_internal {P : Params} {room i w l r : Nat} {path : Codeword} {m : Memory}
    (hn : m.readNode i = some (.internal w l r)) :
    visit P (room + 1) i path m =
      (visitChild P room l (path ++ [false]) m).bind (visitChild P room r (path ++ [true])) := by
  simp only [visit, hn, visitChild]
  cases (if l = P.nil then .ok m else visit P room l (path ++ [false]) m) <;> rfl

/-! ## What a visit answers -/

/-- CT holds the path of each leaf whose path satisfies `visited`, and nothing for any other symbol. -/
def Records (s : State) (visited : Codeword → Prop) (m : Memory) : Prop :=
  ∀ y p, (m.readCt y = p ∧ p ≠ []) ↔ leafAt s p y ∧ visited p

/-- Of the visits of the nodes from `path` down, this is the first fault. -/
def FirstFault (s : State) (path : Codeword) (f : FaultCode) (info : Nat) : Prop :=
  ∃ p, path <+: p ∧ visitFault s p f info ∧
    ∀ q g k, path <+: q → visitedBefore q p = true → ¬ visitFault s q g k

/-- What the visit of the node at `path` answers: CT with the leaves visited so far, or the first fault. -/
def VisitAnswer (s : State) (path : Codeword) : Except (FaultCode × Nat) Memory → Prop
  | .ok m => m.node = s.mem.node ∧ Records s (fun p => visitedBefore p path = true ∨ path <+: p) m ∧
      ∀ p f info, path <+: p → ¬ visitFault s p f info
  | .error (f, info) => FirstFault s path f info

theorem Records.congr {s : State} {d d' : Codeword → Prop} {m : Memory} (h : Records s d m)
    (hd : ∀ p y, leafAt s p y → (d p ↔ d' p)) : Records s d' m :=
  fun y p => (h y p).trans (and_congr_right (hd p y))

/-- A symbol has a codeword exactly when one of its leaves has been visited. -/
theorem Records.readCt_ne_nil_iff {s : State} {d : Codeword → Prop} {m : Memory} (h : Records s d m) {y : Nat} :
    m.readCt y ≠ [] ↔ ∃ p, leafAt s p y ∧ d p :=
  ⟨fun hy => ⟨_, (h y _).1 ⟨rfl, hy⟩⟩, fun ⟨p, hp⟩ => by obtain ⟨rfl, hne⟩ := (h y p).2 hp; exact hne⟩

/-- A codeword in CT is the path of a leaf of its symbol. -/
theorem Records.leafAt {s : State} {d : Codeword → Prop} {m : Memory} (h : Records s d m) {y : Nat}
    (hy : m.readCt y ≠ []) : leafAt s (m.readCt y) y :=
  ((h y _).1 ⟨rfl, hy⟩).1

/-- The checks of R161 on the node at the end of a path. -/
theorem visitFault_iff {s : State} {path : Codeword} {i : Nat} (hi : follow s.inst s.mem s.root path = some i)
    {f : FaultCode} {info : Nat} :
    visitFault s path f info ↔
      (s.mem.readNode i = none ∧ f = .invalidNode ∧ info = i) ∨
      (s.mem.readNode i ≠ none ∧ path.length > s.inst.clmax ∧ f = .codeTooLong ∧ info = i) ∨
      (path.length ≤ s.inst.clmax ∧ ∃ w y, s.mem.readNode i = some (.leaf w y) ∧
        ((path = [] ∧ f = .rootIsLeaf ∧ info = i) ∨
         (path ≠ [] ∧ (∃ q, visitedBefore q path = true ∧ leafAt s q y) ∧ f = .duplicateSymbol ∧ info = y))) := by
  simp only [visitFault, hi, Option.some.injEq, exists_eq_left']

/-- A fault of the node itself comes before all faults below it. -/
theorem visitFault.firstFault {s : State} {path : Codeword} {f : FaultCode} {info : Nat}
    (h : visitFault s path f info) : FirstFault s path f info :=
  ⟨path, List.prefix_rfl, h, fun q _ _ hq hb => by rw [not_visitedBefore_of_prefix hq] at hb; cases hb⟩

/-! ## The visit of a Leaf, of an absent child, of an Internal node -/

/-- A valid Leaf within CLMAX: the root, a second leaf of its symbol, or a codeword written. -/
theorem VisitAnswer.leaf {s : State} {path : Codeword} {i w y : Nat} {m : Memory} (hnode : m.node = s.mem.node)
    (hi : follow s.inst s.mem s.root path = some i) (hn : s.mem.readNode i = some (.leaf w y))
    (hlen : path.length ≤ s.inst.clmax) (hm : Records s (fun p => visitedBefore p path = true) m) :
    VisitAnswer s path (if path = [] then .error (.rootIsLeaf, i)
      else if m.readCt y ≠ [] then .error (.duplicateSymbol, y) else .ok (m.writeCt y path)) := by
  have hleaf : leafAt s path y := ⟨i, w, hi, hn⟩
  have hdup : m.readCt y ≠ [] ↔ ∃ q, visitedBefore q path = true ∧ leafAt s q y :=
    hm.readCt_ne_nil_iff.trans (exists_congr fun _ => and_comm)
  split_ifs with hroot hct
  · exact ((visitFault_iff hi).2 (.inr (.inr ⟨hlen, w, y, hn, .inl ⟨hroot, rfl, rfl⟩⟩))).firstFault
  · exact ((visitFault_iff hi).2 (.inr (.inr ⟨hlen, w, y, hn, .inr ⟨hroot, hdup.1 hct, rfl, rfl⟩⟩))).firstFault
  · refine ⟨hnode, fun z p => ?records, fun p f info hp hf => ?nofault⟩
    case records =>
      have hbelow (hz : leafAt s p z) (hp : path <+: p) : p = path ∧ z = y := by
        obtain rfl := hleaf.eq_of_prefix hz hp
        exact ⟨rfl, hz.symbol_eq hleaf⟩
      rw [Memory.readCt_writeCt]
      split_ifs with hzy
      · subst hzy
        constructor
        · rintro ⟨rfl, -⟩
          exact ⟨hleaf, .inr List.prefix_rfl⟩
        · rintro ⟨hz, hb | hp⟩
          · exact absurd ⟨p, hb, hz⟩ (mt hdup.2 hct)
          · obtain ⟨rfl, -⟩ := hbelow hz hp
            exact ⟨rfl, hroot⟩
      · rw [hm z p]
        exact and_congr_right fun hz => (or_iff_left fun hp => hzy (hbelow hz hp).2).symm
    case nofault =>
      obtain ⟨j, hj, -⟩ := id hf
      obtain rfl := eq_of_follow_of_prefix hi (fun _ _ _ h => by cases hn.symm.trans h) hp hj
      rcases (visitFault_iff hi).1 hf with ⟨h, -⟩ | ⟨-, h, -⟩ | ⟨-, w', y', hn', h⟩
      · cases hn.symm.trans h
      · omega
      · cases hn.symm.trans hn'
        rcases h with ⟨h, -⟩ | ⟨-, h, -⟩
        · exact hroot h
        · exact hct (hdup.2 h)

/-- An absent child is skipped, and nothing lies below it. -/
theorem VisitAnswer.absent {s : State} {path : Codeword} {m : Memory} (hnode : m.node = s.mem.node)
    (hi : follow s.inst s.mem s.root path = none) (hm : Records s (fun p => visitedBefore p path = true) m) :
    VisitAnswer s path (.ok m) := by
  have hbelow {p : Codeword} {i : Nat} (hp : path <+: p) : follow s.inst s.mem s.root p ≠ some i := by
    obtain ⟨r, rfl⟩ := hp
    rw [follow_append, hi]
    simp
  refine ⟨hnode, hm.congr fun p y ⟨i, _, hpi, _⟩ => (or_iff_left fun hp => hbelow hp hpi).symm, ?_⟩
  rintro p f info hp ⟨i, hpi, -⟩
  exact hbelow hp hpi

/-- An Internal node within CLMAX: first the left child, then, if no fault was met, the right one. -/
theorem VisitAnswer.internal {s : State} {path : Codeword} {i w l r : Nat} {left : Except (FaultCode × Nat) Memory}
    {right : Memory → Except (FaultCode × Nat) Memory} (hi : follow s.inst s.mem s.root path = some i)
    (hn : s.mem.readNode i = some (.internal w l r)) (hlen : path.length ≤ s.inst.clmax)
    (hleft : VisitAnswer s (path ++ [false]) left)
    (hright : ∀ m, m.node = s.mem.node → Records s (fun p => visitedBefore p (path ++ [true]) = true) m →
      VisitAnswer s (path ++ [true]) (right m)) :
    VisitAnswer s path (left.bind right) := by
  have hself (f : FaultCode) (info : Nat) : ¬ visitFault s path f info := by
    rw [visitFault_iff hi, hn]
    simp [hlen]
  have hsub (b : Bool) : path <+: path ++ [b] := List.prefix_append _ _
  rcases left with ⟨f, info⟩ | m
  · obtain ⟨p, hp, hf, hfirst⟩ := hleft
    refine ⟨p, (hsub _).trans hp, hf, fun q g k hq hb => ?_⟩
    rcases prefix_iff_child.1 hq with rfl | hq | hq
    · exact hself g k
    · exact hfirst q g k hq hb
    · rw [not_visitedBefore_right_left hq hp] at hb
      cases hb
  · obtain ⟨hnode, hm, hnone⟩ := hleft
    have hr := hright m hnode (hm.congr fun p _ _ => visitedBefore_right_iff.symm)
    change VisitAnswer s path (right m)
    generalize right m = answer at hr
    rcases answer with ⟨f, info⟩ | m'
    · obtain ⟨p, hp, hf, hfirst⟩ := hr
      refine ⟨p, (hsub _).trans hp, hf, fun q g k hq hb => ?_⟩
      rcases prefix_iff_child.1 hq with rfl | hq | hq
      · exact hself g k
      · exact hnone q g k hq
      · exact hfirst q g k hq hb
    · obtain ⟨hnode', hm', hnone'⟩ := hr
      refine ⟨hnode', hm'.congr fun p _ _ => ?_, fun p f info hp => ?_⟩
      · rw [visitedBefore_right_iff, visitedBefore_left_iff, prefix_iff_child (p := path)]
        tauto
      · rcases prefix_iff_child.1 hp with rfl | hp | hp
        · exact hself f info
        · exact hnone p f info hp
        · exact hnone' p f info hp

/-! ## The whole visit -/

/-- A visit that starts with the leaves before its node recorded goes on to the leaves from its node down, or answers
the first fault there. -/
theorem visitAnswer_visit {s : State} {room i : Nat} {path : Codeword} {m : Memory} (hnode : m.node = s.mem.node)
    (hi : follow s.inst s.mem s.root path = some i) (hroom : room + path.length = s.inst.clmax + 1)
    (hm : Records s (fun p => visitedBefore p path = true) m) : VisitAnswer s path (visit s.inst room i path m) := by
  induction room generalizing i path m with
  | zero =>
    rcases hn : s.mem.readNode i with _ | word
    · rw [visit_invalid (readNode_congr hnode hn)]
      exact ((visitFault_iff hi).2 (.inl ⟨hn, rfl, rfl⟩)).firstFault
    · rw [visit_tooDeep (readNode_congr hnode hn)]
      exact ((visitFault_iff hi).2 (.inr (.inl ⟨by simp [hn], by omega, rfl, rfl⟩))).firstFault
  | succ room ih =>
    rcases hn : s.mem.readNode i with _ | (⟨w, y⟩ | ⟨w, l, r⟩)
    · rw [visit_invalid (readNode_congr hnode hn)]
      exact ((visitFault_iff hi).2 (.inl ⟨hn, rfl, rfl⟩)).firstFault
    · rw [visit_leaf (readNode_congr hnode hn)]
      exact .leaf hnode hi hn (by omega) hm
    · have hchild (b : Bool) (m' : Memory) (hnode' : m'.node = s.mem.node)
          (hm' : Records s (fun p => visitedBefore p (path ++ [b]) = true) m') :
          VisitAnswer s (path ++ [b]) (visitChild s.inst room (if b then r else l) (path ++ [b]) m') := by
        have hfollow : follow s.inst s.mem s.root (path ++ [b]) = follow s.inst s.mem i [b] := by
          rw [follow_append, hi, Option.bind_some]
        by_cases hnil : (if b then r else l) = s.inst.nil
        · rw [visitChild, if_pos hnil]
          exact .absent hnode' (by rw [hfollow, follow, hn]; exact if_pos hnil) hm'
        · rw [visitChild, if_neg hnil]
          refine ih hnode' ?_ (by rw [List.length_append, List.length_singleton]; omega) hm'
          exact hfollow.trans (follow_cons_eq_some_iff.2 ⟨w, l, r, hn, hnil, rfl⟩)
      rw [visit_internal (readNode_congr hnode hn)]
      refine .internal hi hn (by omega) (hchild false m hnode (hm.congr fun p y hp => ?_)) (hchild true)
      rw [visitedBefore_left_iff]
      refine (or_iff_left ?_).symm
      rintro rfl
      obtain ⟨j, v, hj, hv⟩ := hp
      cases hi.symm.trans hj
      cases hn.symm.trans hv

end Sys2Proof.Machine
end

section
/-! The rules of the code-table deriver (R160 to R166). -/

namespace Sys2Proof.Machine

/-! ## The outcomes of DERIVE (R161) -/

theorem exec_derive_noTree {s : State} (hf : s.fault = none) (hr : s.root = s.inst.nil) :
    exec .derive s = .next (raised .noTree 0 { s with mem := s.mem.clearCt }) := by
  rw [← raise_live (s := { s with mem := s.mem.clearCt }) hf]
  exact (unlessFaulted_live hf _).trans (require_neg (not_not.2 hr) _ _ _ _)

theorem exec_derive_ok {s : State} {m : Memory} (hf : s.fault = none) (hr : s.root ≠ s.inst.nil)
    (h : visit s.inst (s.inst.clmax + 1) s.root [] s.mem.clearCt = .ok m) :
    exec .derive s = .next { s with mem := m } :=
  (unlessFaulted_live hf _).trans ((require_pos hr _ _ _ _).trans (by rw [h]))

theorem exec_derive_error {s : State} {f : FaultCode} {info : Nat} (hf : s.fault = none) (hr : s.root ≠ s.inst.nil)
    (h : visit s.inst (s.inst.clmax + 1) s.root [] s.mem.clearCt = .error (f, info)) :
    exec .derive s = .next (raised f info { s with mem := s.mem.clearCt }) := by
  rw [← raise_live (s := { s with mem := s.mem.clearCt }) hf]
  exact (unlessFaulted_live hf _).trans ((require_pos hr _ _ _ _).trans (by rw [h]))

/-- The visit of the root records every leaf of the tree, or answers the first fault of all. -/
theorem visitAnswer_root (s : State) :
    VisitAnswer s [] (visit s.inst (s.inst.clmax + 1) s.root [] s.mem.clearCt) := by
  refine visitAnswer_visit rfl rfl rfl fun y p => ?_
  simp

/-- DERIVE of a tree that gives a code table records the leaves' paths and writes nothing but CT. -/
theorem exists_of_derivable {s : State} (hf : s.fault = none) (hd : derivable s) :
    ∃ m, exec .derive s = .next { s with mem := m } ∧ (m.freq = s.mem.freq ∧ m.node = s.mem.node) ∧
      Records s (fun _ => True) m := by
  obtain ⟨hr, hnone⟩ := hd
  have hanswer := visitAnswer_root s
  rcases hv : visit s.inst (s.inst.clmax + 1) s.root [] s.mem.clearCt with ⟨f, info⟩ | m
  · rw [hv] at hanswer
    obtain ⟨p, -, hp, -⟩ := hanswer
    exact absurd hp (hnone p f info)
  · rw [hv] at hanswer
    obtain ⟨-, hm, -⟩ := hanswer
    exact ⟨m, exec_derive_ok hf hr hv, (visit_frame hv :), hm.congr fun _ _ _ => by simp⟩

/-- Settles O21: format N, and the visit of the root, which meets no fault. -/
theorem deriveRecordsEachLeafsPath : Obligations.DeriveRecordsEachLeafsPath := by
  refine ⟨encodedN_of_formatN 0x0E#5 _ fun P c h => by rw [decode, h]; rfl, fun s hf hd => ?_⟩
  obtain ⟨m, hexec, ⟨hfreq, hnode⟩, hct⟩ := exists_of_derivable hf hd
  refine ⟨m, hexec, fun y p => (hct y p).trans (and_iff_left trivial), fun y => ?_,
    fun i => readNode_congr hnode rfl⟩
  rw [Memory.readFreq, hfreq, Memory.readFreq]

/-- Settles O22: no root, or a visit of the root that cannot end well and so answers the first fault. -/
theorem deriveReportsTheFirstFaultAndEmptiesTheTable : Obligations.DeriveReportsTheFirstFaultAndEmptiesTheTable := by
  intro s hf hd
  by_cases hr : s.root = s.inst.nil
  · exact ⟨_, _, _, exec_derive_noTree hf hr, fun _ => rfl, fun _ => rfl, fun _ => rfl, .inl ⟨hr, rfl, rfl⟩⟩
  · have hanswer := visitAnswer_root s
    rcases hv : visit s.inst (s.inst.clmax + 1) s.root [] s.mem.clearCt with ⟨f, info⟩ | m
    · rw [hv] at hanswer
      obtain ⟨p, -, hp, hfirst⟩ := hanswer
      exact ⟨_, _, _, exec_derive_error hf hr hv, fun _ => rfl, fun _ => rfl, fun _ => rfl,
        .inr ⟨hr, p, hp, fun q g k => hfirst q g k List.nil_prefix⟩⟩
    · rw [hv] at hanswer
      obtain ⟨-, -, hnone⟩ := hanswer
      exact absurd ⟨hr, fun p f info => hnone p f info List.nil_prefix⟩ hd

/-! ## A DERIVE without fault (R164, R166) -/

/-- A DERIVE that raises no fault found a tree that gives a code table, and recorded the leaves' paths. -/
structure Derived (s t : State) : Prop where
  derivable : derivable s
  node : t.mem.node = s.mem.node
  root : t.root = s.root
  inst : t.inst = s.inst
  dact : t.dact = s.dact
  records : Records s (fun _ => True) t.mem

theorem derived_of_exec {s t : State} (hf : s.fault = none) (h : exec .derive s = .next t) (ht : t.fault = none) :
    Derived s t := by
  have hd : derivable s := by
    by_contra hd
    obtain ⟨f, info, m, hexec, -⟩ := deriveReportsTheFirstFaultAndEmptiesTheTable s hf hd
    cases hexec.symm.trans h
    cases ht
  obtain ⟨m, hexec, ⟨-, hnode⟩, hct⟩ := exists_of_derivable hf hd
  cases hexec.symm.trans h
  exact ⟨hd, hnode, rfl, rfl, rfl, hct⟩

/-- Settles O23: two codewords are the paths of two leaves, and no leaf lies below another. -/
theorem derivedTableIsPrefixFree : Obligations.DerivedTableIsPrefixFree := by
  intro s t hf h ht a b hab ha hb hpre
  have hct := (derived_of_exec hf h ht).records
  have hla := hct.leafAt ha
  have hlb := hct.leafAt hb
  exact hab (hla.symbol_eq (hla.eq_of_prefix hlb hpre ▸ hlb))

end Sys2Proof.Machine
end

section
/-! A tree of a BUILD is strict: no sharing and no cycles, every node reached, one Leaf per symbol; so at the default
CLMAX DERIVE meets no fault in it (R7, R163, R164). -/

namespace Sys2Proof.Machine

/-! ## Branches -/

/-- The branch `b` of the Internal node `j` leads to the entry `i`. -/
def Branch (P : Params) (m : Memory) (j : Nat) (b : Bool) (i : Nat) : Prop :=
  ∃ w l r, m.readNode j = some (.internal w l r) ∧ (if b then r else l) = i ∧ i ≠ P.nil

theorem follow_append_singleton_iff {P : Params} {m : Memory} {i k : Nat} {p : Codeword} {b : Bool} :
    follow P m k (p ++ [b]) = some i ↔ ∃ j, follow P m k p = some j ∧ Branch P m j b i := by
  rw [follow_append, Option.bind_eq_some_iff]
  refine exists_congr fun j => and_congr_right fun _ => follow_cons_eq_some_iff.trans ?_
  simp only [Branch, follow, Option.some.injEq]
  constructor
  · rintro ⟨w, l, r, hj, hnil, rfl⟩
    exact ⟨w, l, r, hj, rfl, hnil⟩
  · rintro ⟨w, l, r, hj, rfl, hnil⟩
    exact ⟨w, l, r, hj, hnil, rfl⟩

/-- The two branches of a node with distinct children lead to distinct entries. -/
theorem eq_of_child_eq {l r : Nat} (hlr : l ≠ r) : ∀ {b b' : Bool},
    (if b then r else l) = (if b' then r else l) → b = b'
  | false, false, _ => rfl
  | false, true, h => absurd h hlr
  | true, false, h => absurd h.symm hlr
  | true, true, _ => rfl

/-! ## Strict trees (R164) -/

/-- "Strict tree, no sharing, no cycles" with the Internal nodes from `n` to `root`, each made after its children: every
other node up to `root` has one parent. -/
structure StrictTree (P : Params) (m : Memory) (n root : Nat) : Prop where
  internal : ∀ {j b i}, Branch P m j b i → n ≤ j ∧ j ≤ root
  child_lt : ∀ {j b i}, Branch P m j b i → i < j
  parent_unique : ∀ {j b j' b' i}, Branch P m j b i → Branch P m j' b' i → j = j' ∧ b = b'
  parent : ∀ {i}, i < root → ∃ j b, Branch P m j b i

namespace StrictTree

variable {P : Params} {m : Memory} {n root : Nat}

/-- Each branch of a path leads to a node made earlier. -/
theorem add_length_le (h : StrictTree P m n root) {p : Codeword} {i : Nat} (hp : follow P m root p = some i) :
    i + p.length ≤ root := by
  induction p using List.reverseRecOn generalizing i with
  | nil => cases hp; exact le_rfl
  | append_singleton p b ih =>
    obtain ⟨j, hj, hb⟩ := follow_append_singleton_iff.1 hp
    have hlt := h.child_lt hb
    have hle := ih hj
    rw [List.length_append, List.length_singleton]
    omega

/-- No path has more branches than the tree has Internal nodes. -/
theorem length_le (h : StrictTree P m n root) {p : Codeword} {i : Nat} (hp : follow P m root p = some i) :
    p.length ≤ root + 1 - n := by
  rcases List.eq_nil_or_concat' p with rfl | ⟨p, b, rfl⟩
  · exact Nat.zero_le _
  · obtain ⟨j, hj, hb⟩ := follow_append_singleton_iff.1 hp
    have hn := h.internal hb
    have hle := h.add_length_le hj
    rw [List.length_append, List.length_singleton]
    omega

/-- Two paths from the root to one node are the same path. -/
theorem path_unique (h : StrictTree P m n root) {p q : Codeword} {i : Nat} (hp : follow P m root p = some i)
    (hq : follow P m root q = some i) : p = q := by
  induction p using List.reverseRecOn generalizing q i with
  | nil =>
    cases hp
    have hle := h.add_length_le hq
    exact (List.length_eq_zero_iff.1 (by omega)).symm
  | append_singleton p b ih =>
    rcases List.eq_nil_or_concat' q with rfl | ⟨q, c, rfl⟩
    · cases hq
      have hle := h.add_length_le hp
      simp at hle
    · obtain ⟨j, hj, hb⟩ := follow_append_singleton_iff.1 hp
      obtain ⟨j', hj', hb'⟩ := follow_append_singleton_iff.1 hq
      obtain ⟨rfl, rfl⟩ := h.parent_unique hb hb'
      rw [ih hj hj']

/-- Every node is reached from the root. -/
theorem exists_path (h : StrictTree P m n root) {i : Nat} (hi : i ≤ root) : ∃ p, follow P m root p = some i := by
  induction hd : root - i using Nat.strong_induction_on generalizing i with
  | _ d ih =>
    rcases hi.eq_or_lt with rfl | hlt
    · exact ⟨[], rfl⟩
    · obtain ⟨j, b, hb⟩ := h.parent hlt
      have hij := h.child_lt hb
      have hj := (h.internal hb).2
      obtain ⟨p, hp⟩ := ih (root - j) (by omega) hj rfl
      exact ⟨p ++ [b], follow_append_singleton_iff.2 ⟨j, hp, hb⟩⟩

end StrictTree

/-! ## The tree of a BUILD is strict (R145, R146) -/

/-- The tree of two or more symbols: each node is merged once. -/
theorem Merging.strictTree {P : Params} {m : Memory} {n k : Nat} {e : Pending} (h : Merging m n (k + 1) [e])
    (hk : k ≤ P.nil) (hint : ∀ i j, childOf m i j → n ≤ j ∧ j ≤ k) : StrictTree P m n k := by
  have hchild {j i : Nat} {b : Bool} (hb : Branch P m j b i) : childOf m i j := by
    obtain ⟨w, l, r, hj, rfl, -⟩ := hb
    exact ⟨w, l, r, hj, by cases b <;> simp⟩
  have hunmerged {j i : Nat} {b : Bool} (hb : Branch P m j b i) : Unmerged m n j i :=
    have hj := hint _ _ (hchild hb)
    (h.merged.of_childOf hj.1 (by omega) (hchild hb)).1
  have hnotlt {j j' i : Nat} {b b' : Bool} (hb : Branch P m j b i) (hb' : Branch P m j' b' i) : ¬ j < j' :=
    fun hlt => (hunmerged hb').2 (mergedBefore_of_childOf (hint _ _ (hchild hb)).1 hlt (hchild hb))
  refine ⟨fun hb => hint _ _ (hchild hb), fun hb => (hunmerged hb).1, fun {j b j' b' i} hb hb' => ?_, fun {i} hi => ?_⟩
  · obtain rfl : j = j' := le_antisymm (not_lt.1 (hnotlt hb' hb)) (not_lt.1 (hnotlt hb hb'))
    have hj := hint _ _ (hchild hb)
    obtain ⟨x, y, hnode, hxy⟩ := h.merged j hj.1 (by omega)
    obtain ⟨w, l, r, hn, rfl, -⟩ := hb
    obtain ⟨w', l', r', hn', heq, -⟩ := hb'
    cases hnode.symm.trans hn
    cases hn.symm.trans hn'
    exact ⟨rfl, (eq_of_child_eq hxy.ne heq).symm⟩
  · obtain ⟨j, w, l, r, -, -, hj, hi'⟩ := h.mergedBefore_of_lt hi
    rcases hi' with rfl | rfl
    · exact ⟨j, false, w, _, r, hj, rfl, by omega⟩
    · exact ⟨j, true, w, l, _, hj, rfl, by omega⟩

/-- The tree of one symbol: its only branch is the left one of node 1 (R146). -/
theorem branch_buildTree_single_iff {P : Params} {m : Memory} {y : Nat} (hP : P.legal = true)
    (hy : presentSymbols P m = [y]) {j i : Nat} {b : Bool} :
    Branch P (buildTree P m) j b i ↔ j = 1 ∧ b = false ∧ i = 0 := by
  have hnode : (buildTree P m).readNode 1 = some (.internal (m.readFreq y) 0 P.nil) := by
    rw [buildTree_single hy, Memory.readNode_writeNode, if_pos rfl]
  constructor
  · rintro ⟨w, l, r, hj, hi, hnil⟩
    obtain ⟨hj1, hj2⟩ := of_childOf_buildTree ⟨w, l, r, hj, .inl rfl⟩
    rw [hy, List.length_singleton] at hj1 hj2
    obtain rfl : j = 1 := Nat.le_antisymm (Nat.le_of_lt_succ hj2) hj1
    cases hnode.symm.trans hj
    cases b with
    | false => exact ⟨rfl, rfl, hi.symm⟩
    | true => exact absurd hi.symm hnil
  · rintro ⟨rfl, rfl, rfl⟩
    have hnil : 2 ≤ P.nil := by
      have hcount := builtCount_le_nnodes hP m
      rwa [hy] at hcount
    exact ⟨_, _, _, hnode, rfl, by omega⟩

theorem strictTree_buildTree {P : Params} {m : Memory} (hP : P.legal = true) (hne : presentSymbols P m ≠ []) :
    StrictTree P (buildTree P m) (presentSymbols P m).length (builtCount (presentSymbols P m).length - 1) := by
  by_cases hs : ∃ y, presentSymbols P m = [y]
  · obtain ⟨y, hy⟩ := hs
    have hbranch {j i : Nat} {b : Bool} := branch_buildTree_single_iff hP hy (j := j) (i := i) (b := b)
    rw [hy]
    refine ⟨fun hb => ?_, fun hb => ?_, fun hb hb' => ?_, fun {i} hi => ⟨1, false, hbranch.2 ⟨rfl, rfl, ?_⟩⟩⟩
    · obtain ⟨rfl, -⟩ := hbranch.1 hb
      exact ⟨le_rfl, le_rfl⟩
    · obtain ⟨rfl, -, rfl⟩ := hbranch.1 hb
      exact Nat.one_pos
    · obtain ⟨rfl, rfl, -⟩ := hbranch.1 hb
      obtain ⟨rfl, rfl, -⟩ := hbranch.1 hb'
      exact ⟨rfl, rfl⟩
    · exact Nat.lt_one_iff.1 hi
  · rw [not_exists] at hs
    have hcount := builtCount_le_nnodes hP m
    rw [builtCount_of_ne_single hs] at hcount ⊢
    have hpos := List.length_pos_iff.2 hne
    have hn1 : (presentSymbols P m).length ≠ 1 := fun h1 => let ⟨y, hy⟩ := List.length_eq_one_iff.1 h1; hs y hy
    obtain ⟨e, he, -⟩ := merging_buildTree (P := P) (m := m) (by omega)
    refine he.strictTree (hcount.trans' (by omega)) fun i j hc => ?_
    obtain ⟨hnj, hj⟩ := of_childOf_buildTree hc
    rw [builtCount_of_ne_single hs] at hj
    omega

/-! ## The leaves of the built tree (R143) -/

theorem getElem?_of_leaf_buildTree {P : Params} {m : Memory} {i w y : Nat}
    (h : (buildTree P m).readNode i = some (.leaf w y)) : (presentSymbols P m)[i]? = some y := by
  have hi : i < (presentSymbols P m).length := by
    by_contra hn
    by_cases hi : i < builtCount (presentSymbols P m).length
    · obtain ⟨w', l, r, hnode⟩ := internal_of_buildTree (by omega) hi
      cases hnode.symm.trans h
    · cases (readNode_buildTree_of_le (by omega)).symm.trans h
  have hy := List.getElem?_eq_getElem hi
  cases (readNode_buildTree_leaf hy).symm.trans h
  exact hy

/-- One Leaf per symbol (R164). -/
theorem leaf_buildTree_unique {P : Params} {m : Memory} {i j w v y : Nat}
    (hi : (buildTree P m).readNode i = some (.leaf w y)) (hj : (buildTree P m).readNode j = some (.leaf v y)) :
    i = j := by
  have hyi := getElem?_of_leaf_buildTree hi
  have hyj := getElem?_of_leaf_buildTree hj
  have hnodup : (presentSymbols P m).Nodup := List.nodup_range.filter _
  exact (List.getElem?_inj (List.getElem?_eq_some_iff.1 hyi).1 hnodup).1 (hyi.trans hyj.symm)

/-! ## DERIVE after BUILD (R7, R163, R164) -/

section AfterBuild

variable {s t : State}

theorem Built.strictTree (h : Built s t) (hP : s.inst.legal = true) :
    StrictTree t.inst t.mem (presentSymbols s.inst s.mem).length t.root := by
  rw [h.inst, h.mem, h.root]
  exact strictTree_buildTree hP h.present

theorem Built.root_bounds (h : Built s t) : (presentSymbols s.inst s.mem).length ≤ t.root ∧
    t.root + 1 = builtCount (presentSymbols s.inst s.mem).length := by
  have hpos := List.length_pos_iff.2 h.present
  rw [h.root, builtCount]
  split <;> omega

/-- The Internal nodes are one fewer than the symbols, or one for one symbol; so no path is longer than the default
CLMAX. -/
theorem Built.length_le (h : Built s t) (hP : s.inst.legal = true) (hcl : s.inst.clmax = 2 ^ s.inst.sw - 1)
    {p : Codeword} {i : Nat} (hp : follow t.inst t.mem t.root p = some i) : p.length ≤ t.inst.clmax := by
  have hle := (h.strictTree hP).length_le hp
  have hsw := two_le_two_pow_sw hP
  have hn := length_presentSymbols_le s.inst s.mem
  obtain ⟨-, hroot⟩ := h.root_bounds
  rw [hroot, builtCount] at hle
  rw [h.inst, hcl]
  split at hle <;> omega

/-- "A tree made by BUILD at the default CLMAX never raises it" (R163), nor any other fault of DERIVE. -/
theorem Built.derivable (h : Built s t) (hP : s.inst.legal = true) (hcl : s.inst.clmax = 2 ^ s.inst.sw - 1) :
    derivable t := by
  have htree := h.strictTree hP
  obtain ⟨hn, hroot⟩ := h.root_bounds
  have hread {i : Nat} (hi : i ≤ t.root) : t.mem.readNode i ≠ none := by
    rw [h.mem]
    exact buildTree_valid h.present (by omega)
  refine ⟨?_, fun p f info hf => ?_⟩
  · have hcount : _ ≤ s.inst.nil := builtCount_le_nnodes hP s.mem
    rw [h.inst]
    omega
  · obtain ⟨i, hp, -⟩ := id hf
    rcases (visitFault_iff hp).1 hf with ⟨hi, -⟩ | ⟨-, hlen, -⟩ | ⟨-, w, y, hi, hleaf⟩
    · have hle := htree.add_length_le hp
      exact hread (by omega) hi
    · exact absurd (h.length_le hP hcl hp) (by omega)
    · rw [h.mem] at hi
      rcases hleaf with ⟨rfl, -⟩ | ⟨-, ⟨q, hqp, j, v, hq, hj⟩, -⟩
      · cases hp
        obtain ⟨w', l, r, hi'⟩ := internal_of_buildTree hn (by omega)
        cases hi'.symm.trans hi
      · rw [h.mem] at hj
        cases leaf_buildTree_unique hi hj
        rw [htree.path_unique hp hq, visitedBefore_self] at hqp
        cases hqp

theorem Built.exists_leafAt_iff (h : Built s t) (hP : s.inst.legal = true) {y : Nat} :
    (∃ p, leafAt t p y) ↔ y < s.inst.nsym ∧ s.mem.readFreq y ≠ 0 := by
  rw [← mem_presentSymbols]
  constructor
  · rintro ⟨p, i, w, -, hi⟩
    rw [h.mem] at hi
    exact List.mem_of_getElem? (getElem?_of_leaf_buildTree hi)
  · intro hy
    obtain ⟨i, hi⟩ := List.mem_iff_getElem?.1 hy
    have hlt := (List.getElem?_eq_some_iff.1 hi).1
    obtain ⟨p, hp⟩ := (h.strictTree hP).exists_path (hlt.le.trans h.root_bounds.1)
    refine ⟨p, i, s.mem.readFreq y, hp, ?_⟩
    rw [h.mem]
    exact readNode_buildTree_leaf hi

end AfterBuild

/-- Settles O24: the built tree is strict and not too deep, so DERIVE records the paths of its leaves, one per symbol
present. -/
theorem deriveAfterBuildCoversExactlyTheCountedSymbols :
    Obligations.DeriveAfterBuildCoversExactlyTheCountedSymbols := by
  intro s t hP hcl hf h ht
  have hb := built_of_exec hf h ht
  obtain ⟨m, hexec, -, hct⟩ := exists_of_derivable ht (hb.derivable hP hcl)
  refine ⟨_, hexec, ht, fun y => hct.readCt_ne_nil_iff.trans ?_⟩
  simp only [and_true, hb.exists_leafAt_iff hP]

end Sys2Proof.Machine
end

section
/-! A decode session over codewords: each codeword leads the cursor from the root to the leaf it is the path of, and the
leaf step before the next bit, or DEND, emits the leaf's symbol (R180, R182, R183). -/

namespace Sys2Proof.Machine

/-! ## The walker's commands, each with its checks passed -/

theorem exec_dstart {s : State} {w l r : Nat} (hf : s.fault = none) (hd : s.dact = false) (hr : s.root ≠ s.inst.nil)
    (hn : s.mem.readNode s.root = some (.internal w l r)) :
    exec .dstart s = .next { s with cur := s.root, pos := 0, dact := true } :=
  (unlessFaulted_live hf _).trans ((require_pos hd _ _ _ _).trans ((require_pos hr _ _ _ _).trans (by rw [hn])))

theorem exec_dbit {s : State} {b : Bool} {w l r : Nat} (hf : s.fault = none) (hd : s.dact = true)
    (hn : s.mem.readNode (leafStep s).cur = some (.internal w l r)) (hnil : (if b then r else l) ≠ s.inst.nil)
    (hc : s.mem.readNode (if b then r else l) ≠ none) :
    exec (.dbit b) s =
      .next { leafStep s with cur := if b then r else l, pos := (s.pos + 1) % 2 ^ s.inst.pw } := by
  refine (unlessFaulted_live hf _).trans ((require_pos hd _ _ _ _).trans ?_)
  simp only [bitStep, leafStep_mem, hn, leafStep_inst, leafStep_pos]
  exact (require_pos hnil _ _ _ _).trans (require_pos hc _ _ _ _)

theorem exec_dend {s : State} {w y : Nat} (hf : s.fault = none) (hd : s.dact = true)
    (hn : s.mem.readNode s.cur = some (.leaf w y)) : exec .dend s = .next { emitSym y s with dact := false } :=
  (unlessFaulted_live hf _).trans ((require_pos hd _ _ _ _).trans (by rw [hn]))

theorem leafStep_of_leaf {s : State} {w y : Nat} (hn : s.mem.readNode s.cur = some (.leaf w y)) :
    leafStep s = { emitSym y s with cur := s.root } := by
  rw [leafStep, hn]

theorem leafStep_of_internal {s : State} {w l r : Nat} (hn : s.mem.readNode s.cur = some (.internal w l r)) :
    leafStep s = s := by
  rw [leafStep, hn]

/-! ## One codeword -/

/-- The bits of a path from where the leaf step leaves the cursor lead it to the end of the path. -/
theorem perform_dbits_path {s : State} {p : Codeword} {j : Nat} (hf : s.fault = none) (hd : s.dact = true)
    (hp : follow s.inst s.mem (leafStep s).cur p = some j) (hne : p ≠ []) (hj : s.mem.readNode j ≠ none) :
    ∃ pos, perform (dbits p) s = .next { leafStep s with cur := j, pos := pos } := by
  induction p generalizing s with
  | nil => exact absurd rfl hne
  | cons b p ih =>
    obtain ⟨w, l, r, hn, hnil, hrest⟩ := follow_cons_eq_some_iff.1 hp
    rcases p with _ | ⟨c, p⟩
    · cases hrest
      exact ⟨_, perform_cons_of_exec (exec_dbit hf hd hn hnil hj) []⟩
    · obtain ⟨w', l', r', hn', -⟩ := follow_cons_eq_some_iff.1 hrest
      have hstep := exec_dbit hf hd hn hnil (by rw [hn']; exact Option.some_ne_none _)
      have hstay := leafStep_of_internal
        (s := { leafStep s with cur := if b then r else l, pos := (s.pos + 1) % 2 ^ s.inst.pw })
        (by rw [leafStep_mem]; exact hn')
      obtain ⟨pos, hrun⟩ := ih (s := { leafStep s with cur := if b then r else l, pos := (s.pos + 1) % 2 ^ s.inst.pw })
        ((leafStep_fault s).trans hf) ((leafStep_dact s).trans hd)
        (by rw [hstay, leafStep_inst, leafStep_mem]; exact hrest) (List.cons_ne_nil _ _)
        (by rw [leafStep_mem]; exact hj)
      rw [hstay] at hrun
      exact ⟨pos, (perform_cons_of_exec hstep _).trans hrun⟩

/-! ## A sequence of codewords -/

/-- The session `u` has decoded `xs` since `s`, once the leaf step has emitted the last symbol. -/
structure Decoded (s : State) (xs : List Nat) (u : State) : Prop where
  mem : u.mem = s.mem
  root : u.root = s.root
  inst : u.inst = s.inst
  fault : u.fault = none
  dact : u.dact = true
  cur : (leafStep u).cur = s.root
  symq : (leafStep u).symq = s.symq ++ xs

/-- A session whose cursor stands at an Internal root has decoded nothing yet. -/
theorem decoded_nil {s : State} {w l r : Nat} (hf : s.fault = none) (hd : s.dact = true) (hc : s.cur = s.root)
    (hn : s.mem.readNode s.cur = some (.internal w l r)) : Decoded s [] s := by
  have hstay := leafStep_of_internal hn
  exact ⟨rfl, rfl, rfl, hf, hd, by rw [hstay, hc], by rw [hstay, List.append_nil]⟩

/-- The bits of a leaf's path decode its symbol, which waits at the cursor. -/
theorem Decoded.codeword {s u : State} {xs : List Nat} {p : Codeword} {y : Nat} (h : Decoded s xs u)
    (hy : leafAt s p y) (hne : p ≠ []) :
    ∃ v, perform (dbits p) u = .next v ∧ Decoded s (xs ++ [y]) v ∧ ∃ w, v.mem.readNode v.cur = some (.leaf w y) := by
  obtain ⟨j, w, hp, hj⟩ := hy
  obtain ⟨pos, hrun⟩ := perform_dbits_path (j := j) h.fault h.dact (by rw [h.inst, h.mem, h.cur, hp]) hne
    (by rw [h.mem, hj]; exact Option.some_ne_none _)
  have hread : (leafStep u).mem.readNode j = some (.leaf w y) := by rw [leafStep_mem, h.mem, hj]
  have hleaf := leafStep_of_leaf (s := { leafStep u with cur := j, pos := pos }) hread
  refine ⟨_, hrun, ⟨(leafStep_mem u).trans h.mem, (leafStep_root u).trans h.root, (leafStep_inst u).trans h.inst,
    (leafStep_fault u).trans h.fault, (leafStep_dact u).trans h.dact, ?_, ?_⟩, w, hread⟩
  · rw [hleaf]
    exact (leafStep_root u).trans h.root
  · rw [hleaf, ← List.append_assoc, ← h.symq]
    rfl

/-- The bits of a sequence of codewords decode its symbols, of which the last waits at the cursor. -/
theorem Decoded.codewords {s : State} {m : Memory} {xs : List Nat} (h : Decoded s [] s)
    (hxs : ∀ x ∈ xs, leafAt s (m.readCt x) x ∧ m.readCt x ≠ []) :
    ∃ u, perform (dbits (codewords m xs)) s = .next u ∧ Decoded s xs u ∧
      ∀ x ∈ xs.getLast?, ∃ w, u.mem.readNode u.cur = some (.leaf w x) := by
  induction xs using List.reverseRecOn with
  | nil => exact ⟨s, rfl, h, by simp⟩
  | append_singleton xs x ih =>
    obtain ⟨hleaf, hne⟩ := hxs x (by simp)
    obtain ⟨u, hrun, hu, -⟩ := ih fun z hz => hxs z (by simp [hz])
    obtain ⟨v, hrun', hv, hcur⟩ := hu.codeword hleaf hne
    refine ⟨v, ?_, hv, by simpa using hcur⟩
    have hbits : dbits (Machine.codewords m (xs ++ [x])) =
        dbits (Machine.codewords m xs) ++ dbits (m.readCt x) := by
      simp [Machine.codewords, dbits]
    rw [hbits, perform_append hrun, hrun']

/-! ## The round trip (R161, R173, R180) -/

theorem follow_congr {P : Params} {m m' : Memory} (h : m'.node = m.node) {i : Nat} {p : Codeword} :
    follow P m' i p = follow P m i p := by
  induction p generalizing i with
  | nil => rfl
  | cons b p ih => simp only [follow, readNode_congr h rfl, ih]

theorem leafAt_congr {s t : State} (hnode : t.mem.node = s.mem.node) (hroot : t.root = s.root)
    (hinst : t.inst = s.inst) {p : Codeword} {y : Nat} : leafAt t p y ↔ leafAt s p y := by
  simp only [leafAt, hroot, hinst, follow_congr hnode, readNode_congr hnode rfl]

/-- A tree that gives a code table has an Internal root (R165). -/
theorem derivable.root_internal {s : State} (h : derivable s) :
    ∃ w l r, s.mem.readNode s.root = some (.internal w l r) := by
  obtain ⟨-, hnone⟩ := h
  have hi : follow s.inst s.mem s.root [] = some s.root := rfl
  rcases hn : s.mem.readNode s.root with _ | (⟨w, y⟩ | ⟨w, l, r⟩)
  · exact absurd ((visitFault_iff hi).2 (.inl ⟨hn, rfl, rfl⟩)) (hnone _ _ _)
  · exact absurd ((visitFault_iff hi).2 (.inr (.inr ⟨Nat.zero_le _, w, y, hn, .inl ⟨rfl, rfl, rfl⟩⟩))) (hnone _ _ _)
  · exact ⟨w, l, r, rfl⟩

/-- A session over a non-empty sequence of codewords, each the path of its symbol's leaf, emits the symbols. -/
theorem perform_decodeBits_codewords {t : State} {w l r : Nat} {xs : List Nat} (hf : t.fault = none)
    (hd : t.dact = false) (hr : t.root ≠ t.inst.nil) (hn : t.mem.readNode t.root = some (.internal w l r))
    (hne : xs ≠ []) (hxs : ∀ x ∈ xs, leafAt t (t.mem.readCt x) x ∧ t.mem.readCt x ≠ []) :
    ∃ u, perform (decodeBits (codewords t.mem xs)) t = .next u ∧ u.fault = none ∧ u.dact = false ∧
      u.symq = t.symq ++ xs := by
  have hopen := decoded_nil (s := { t with cur := t.root, pos := 0, dact := true }) hf rfl rfl hn
  obtain ⟨u, hrun, hu, hlast⟩ := hopen.codewords hxs
  obtain ⟨v, hend⟩ := hlast _ (List.getLast?_eq_getLast_of_ne_nil hne)
  have hsymq := hu.symq
  rw [leafStep_of_leaf hend] at hsymq
  refine ⟨{ emitSym (xs.getLast hne) u with dact := false }, ?_, hu.fault, rfl, hsymq⟩
  rw [decodeBits, perform_cons_of_exec (exec_dstart hf hd hr hn), perform_append hrun]
  exact perform_cons_of_exec (exec_dend hu.fault hu.dact hend) []

/-- Settles O35: the codewords are the paths of the leaves, from the Internal root that DERIVE asks for. -/
theorem derivedTableRoundTrips : Obligations.DerivedTableRoundTrips := by
  intro s t xs _ hf hd h ht hne hxs
  have hs := derived_of_exec hf h ht
  obtain ⟨w, l, r, hn⟩ := hs.derivable.root_internal
  obtain ⟨hr, -⟩ := hs.derivable
  refine perform_decodeBits_codewords (w := w) (l := l) (r := r) ht (hs.dact.trans hd) ?_ ?_ hne fun x hx =>
    ⟨(leafAt_congr hs.node hs.root hs.inst).2 (hs.records.leafAt (hxs x hx)), hxs x hx⟩
  · rw [hs.root, hs.inst]
    exact hr
  · rw [hs.root]
    exact readNode_congr hs.node hn

end Sys2Proof.Machine
end

section
/-! The rules of the encoder (R171 to R173). -/

namespace Sys2Proof.Machine

/-! ## One ESYM (R171, R172) -/

theorem exec_esym {s : State} {x : Index} (hf : s.fault = none) (hx : isSymbol s.inst x = true)
    (hc : s.mem.readCt x.toNat ≠ []) : exec (.esym x) s = .next (emitBits (s.mem.readCt x.toNat) s) :=
  (unlessFaulted_live hf _).trans ((require_pos hx _ _ _ _).trans (require_pos hc _ _ _ _))

theorem exec_esym_unknownSymbol {s : State} {x : Index} (hf : s.fault = none) (hx : isSymbol s.inst x = true)
    (hc : s.mem.readCt x.toNat = []) : exec (.esym x) s = .next (raised .unknownSymbol x.toNat s) := by
  rw [← raise_live hf]
  exact (unlessFaulted_live hf _).trans ((require_pos hx _ _ _ _).trans (require_neg (not_not.2 hc) _ _ _ _))

/-- Settles O25: the index check, then the check for a codeword, then all of its bits. -/
theorem esymEmitsTheCodeword : Obligations.EsymEmitsTheCodeword := by
  refine ⟨encodedIndex_of_formatIndex 0x10#5 _ fun P c h => by rw [decode, h]; rfl, fun s x hf hx => ?index,
    fun s x hf hx hc => ?unknown, fun s x hf hx hc => ?emitted⟩
  case index => exact exec_badIndex hf (decide_eq_false (Nat.not_lt.2 hx))
  case unknown => exact exec_esym_unknownSymbol hf (decide_eq_true hx) hc
  case emitted => exact exec_esym hf (decide_eq_true hx) hc

/-! ## A sequence of ESYMs (R173) -/

theorem emitBits_emitBits (bs cs : List Bool) (s : State) : emitBits cs (emitBits bs s) = emitBits (bs ++ cs) s := by
  simp only [emitBits, List.append_assoc]

/-- ESYMs of symbols with a codeword emit the codewords in order: an ESYM writes neither FAULT nor the code table, so the
premises pass to the rest of the sequence. -/
theorem perform_esyms {s : State} {xs : List Nat} (hP : s.inst.legal = true) (hf : s.fault = none)
    (hxs : ∀ x ∈ xs, x < s.inst.nsym ∧ s.mem.readCt x ≠ []) :
    perform (esyms xs) s = .next (emitBits (codewords s.mem xs) s) := by
  induction xs generalizing s with
  | nil => rw [codewords, List.flatMap_nil, emitBits, List.append_nil]; rfl
  | cons x xs ih =>
    obtain ⟨⟨hx, hc⟩, hrest⟩ := List.forall_mem_cons.1 hxs
    have hix : (ix x).toNat = x := toNat_ix_of_lt_nsym hP hx
    have hexec := exec_esym (x := ix x) hf (decide_eq_true (hix.symm ▸ hx)) (hix.symm ▸ hc)
    rw [hix] at hexec
    calc perform (esyms (x :: xs)) s
        = perform (esyms xs) (emitBits (s.mem.readCt x) s) := perform_cons_of_exec hexec _
      _ = .next (emitBits (codewords s.mem xs) (emitBits (s.mem.readCt x) s)) := ih hP hf hrest
      _ = .next (emitBits (codewords s.mem (x :: xs)) s) := congrArg _ (emitBits_emitBits _ _ _)

/-- Settles O26, by `perform_esyms`; the length of the concatenation is the sum of the lengths. -/
theorem esymsConcatenateTheCodewords : Obligations.EsymsConcatenateTheCodewords :=
  fun s xs hP hf hxs => ⟨perform_esyms hP hf hxs, by rw [List.length_flatten, List.map_map]; rfl⟩

end Sys2Proof.Machine
end

section
/-! The rules of the walker's commands, one by one: DSTART, DBIT and DEND (R181 to R183, R186). -/

namespace Sys2Proof.Machine

/-! ## DSTART (R181) -/

theorem exec_dstart_invalidNode {s : State} (hf : s.fault = none) (hd : s.dact = false) (hr : s.root ≠ s.inst.nil)
    (hn : s.mem.readNode s.root = none) : exec .dstart s = .next (raised .invalidNode s.root s) := by
  rw [← raise_live hf]
  exact (unlessFaulted_live hf _).trans ((require_pos hd _ _ _ _).trans ((require_pos hr _ _ _ _).trans (by rw [hn])))

theorem exec_dstart_rootIsLeaf {s : State} {w y : Nat} (hf : s.fault = none) (hd : s.dact = false)
    (hr : s.root ≠ s.inst.nil) (hn : s.mem.readNode s.root = some (.leaf w y)) :
    exec .dstart s = .next (raised .rootIsLeaf s.root s) := by
  rw [← raise_live hf]
  exact (unlessFaulted_live hf _).trans ((require_pos hd _ _ _ _).trans ((require_pos hr _ _ _ _).trans (by rw [hn])))

/-- Settles O27: format N, the session check, then the root, which is absent, invalid, a Leaf or Internal. -/
theorem dstartOpensASessionAtTheRoot : Obligations.DstartOpensASessionAtTheRoot :=
  ⟨encodedN_of_formatN 0x14#5 _ fun P c h => by rw [decode, h]; rfl,
    fun _ hf hd => exec_seqError hf rfl (by rw [hd]; rfl),
    fun _ hf hd hr => exec_dstart_noTree hf hd hr,
    fun _ hf hd hr hn => exec_dstart_invalidNode hf hd hr hn,
    fun _ _ _ hf hd hr hn => exec_dstart_rootIsLeaf hf hd hr hn,
    fun _ _ _ _ hf hd hr hn => exec_dstart hf hd hr hn⟩

/-- An idle state in which DSTART passes its checks. -/
structure Openable (s : State) : Prop where
  fault : s.fault = none
  dact : s.dact = false
  root_ne_nil : s.root ≠ s.inst.nil
  root_internal : ∃ w l r, s.mem.readNode s.root = some (.internal w l r)

/-- The state DSTART opens a session in. -/
def opened (s : State) : State := { s with cur := s.root, pos := 0, dact := true }

theorem Openable.exec_dstart {s : State} (h : Openable s) : exec .dstart s = .next (opened s) := by
  obtain ⟨w, l, r, hn⟩ := h.root_internal
  exact Machine.exec_dstart h.fault h.dact h.root_ne_nil hn

/-! ## DBIT (R182) -/

theorem decode_dbit_iff {P : Params} {x : Index} {d : Nat} {i : Instr} :
    decode P { head := headValue 0xA800 x, data := d } = .ok i ↔
      ∃ b : Bool, .dbit b = i ∧ BitVec.ofNat 11 b.toNat = x ∧ d = 0 := by
  obtain ⟨hop, hidx⟩ := headValue_fields (base := 0xA800) (op := 0x15#5) rfl x
  rw [decode, hop]
  exact formatB_eq_ok_iff.trans (by rw [hidx])

theorem toNat_bit_lt_two (b : Bool) : (BitVec.ofNat 11 b.toNat).toNat < 2 := by cases b <;> decide

/-- In a session DBIT is the leaf step and then the bit step (R182). -/
theorem exec_dbit_eq_bitStep {s : State} (hf : s.fault = none) (hd : s.dact = true) (b : Bool) :
    exec (.dbit b) s = bitStep b (leafStep s) :=
  (unlessFaulted_live hf _).trans (require_pos hd _ _ _ _)

theorem exec_dbit_of_internal {s : State} {w l r : Nat} (hf : s.fault = none) (hd : s.dact = true)
    (hn : s.mem.readNode s.cur = some (.internal w l r)) (b : Bool) : exec (.dbit b) s = bitStep b s := by
  rw [exec_dbit_eq_bitStep hf hd, leafStep_of_internal hn]

theorem bitStep_absentChild {s : State} {b : Bool} {w l r : Nat} (hf : s.fault = none)
    (hn : s.mem.readNode s.cur = some (.internal w l r)) (hnil : (if b then r else l) = s.inst.nil) :
    bitStep b s = .next (raised .absentChild s.cur s) := by
  rw [bitStep, hn, ← raise_live hf]
  exact require_neg (not_not.2 hnil) _ _ _ _

theorem bitStep_invalidNode {s : State} {b : Bool} {w l r : Nat} (hf : s.fault = none)
    (hn : s.mem.readNode s.cur = some (.internal w l r)) (hnil : (if b then r else l) ≠ s.inst.nil)
    (hc : s.mem.readNode (if b then r else l) = none) :
    bitStep b s = .next (raised .invalidNode (if b then r else l) s) := by
  rw [bitStep, hn, ← raise_live hf]
  exact (require_pos hnil _ _ _ _).trans (require_neg (not_not.2 hc) _ _ _ _)

theorem bitStep_child {s : State} {b : Bool} {w l r : Nat}
    (hn : s.mem.readNode s.cur = some (.internal w l r)) (hnil : (if b then r else l) ≠ s.inst.nil)
    (hc : s.mem.readNode (if b then r else l) ≠ none) :
    bitStep b s = .next { s with cur := if b then r else l, pos := (s.pos + 1) % 2 ^ s.inst.pw } := by
  rw [bitStep, hn]
  exact (require_pos hnil _ _ _ _).trans (require_pos hc _ _ _ _)

theorem leafStep_of_afterLeafStep {s s1 : State} (h : afterLeafStep s s1) : leafStep s = s1 := by
  rcases h with ⟨w, y, hn, rfl⟩ | ⟨w, l, r, hn, rfl⟩
  · exact leafStep_of_leaf hn
  · exact leafStep_of_internal hn

/-- Settles O28: format B, the session check, and the bit step of the state after the leaf step. -/
theorem dbitTakesTheLeafStepThenTheBitStep : Obligations.DbitTakesTheLeafStepThenTheBitStep := by
  refine ⟨fun P b => ?decodes, fun s x d hf hx => ?illegal, fun s b hf hd => ?session,
    fun s s1 b w l r hf hd h1 hn => ?bit⟩
  case decodes =>
    have hhead : BitVec.ofNat 16 (0xA800 + b.toNat) = headValue 0xA800 (BitVec.ofNat 11 b.toNat) := by
      cases b <;> rfl
    rw [hhead]
    exact decode_dbit_iff.2 ⟨b, rfl, rfl, rfl⟩
  case illegal =>
    refine takeCommand_illegal (op := 0x15#5) rfl hf fun i hi => ?_
    obtain ⟨b, -, rfl, hd0⟩ := decode_dbit_iff.1 hi
    exact hx.elim (not_le.2 (toNat_bit_lt_two b)) (· hd0)
  case session => exact exec_seqError hf rfl hd
  case bit =>
    obtain rfl := leafStep_of_afterLeafStep h1
    rw [exec_dbit_eq_bitStep hf hd, ← leafStep_inst s, ← leafStep_pos s, ← leafStep_mem s]
    have hf1 := (leafStep_fault s).trans hf
    exact ⟨bitStep_absentChild hf1 hn, bitStep_invalidNode hf1 hn, bitStep_child hn⟩

/-! ## DEND (R183, R186) -/

theorem exec_dend_truncatedInput {s : State} {w l r : Nat} (hf : s.fault = none) (hd : s.dact = true)
    (hn : s.mem.readNode s.cur = some (.internal w l r)) :
    exec .dend s = .next (raised .truncatedInput s.cur s) := by
  rw [← raise_live hf]
  exact (unlessFaulted_live hf _).trans ((require_pos hd _ _ _ _).trans (by rw [hn]))

/-- Settles O29: format N, the session check, then the entry at the cursor, a Leaf or Internal. -/
theorem dendEmitsTheLastSymbolOrIsTruncated : Obligations.DendEmitsTheLastSymbolOrIsTruncated :=
  ⟨encodedN_of_formatN 0x16#5 _ fun P c h => by rw [decode, h]; rfl,
    fun _ hf hd => exec_seqError hf rfl hd,
    fun _ _ _ _ hf hd hn => exec_dend_truncatedInput hf hd hn,
    fun _ _ _ hf hd hn => exec_dend hf hd hn⟩

/-- A session: DSTART opens it, the bits lead to a state, and DEND ends it there. -/
theorem Openable.perform_decodeBits {s u : State} {bits : List Bool} (h : Openable s)
    (hu : perform (dbits bits) (opened s) = .next u) : perform (decodeBits bits) s = perform [.dend] u := by
  rw [decodeBits, perform_cons_of_exec h.exec_dstart, perform_append hu]

/-- Settles O31: DSTART puts the cursor on the Internal root, where DEND finds it. -/
theorem emptyBitstringIsTruncated : Obligations.EmptyBitstringIsTruncated := by
  intro s w l r hf hd hr hn
  have hopen : Openable s := ⟨hf, hd, hr, w, l, r, hn⟩
  have hend := exec_dend_truncatedInput (s := opened s) hf rfl hn
  exact (hopen.perform_decodeBits (bits := []) rfl).trans (perform_cons_of_exec hend [])

end Sys2Proof.Machine
end

section
/-! R188: what the walker reads of a state is the root, the cursor and the shape of the tree; each part of a DBIT keeps two
states that agree on it in agreement. -/

namespace Sys2Proof.Machine

/-! ## States alike for the walker -/

/-- Two states that differ, if at all, in the weights, in CT and FREQ, and in what the walker does not use. -/
structure SameWalk (s s' : State) : Prop where
  inst : s.inst = s'.inst
  root : s.root = s'.root
  cur : s.cur = s'.cur
  pos : s.pos = s'.pos
  dact : s.dact = s'.dact
  fault : s.fault = s'.fault
  finfo : s.finfo = s'.finfo
  symq : s.symq = s'.symq
  shape : ∀ i, sameShape (s.mem.readNode i) (s'.mem.readNode i)

/-- Both commands answer a next state, and these are alike for the walker. -/
def SameResult (k k' : Result) : Prop := ∃ t t', k = .next t ∧ k' = .next t' ∧ SameWalk t t'

theorem SameResult.next {s s' : State} (h : SameWalk s s') : SameResult (.next s) (.next s') := ⟨s, s', rfl, rfl, h⟩

theorem sameShape_cases {a b : Option NodeWord} (h : sameShape a b) :
    (a = none ∧ b = none) ∨ (∃ w v y, a = some (.leaf w y) ∧ b = some (.leaf v y)) ∨
    ∃ w v l r, a = some (.internal w l r) ∧ b = some (.internal v l r) := by
  unfold sameShape at h
  split at h
  · exact .inl ⟨rfl, rfl⟩
  · subst h
    exact .inr (.inl ⟨_, _, _, rfl, rfl⟩)
  · obtain ⟨rfl, rfl⟩ := h
    exact .inr (.inr ⟨_, _, _, _, rfl, rfl⟩)
  · exact h.elim

namespace SameWalk

variable {s s' : State}

theorem valid_iff (h : SameWalk s s') (i : Nat) : s.mem.readNode i ≠ none ↔ s'.mem.readNode i ≠ none := by
  rcases sameShape_cases (h.shape i) with ⟨hi, hi'⟩ | ⟨w, v, y, hi, hi'⟩ | ⟨w, v, l, r, hi, hi'⟩ <;> simp [hi, hi']

theorem raise (h : SameWalk s s') (f : FaultCode) (info : Nat) : SameWalk (raise f info s) (raise f info s') := by
  by_cases hf : s.fault = none
  · rw [raise_live hf, raise_live (h.fault ▸ hf)]
    exact { h with fault := rfl, finfo := rfl }
  · rw [raise_faulted hf, raise_faulted (h.fault ▸ hf)]
    exact h

theorem unlessFaulted (h : SameWalk s s') {k k' : Result} (hk : SameResult k k') :
    SameResult (unlessFaulted s k) (unlessFaulted s' k') := by
  by_cases hf : s.fault = none
  · rwa [unlessFaulted_live hf, unlessFaulted_live (h.fault ▸ hf)]
  · rw [unlessFaulted_faulted hf, unlessFaulted_faulted (h.fault ▸ hf)]
    exact .next h

theorem require (h : SameWalk s s') {c c' : Prop} [Decidable c] [Decidable c'] (hc : c ↔ c') {k k' : Result}
    (hk : SameResult k k') (f : FaultCode) (info : Nat) :
    SameResult (require c f info s k) (require c' f info s' k') := by
  by_cases hp : c
  · rwa [require_pos hp, require_pos (hc.1 hp)]
  · rw [require_neg hp, require_neg (hc.not.1 hp)]
    exact .next (h.raise f info)

/-! ## The two steps of a DBIT -/

theorem leafStep (h : SameWalk s s') : SameWalk (leafStep s) (leafStep s') := by
  have hcur := h.shape s.cur
  rcases sameShape_cases hcur with ⟨hn, hn'⟩ | ⟨w, v, y, hn, hn'⟩ | ⟨w, v, l, r, hn, hn'⟩ <;> rw [h.cur] at hn'
  · rw [Machine.leafStep, Machine.leafStep, hn, hn']
    exact h
  · rw [leafStep_of_leaf hn, leafStep_of_leaf hn']
    exact { h with cur := h.root, symq := congrArg (· ++ [y]) h.symq }
  · rw [leafStep_of_internal hn, leafStep_of_internal hn']
    exact h

theorem bitStep (h : SameWalk s s') (b : Bool) : SameResult (bitStep b s) (bitStep b s') := by
  have hcur := h.shape s.cur
  rw [Machine.bitStep, Machine.bitStep, ← h.cur, ← h.pos, ← h.inst]
  rcases sameShape_cases hcur with ⟨hn, hn'⟩ | ⟨w, v, y, hn, hn'⟩ | ⟨w, v, l, r, hn, hn'⟩ <;> rw [hn, hn']
  · exact .next (h.raise _ _)
  · exact .next (h.raise _ _)
  · refine h.require Iff.rfl (h.require (h.valid_iff _) (.next ?_) _ _) _ _
    exact { h with inst := rfl, cur := rfl, pos := rfl }

theorem dbit (h : SameWalk s s') (b : Bool) : SameResult (exec (.dbit b) s) (exec (.dbit b) s') :=
  h.unlessFaulted (h.require (by rw [h.dact]) (h.leafStep.bitStep b) _ _)

end SameWalk

/-- Settles O34: the freeze, the session check, the leaf step and the bit step each keep the agreement. -/
theorem walkerReadsNeitherWeightsNorTables : Obligations.WalkerReadsNeitherWeightsNorTables := by
  intro s s' t t' b hinst hroot hcur hpos hdact hfault hfinfo hsymq hshape ht ht'
  obtain ⟨u, u', hu, hu', h⟩ :=
    SameWalk.dbit ⟨hinst, hroot, hcur, hpos, hdact, hfault, hfinfo, hsymq, hshape⟩ b
  cases hu.symm.trans ht
  cases hu'.symm.trans ht'
  exact ⟨h.cur, h.pos, h.symq, h.fault, h.finfo, h.dact, h.root⟩

end Sys2Proof.Machine
end

section
/-! A decode session simulates the document's decoding loop, iteration by iteration: an iteration at a Leaf is the leaf step
of the next DBIT, an iteration at an Internal node is its bit step, and the end of the bits is DEND (R180). -/

namespace Sys2Proof.Machine

/-! ## One iteration of the document's loop -/

section Loop

variable {P : Params} {m : Memory} {root cur fuel w : Nat} {out : List Nat}

theorem documentLoop_invalid (hn : m.readNode cur = none) (bits : List Bool) :
    documentLoop P m root fuel cur bits out = .stuck out := by
  cases fuel with
  | zero => rfl
  | succ fuel => cases bits <;> simp only [documentLoop, hn]

theorem documentLoop_leaf {y : Nat} (hn : m.readNode cur = some (.leaf w y)) (b : Bool) (bs : List Bool) :
    documentLoop P m root (fuel + 1) cur (b :: bs) out = documentLoop P m root fuel root (b :: bs) (out ++ [y]) := by
  simp only [documentLoop, hn]

theorem documentLoop_internal {l r : Nat} (hn : m.readNode cur = some (.internal w l r)) (b : Bool) (bs : List Bool) :
    documentLoop P m root (fuel + 1) cur (b :: bs) out =
      if (if b then r else l) = P.nil then .stuck out else documentLoop P m root fuel (if b then r else l) bs out := by
  simp only [documentLoop, hn]

theorem documentLoop_nil_leaf {y : Nat} (hn : m.readNode cur = some (.leaf w y)) :
    documentLoop P m root (fuel + 1) cur [] out = .decoded (out ++ [y]) := by
  simp only [documentLoop, hn]

theorem documentLoop_nil_internal {l r : Nat} (hn : m.readNode cur = some (.internal w l r)) :
    documentLoop P m root (fuel + 1) cur [] out = .truncated out := by
  simp only [documentLoop, hn]

end Loop

/-! ## The simulation -/

/-- A session at a valid cursor, in a tree with an Internal root (R26). -/
structure Walking (s : State) : Prop where
  fault : s.fault = none
  dact : s.dact = true
  root : ∃ w l r, s.mem.readNode s.root = some (.internal w l r)
  cur : s.mem.readNode s.cur ≠ none

/-- The state a session leaves when the document's loop ends so, SYMQ having held `symq` when the session opened. -/
def SessionEnds (symq : List Nat) (t : State) : LoopEnd → Prop
  | .decoded out => t.symq = symq ++ out ∧ t.fault = none ∧ t.dact = false
  | .truncated out => t.symq = symq ++ out ∧ t.fault = some .truncatedInput ∧ t.dact = true
  | .stuck out => t.symq = symq ++ out ∧ (t.fault = some .absentChild ∨ t.fault = some .invalidNode) ∧ t.dact = true

/-- From `s`, DBITs for the bits and DEND end as the document's loop ends from the cursor with this fuel. -/
def Simulates (fuel : Nat) (s : State) (bits : List Bool) : Prop :=
  ∀ symq out, s.symq = symq ++ out → ∃ t, perform (dbits bits ++ [.dend]) s = .next t ∧
    SessionEnds symq t (documentLoop s.inst s.mem s.root fuel s.cur bits out)

/-- Once a fault is raised, the rest of a session is dropped (R90). -/
theorem perform_session_faulted {s : State} (hf : s.fault ≠ none) (bits : List Bool) :
    perform (dbits bits ++ [.dend]) s = .next s := by
  induction bits with
  | nil => exact perform_cons_of_exec (exec_of_faulted hf (by simp) rfl) []
  | cons b bits ih => exact (perform_cons_of_exec (exec_of_faulted hf (by simp) rfl) _).trans ih

namespace Walking

variable {s : State} {fuel : Nat}

/-- The end of the bits: DEND emits at a Leaf and is TruncatedInput at an Internal node. -/
theorem simulates_nil (h : Walking s) : Simulates (fuel + 1) s [] := by
  intro symq out hs
  rcases hn : s.mem.readNode s.cur with _ | (⟨w, y⟩ | ⟨w, l, r⟩)
  · exact absurd hn h.cur
  · rw [documentLoop_nil_leaf hn]
    refine ⟨_, perform_cons_of_exec (exec_dend h.fault h.dact hn) [], ?_, h.fault, rfl⟩
    rw [← List.append_assoc, ← hs]
    rfl
  · rw [documentLoop_nil_internal hn]
    exact ⟨_, perform_cons_of_exec (exec_dend_truncatedInput h.fault h.dact hn) [], hs, rfl, h.dact⟩

/-- An iteration at an Internal node: the branch leads on, or there is none and the DBIT raises its fault. -/
theorem simulates_internal (h : Walking s) {w l r : Nat} (hn : s.mem.readNode s.cur = some (.internal w l r))
    {b : Bool} {bs : List Bool} (ih : ∀ u, Walking u → Simulates fuel u bs) : Simulates (fuel + 1) s (b :: bs) := by
  intro symq out hs
  have hdbit := exec_dbit_of_internal h.fault h.dact hn b
  rw [documentLoop_internal hn]
  by_cases hnil : (if b then r else l) = s.inst.nil
  · rw [if_pos hnil]
    have hexec := hdbit.trans (bitStep_absentChild h.fault hn hnil)
    exact ⟨_, (perform_cons_of_exec hexec _).trans (perform_session_faulted (by simp) bs), hs, .inl rfl, h.dact⟩
  · rw [if_neg hnil]
    by_cases hc : s.mem.readNode (if b then r else l) = none
    · rw [documentLoop_invalid hc]
      have hexec := hdbit.trans (bitStep_invalidNode h.fault hn hnil hc)
      exact ⟨_, (perform_cons_of_exec hexec _).trans (perform_session_faulted (by simp) bs), hs, .inr rfl, h.dact⟩
    · have hexec := hdbit.trans (bitStep_child hn hnil hc)
      obtain ⟨t, hrun, hends⟩ := ih { s with cur := if b then r else l, pos := (s.pos + 1) % 2 ^ s.inst.pw }
        { h with cur := hc } symq out hs
      exact ⟨t, (perform_cons_of_exec hexec _).trans hrun, hends⟩

/-- An iteration at a Leaf: the DBIT does the same from where the leaf step leaves the cursor, the root. -/
theorem simulates_leaf (h : Walking s) {w y : Nat} (hn : s.mem.readNode s.cur = some (.leaf w y)) {b : Bool}
    {bs : List Bool} (hu : Simulates fuel (leafStep s) (b :: bs)) : Simulates (fuel + 1) s (b :: bs) := by
  intro symq out hs
  obtain ⟨w', l, r, hroot⟩ := h.root
  have hleaf := leafStep_of_leaf hn
  have hdbit : exec (.dbit b) s = exec (.dbit b) (leafStep s) := by
    rw [exec_dbit_eq_bitStep h.fault h.dact, exec_dbit_of_internal ((leafStep_fault s).trans h.fault)
      ((leafStep_dact s).trans h.dact) (by rw [hleaf]; exact hroot)]
  rw [hleaf] at hu hdbit
  obtain ⟨t, hrun, hends⟩ := hu symq (out ++ [y]) (by rw [← List.append_assoc, ← hs]; rfl)
  refine ⟨t, ?_, by rw [documentLoop_leaf hn]; exact hends⟩
  rw [← hrun]
  simp only [dbits, List.map_cons, List.cons_append, perform, hdbit]

theorem leafStep (h : Walking s) : Walking (leafStep s) := by
  obtain ⟨w', l, r, hroot⟩ := h.root
  rcases leafStep_cases s with ⟨w, y, -, hs⟩ | ⟨-, hs⟩ <;> rw [hs]
  · exact { h with cur := by rw [hroot]; exact Option.some_ne_none _ }
  · exact h

/-- The whole session: at most two iterations for each bit, and one for the end of the bits. -/
theorem simulates (h : Walking s) {bits : List Bool} (hfuel : 2 * bits.length < fuel) : Simulates fuel s bits := by
  induction bits generalizing s fuel with
  | nil =>
    obtain ⟨k, rfl⟩ := Nat.exists_eq_add_of_lt hfuel
    exact h.simulates_nil
  | cons b bs ih =>
    rw [List.length_cons] at hfuel
    obtain ⟨k, rfl⟩ : ∃ k, fuel = k + 1 + 1 := ⟨fuel - 2, by omega⟩
    rcases hn : s.mem.readNode s.cur with _ | (⟨w, y⟩ | ⟨w, l, r⟩)
    · exact absurd hn h.cur
    · obtain ⟨w', l, r, hroot⟩ := h.root
      refine h.simulates_leaf hn (h.leafStep.simulates_internal (w := w') (l := l) (r := r) ?_ fun u hu =>
        ih hu (by omega))
      rw [leafStep_of_leaf hn]
      exact hroot
    · exact h.simulates_internal hn fun u hu => ih hu (by omega)

end Walking

theorem Openable.walking {s : State} (h : Openable s) : Walking (opened s) := by
  obtain ⟨w, l, r, hn⟩ := id h.root_internal
  exact ⟨h.fault, rfl, h.root_internal, fun hnone => by cases hn.symm.trans hnone⟩

/-- Settles O33: DSTART opens a session at the root, and from there it simulates the loop. -/
theorem sessionRefinesTheDocumentsLoop : Obligations.SessionRefinesTheDocumentsLoop := by
  intro s bits w l r hf hd hr hn
  have hopen : Openable s := ⟨hf, hd, hr, w, l, r, hn⟩
  obtain ⟨t, hrun, hends⟩ :=
    hopen.walking.simulates (Nat.lt_succ_self (2 * bits.length)) s.symq [] (List.append_nil _).symm
  exact ⟨t, (perform_cons_of_exec hopen.exec_dstart _).trans hrun, hends⟩

end Sys2Proof.Machine
end

section
/-! Encoding and decoding together: the whole pipeline from RESET on, a bitstring cut inside a codeword, and the
single-symbol tree (R187, R191, R192). -/

namespace Sys2Proof.Machine

/-! ## A state in which encoded symbols decode (R161, R181) -/

/-- An idle state in which DSTART opens a session and every codeword of CT is the path of its symbol's Leaf. -/
structure Decodable (s : State) : Prop extends Openable s where
  leaf : ∀ {x}, s.mem.readCt x ≠ [] → leafAt s (s.mem.readCt x) x

theorem Derived.decodable {s t : State} (h : Derived s t) (ht : t.fault = none) (hd : s.dact = false) : Decodable t where
  fault := ht
  dact := h.dact.trans hd
  root_ne_nil := by rw [h.root, h.inst]; exact h.derivable.1
  root_internal := by
    obtain ⟨w, l, r, hn⟩ := h.derivable.root_internal
    exact ⟨w, l, r, by rw [h.root]; exact readNode_congr h.node hn⟩
  leaf hx := (leafAt_congr h.node h.root h.inst).2 (h.records.leafAt hx)

theorem Decodable.emitBits {s : State} (h : Decodable s) (bits : List Bool) : Decodable (emitBits bits s) := { h with }

/-! ## A session from its opening to a decoded sequence (R180) -/

theorem Openable.decoded_nil {s : State} (h : Openable s) : Decoded (opened s) [] (opened s) := by
  obtain ⟨w, l, r, hn⟩ := h.root_internal
  exact Machine.decoded_nil h.fault rfl rfl hn

/-- DEND at the Leaf of the last symbol of a decoded sequence closes the session. -/
theorem Decoded.perform_dend {s u : State} {xs : List Nat} {w y : Nat} (h : Decoded s xs u)
    (hend : u.mem.readNode u.cur = some (.leaf w y)) :
    ∃ t, perform [.dend] u = .next t ∧ t.fault = none ∧ t.dact = false ∧ t.symq = s.symq ++ xs ∧ t.pos = u.pos := by
  have hsymq := h.symq
  rw [leafStep_of_leaf hend] at hsymq
  exact ⟨_, perform_cons_of_exec (exec_dend h.fault h.dact hend) [], h.fault, rfl, hsymq, rfl⟩

/-! ## The whole pipeline (R191) -/

/-- BUILD and DERIVE write neither DACT nor a stream. -/
theorem Effect.frame_of_buildCode {s t : State} {i : Instr} (h : Effect s i t) (hi : i = .build ∨ i = .derive) :
    t.dact = s.dact ∧ t.symq = s.symq ∧ t.bitq = s.bitq := by
  rcases hi with rfl | rfl <;> cases h <;> exact ⟨rfl, rfl, rfl⟩

/-- From RESET on, the COUNTs of a non-empty sequence leave its tally in FREQ, and a BUILD raises no fault. -/
theorem exists_build_of_counts {s : State} {xs : List Nat} (hP : s.inst.legal = true) (hne : xs ≠ [])
    (hsym : ∀ x ∈ xs, x < s.inst.nsym) (hlen : xs.length < 2 ^ s.inst.ww) :
    ∃ m t, perform (.reset :: counts xs) s = .next { toReset s with mem := m } ∧
      (∀ y, m.readFreq y = xs.count y) ∧
      exec .build { toReset s with mem := m } = .next t ∧ t.fault = none := by
  obtain ⟨m, hcounts, hfreq, -, -⟩ := countsTallyASequenceOfSymbols (toReset s) xs hP rfl hsym fun y =>
    (Nat.zero_add _).trans_lt (List.count_le_length.trans_lt hlen)
  obtain ⟨-, hbuild⟩ := rootWeightIsTheTotalCount
  obtain ⟨t, hrun, ht, -⟩ := hbuild (toReset s) xs hP rfl rfl hne hsym hlen
  have hclr : exec .clrfreq (toReset s) = .next (toReset s) := rfl
  rw [perform_cons_of_exec hclr, perform_append hcounts] at hrun
  obtain ⟨u, hexec, hend⟩ := perform_cons hrun
  cases hend
  exact ⟨m, t, (perform_cons_of_exec rfl _).trans hcounts, fun y => (hfreq y).trans (Nat.zero_add _), hexec, ht⟩

/-- RESET, the COUNTs of a sequence, BUILD and DERIVE end where the symbols of the sequence encode and decode. -/
theorem exists_decodable_of_counts {s : State} {xs : List Nat} (hP : s.inst.legal = true)
    (hcl : s.inst.clmax = 2 ^ s.inst.sw - 1) (hne : xs ≠ []) (hsym : ∀ x ∈ xs, x < s.inst.nsym)
    (hlen : xs.length < 2 ^ s.inst.ww) :
    ∃ t, perform (.reset :: (counts xs ++ buildCode)) s = .next t ∧ Decodable t ∧ t.inst = s.inst ∧
      t.symq = s.symq ∧ t.bitq = s.bitq ∧ ∀ x ∈ xs, t.mem.readCt x ≠ [] := by
  obtain ⟨m, b, hcounts, hfreq, hbuild, hb⟩ := exists_build_of_counts hP hne hsym hlen
  obtain ⟨t, hderive, ht, hcover⟩ :=
    deriveAfterBuildCoversExactlyTheCountedSymbols { toReset s with mem := m } b hP hcl rfl hbuild hb
  obtain ⟨hbdact, hbsymq, hbbitq⟩ := (exec_effect hbuild).frame_of_buildCode (.inl rfl)
  obtain ⟨-, htsymq, htbitq⟩ := (exec_effect hderive).frame_of_buildCode (.inr rfl)
  have hinst := (built_of_exec (s := { toReset s with mem := m }) rfl hbuild hb).inst
  have hd := derived_of_exec hb hderive ht
  refine ⟨t, ?run, hd.decodable ht hbdact, hd.inst.trans hinst, htsymq.trans hbsymq,
    htbitq.trans hbbitq, fun x hx => (hcover x).2 ⟨hsym x hx, ?counted⟩⟩
  case run =>
    rw [← List.cons_append, perform_append hcounts]
    exact (perform_cons_of_exec hbuild _).trans (perform_cons_of_exec hderive [])
  case counted =>
    rw [hfreq]
    exact (List.count_pos_iff.2 hx).ne'

/-- Settles O36: every symbol counted has a codeword, ESYMs emit the codewords, and a session decodes them. -/
theorem encodeThenDecodeGivesTheInput : Obligations.EncodeThenDecodeGivesTheInput := by
  intro s xs hP hcl hne hsym hlen
  obtain ⟨t, hrun, hdec, hinst, hsymq, hbitq, hct⟩ := exists_decodable_of_counts hP hcl hne hsym hlen
  rw [← hinst] at hP hsym
  have hesyms := perform_esyms hP hdec.fault fun x hx => ⟨hsym x hx, hct x hx⟩
  have hready := hdec.emitBits (codewords t.mem xs)
  obtain ⟨w, l, r, hn⟩ := hready.root_internal
  obtain ⟨u, hsession, hfault, hdact, husymq⟩ := perform_decodeBits_codewords hready.fault hready.dact hready.root_ne_nil
    hn hne fun x hx => ⟨hready.leaf (hct x hx), hct x hx⟩
  refine ⟨_, codewords t.mem xs, u, ?run, congrArg (· ++ _) hbitq, hsession, hfault, hdact,
    husymq.trans (congrArg (· ++ _) hsymq)⟩
  rw [← List.cons_append, perform_append hrun, hesyms]

/-! ## A cut inside a codeword (R192) -/

/-- A path that stops short of a Leaf it could go on to ends at an Internal node. -/
theorem leafAt.internal_of_prefix {s : State} {p q : Codeword} {y : Nat} (h : leafAt s q y) (hpq : p <+: q)
    (hne : p ≠ q) : ∃ i w l r, follow s.inst s.mem s.root p = some i ∧ s.mem.readNode i = some (.internal w l r) := by
  obtain ⟨j, v, hq, -⟩ := h
  obtain ⟨c, rfl⟩ := hpq
  rw [follow_append, Option.bind_eq_some_iff] at hq
  obtain ⟨i, hp, hrest⟩ := hq
  rcases c with _ | ⟨b, c⟩
  · exact absurd (List.append_nil p).symm hne
  · obtain ⟨w, l, r, hi, -⟩ := follow_cons_eq_some_iff.1 hrest
    exact ⟨i, w, l, r, hp, hi⟩

/-- The bits of a sequence of codewords and of a path on to an Internal node end in TruncatedInput. -/
theorem Decoded.truncated {s u : State} {xs : List Nat} {p : Codeword} {i w l r : Nat} (h : Decoded s xs u)
    (hp : follow s.inst s.mem s.root p = some i) (hne : p ≠ []) (hi : s.mem.readNode i = some (.internal w l r)) :
    ∃ t, perform (dbits p ++ [.dend]) u = .next t ∧ t.fault = some .truncatedInput ∧ t.dact = true ∧
      t.symq = s.symq ++ xs := by
  obtain ⟨pos, hrun⟩ := perform_dbits_path (j := i) h.fault h.dact (by rw [h.inst, h.mem, h.cur, hp]) hne
    (by rw [h.mem, hi]; exact Option.some_ne_none _)
  have hend := exec_dend_truncatedInput (s := { leafStep u with cur := i, pos := pos })
    ((leafStep_fault u).trans h.fault) ((leafStep_dact u).trans h.dact) (by rw [leafStep_mem, h.mem]; exact hi)
  exact ⟨_, (perform_append hrun).trans (perform_cons_of_exec hend []), rfl, (leafStep_dact u).trans h.dact, h.symq⟩

/-- Settles O37: the cut leaves the cursor at an Internal node, the boundary at a Leaf, no bits at all at the root. -/
theorem truncationInsideACodewordIsDetected : Obligations.TruncationInsideACodewordIsDetected := by
  intro s t xs hP hf hd h ht hxs
  have hdec := (derived_of_exec hf h ht).decodable ht hd
  refine ⟨fun y p hy hp hne hpre => ?inside, fun hne => derivedTableRoundTrips s t xs hP hf hd h ht hne hxs, ?empty⟩
  case inside =>
    obtain ⟨i, w, l, r, hfollow, hi⟩ := (hdec.leaf hy).internal_of_prefix hpre hne
    obtain ⟨u, hrun, hu, -⟩ := hdec.decoded_nil.codewords fun x hx => ⟨hdec.leaf (hxs x hx), hxs x hx⟩
    obtain ⟨v, hend, hv⟩ := hu.truncated hfollow hp hi
    refine ⟨v, ?_, hv⟩
    rw [decodeBits, dbits, List.map_append, List.append_assoc, perform_cons_of_exec hdec.exec_dstart]
    exact (perform_append hrun).trans hend
  case empty =>
    obtain ⟨w, l, r, hn⟩ := hdec.root_internal
    exact ⟨_, emptyBitstringIsTruncated t w l r ht hdec.dact hdec.root_ne_nil hn, rfl, rfl, rfl⟩

/-! ## The single-symbol tree (R146, R187) -/

/-- With legal parameters the entries 0 and 1 are nodes (R6, R51). -/
theorem one_lt_nil {P : Params} (hP : P.legal = true) : 1 < P.nil := by
  have hsw := two_le_two_pow_sw hP
  have hna := two_pow_na P
  rw [Params.nil]
  omega

/-- The path to the only Leaf is one bit 0. -/
theorem leafAt_single {s : State} {w v y r : Nat} (hP : s.inst.legal = true) (hroot : s.root = 1)
    (h1 : s.mem.readNode 1 = some (.internal w 0 r)) (h0 : s.mem.readNode 0 = some (.leaf v y)) :
    leafAt s [false] y :=
  ⟨0, v, follow_cons_eq_some_iff.2 ⟨w, 0, r, by rw [hroot]; exact h1, (Nat.zero_lt_of_lt (one_lt_nil hP)).ne, rfl⟩, h0⟩

/-- A memory with the codeword 0 for a symbol gives it one bit 0 for each occurrence. -/
theorem codewords_replicate (m : Memory) (y n : Nat) :
    codewords (m.writeCt y [false]) (List.replicate n y) = List.replicate n false := by
  simp [codewords, List.flatMap_replicate]

/-- In the single-symbol tree bits 0 decode to its symbol, which waits at the cursor: they are the codewords of any table
that holds 0 for it. -/
theorem decoded_zeros {s : State} {w v y r : Nat} (h : Decoded s [] s) (hP : s.inst.legal = true) (hroot : s.root = 1)
    (h1 : s.mem.readNode 1 = some (.internal w 0 r)) (h0 : s.mem.readNode 0 = some (.leaf v y)) {n : Nat} (hn : 1 ≤ n) :
    ∃ u, perform (dbits (List.replicate n false)) s = .next u ∧ Decoded s (List.replicate n y) u ∧
      ∃ v, u.mem.readNode u.cur = some (.leaf v y) := by
  have hct : (s.mem.writeCt y [false]).readCt y = [false] := by rw [Memory.readCt_writeCt, if_pos rfl]
  obtain ⟨u, hrun, hu, hlast⟩ := h.codewords (m := s.mem.writeCt y [false]) (xs := List.replicate n y) fun x hx => by
    rw [List.eq_of_mem_replicate hx, hct]
    exact ⟨leafAt_single hP hroot h1 h0, List.cons_ne_nil _ _⟩
  rw [codewords_replicate] at hrun
  exact ⟨u, hrun, hu, hlast y (by rw [List.getLast?_replicate, if_neg (Nat.ne_of_gt hn)]; rfl)⟩

/-- Settles O32: each bit 0 is the path to the only Leaf, POS counts the bits, and the right child of the root is NIL. -/
theorem singleSymbolTreeDecodesZeros : Obligations.SingleSymbolTreeDecodesZeros := by
  intro s w v y hf hd hP hroot h1 h0
  have hn : s.mem.readNode s.root = some (.internal w 0 s.inst.nil) := by rw [hroot, h1]
  have hopen : Openable s := ⟨hf, hd, by rw [hroot]; exact (one_lt_nil hP).ne, w, 0, _, hn⟩
  refine ⟨fun n h1n => ?zeros, ?one⟩
  case zeros =>
    obtain ⟨u, hrun, hu, v', hend⟩ := decoded_zeros hopen.decoded_nil hP hroot h1 h0 h1n
    obtain ⟨t, hdend, ht, hdact, hsymq, hpos⟩ := hu.perform_dend hend
    obtain ⟨-, hcount⟩ := posCountsTheBitsModuloItsWidth s u _ hf hd
      ((perform_cons_of_exec hopen.exec_dstart _).trans hrun) hu.fault
    rw [List.length_replicate] at hcount
    exact ⟨t, (hopen.perform_decodeBits hrun).trans hdend, ht, hdact, hsymq, hpos.trans hcount⟩
  case one =>
    have hdbit : exec (.dbit true) (opened s) = .next (raised .absentChild s.root (opened s)) :=
      (exec_dbit_of_internal (s := opened s) hf rfl hn true).trans (bitStep_absentChild (s := opened s) hf hn rfl)
    rw [← hroot]
    exact (perform_cons_of_exec hopen.exec_dstart _).trans (perform_cons_of_exec hdbit [])

end Sys2Proof.Machine
end

section
/-! The rules of faults and operating states (R202, R204, R205, R207, R220). -/

namespace Sys2Proof.Machine

/-! ## A faulted state keeps its fault (R205, R207) -/

/-- In the faulted state a command is RESET, or at most a response is added (R90). -/
theorem Effect.of_faulted {s t : State} {i : Instr} (h : Effect s i t) (hs : s.fault ≠ none) :
    t = s ∨ (∃ v, t = respond v s) ∨ (i = .reset ∧ t = toReset s) := by
  cases h with
  | nop | dropped => exact .inl rfl
  | responded _ v => exact .inr (.inl ⟨v, rfl⟩)
  | reset => exact .inr (.inr ⟨rfl, rfl⟩)
  | _ => contradiction

/-- Settles O39: a refused command is dropped, a command performed adds at most a response, and RESET and the rst input
write the values of R42. -/
theorem onlyResetClearsAFault : Obligations.OnlyResetClearsAFault := by
  intro s t hs h
  cases step_effect h with
  | waited hq => exact .inl ⟨rfl, rfl, rfl⟩
  | reset rest hq => exact .inr ⟨rfl, rfl, rfl, rest, .inl hq⟩
  | refused c rest e hq =>
    rw [raise_faulted (s := { s with cmdq := rest }) hs]
    exact .inl ⟨rfl, rfl, rfl⟩
  | performed c rest i t hq hc he =>
    rcases he.of_faulted hs with rfl | ⟨v, rfl⟩ | ⟨rfl, rfl⟩
    · exact .inl ⟨rfl, rfl, rfl⟩
    · exact .inl ⟨rfl, rfl, rfl⟩
    · exact .inr ⟨rfl, rfl, rfl, rest, .inr ⟨c, hq, hc⟩⟩

/-! ## What a faulting command changes (R204) -/

/-- Settles O42: of the outcomes of a command three record a fault, one on the state as it was, one after the leaf step and
one on an empty CT; the others keep FAULT = 0. -/
theorem faultsArePrecise : Obligations.FaultsArePrecise := by
  intro s t i f hf h ht
  cases exec_effect h with
  | raised _ f info =>
    cases ht
    exact ⟨info, .inl rfl⟩
  | bitRaised b f info =>
    cases ht
    rcases leafStep_cases s with ⟨w, y, hn, hs⟩ | ⟨-, hs⟩ <;> rw [hs]
    · exact ⟨info, .inr (.inl ⟨b, w, y, rfl, hn, rfl⟩)⟩
    · exact ⟨info, .inl rfl⟩
  | deriveRaised f info =>
    cases ht
    exact ⟨info, .inr (.inr ⟨rfl, rfl, fun _ => ⟨rfl, rfl⟩, fun _ => rfl⟩)⟩
  | reset => cases ht
  | bitTaken => simp [hf] at ht
  | _ => cases hf.symm.trans ht

/-! ## The operating states and their moves (R220) -/

theorem operatingState_eq_faulted_iff (s : State) : operatingState s = .faulted ↔ s.fault ≠ none := by
  unfold operatingState
  cases s.fault <;> cases s.dact <;> simp

theorem operatingState_eq_session_iff (s : State) : operatingState s = .session ↔ s.fault = none ∧ s.dact = true := by
  unfold operatingState
  cases s.fault <;> cases s.dact <;> simp

theorem operatingState_eq_idle_iff (s : State) : operatingState s = .idle ↔ s.fault = none ∧ s.dact = false := by
  unfold operatingState
  cases s.fault <;> cases s.dact <;> simp

/-- Only DSTART sets DACT, and only DEND and RESET clear it (R28). -/
theorem Effect.dact_cases {s t : State} {i : Instr} (h : Effect s i t) :
    t.dact = s.dact ∨ (i = .dstart ∧ t.dact = true) ∨ ((i = .dend ∨ i = .reset) ∧ t.dact = false) := by
  cases h with
  | sessionOpened => exact .inr (.inl ⟨rfl, rfl⟩)
  | sessionClosed => exact .inr (.inr ⟨.inl rfl, rfl⟩)
  | reset => exact .inr (.inr ⟨.inr rfl, rfl⟩)
  | bitTaken | bitRaised => exact .inl (leafStep_dact s)
  | _ => exact .inl rfl

theorem Effect.eq_dstart {s t : State} {i : Instr} (h : Effect s i t) (hs : s.dact = false) (ht : t.dact = true) :
    i = .dstart := by
  rcases h.dact_cases with hd | ⟨hi, -⟩ | ⟨-, hd⟩
  · simp [hs, ht] at hd
  · exact hi
  · simp [ht] at hd

theorem Effect.eq_dend_or_reset {s t : State} {i : Instr} (h : Effect s i t) (hs : s.dact = true)
    (ht : t.dact = false) : i = .dend ∨ i = .reset := by
  rcases h.dact_cases with hd | ⟨-, hd⟩ | ⟨hi, -⟩
  · simp [hs, ht] at hd
  · simp [ht] at hd
  · exact hi

/-- Settles O43: the moves between idle and session are those of DACT, and only RESET clears FAULT. -/
theorem operatingStatesMoveAsListed : Obligations.OperatingStatesMoveAsListed := by
  intro s t i h
  have he := exec_effect h
  have hreset (hi : i = .reset) : operatingState t = .idle := by
    subst hi
    cases h
    rfl
  refine ⟨fun hs ht => ?opens, fun hs ht => ?closes, fun hs ht => ?clears, hreset⟩
  case opens =>
    exact he.eq_dstart ((operatingState_eq_idle_iff s).1 hs).2 ((operatingState_eq_session_iff t).1 ht).2
  case closes =>
    exact he.eq_dend_or_reset ((operatingState_eq_session_iff s).1 hs).2 ((operatingState_eq_idle_iff t).1 ht).2
  case clears =>
    rw [operatingState_eq_faulted_iff] at hs
    rw [ne_eq, operatingState_eq_faulted_iff] at ht
    have hi : i = .reset := by
      by_contra hi
      exact ht (he.fault_ne_none hi hs)
    exact ⟨hi, hreset hi⟩

end Sys2Proof.Machine
end

section
/-! The faults each command can raise, by one rule per shared operation: the checks of a command name its faults (R202). -/

namespace Sys2Proof.Machine

/-! ## The faults an answer can record -/

/-- Whatever fault the answer `k` records is one of `fs`. -/
def RaisesOnly (fs : List FaultCode) (k : Result) : Prop :=
  ∀ t f, k = .next t → t.fault = some f → f ∈ fs

theorem visitFault.mem_faultsOf_derive {s : State} {path : Codeword} {f : FaultCode} {info : Nat}
    (h : visitFault s path f info) : f ∈ faultsOf .derive := by
  obtain ⟨i, -, ⟨-, rfl, -⟩ | ⟨-, -, rfl, -⟩ | ⟨-, w, y, -, ⟨-, rfl, -⟩ | ⟨-, -, rfl, -⟩⟩⟩ := h <;> simp [faultsOf]

namespace RaisesOnly

variable {s : State} {fs : List FaultCode} {k : Result} {f : FaultCode}

theorem next (hf : s.fault = none) : RaisesOnly fs (.next s) := by
  rintro t f ⟨⟩ ht
  cases hf.symm.trans ht

theorem raised (info : Nat) (hm : f ∈ fs := by simp [faultsOf]) : RaisesOnly fs (.next (raised f info s)) := by
  rintro t g ⟨⟩ ⟨⟩
  exact hm

theorem raise (hf : s.fault = none) (info : Nat) (hm : f ∈ fs := by simp [faultsOf]) :
    RaisesOnly fs (.next (raise f info s)) := by
  rw [raise_live hf]
  exact .raised info hm

theorem unlessFaulted (hf : s.fault = none) (hk : RaisesOnly fs k) : RaisesOnly fs (unlessFaulted s k) := by
  rwa [unlessFaulted_live hf]

/-- A check adds its own fault to those of the rest of the command. -/
theorem require (hf : s.fault = none) {c : Prop} [Decidable c] {info : Nat} (hk : c → RaisesOnly fs k)
    (hm : f ∈ fs := by simp [faultsOf]) : RaisesOnly fs (require c f info s k) := by
  by_cases hc : c
  · rw [require_pos hc]
    exact hk hc
  · rw [require_neg hc]
    exact .raise hf info hm

theorem requireIndex (hf : s.fault = none) {ok : Bool} {x : Index} (hk : RaisesOnly fs k)
    (hm : .badIndex ∈ fs := by simp [faultsOf]) : RaisesOnly fs (requireIndex ok x s k) :=
  .require hf (fun _ => hk) hm

/-! ## The commands that do more than check and write -/

theorem rdreg (hf : s.fault = none) (x : Index) : RaisesOnly (faultsOf (.rdreg x)) (execRdreg x s) := by
  unfold execRdreg
  split
  · exact .next hf
  · exact .raise hf _

theorem derive (hf : s.fault = none) : RaisesOnly (faultsOf .derive) (exec .derive s) := by
  by_cases hd : derivable s
  · obtain ⟨m, hexec, -⟩ := exists_of_derivable hf hd
    rw [hexec]
    exact .next hf
  · obtain ⟨f, info, m, hexec, -, -, -, hcause⟩ := deriveReportsTheFirstFaultAndEmptiesTheTable s hf hd
    rw [hexec]
    rcases hcause with ⟨-, rfl, -⟩ | ⟨-, path, hvisit, -⟩
    · exact .raised info
    · exact .raised info hvisit.mem_faultsOf_derive

theorem dstart (hf : s.fault = none) : RaisesOnly (faultsOf .dstart) (execDstart s) := by
  refine .unlessFaulted hf (.require hf fun _ => .require hf fun _ => ?_)
  split
  · exact .raise hf _
  · exact .raise hf _
  · exact .next hf

/-- At an Internal node the bit step fails for want of a child only (R182). -/
theorem bitStep (hf : s.fault = none) {w l r : Nat} (hn : s.mem.readNode s.cur = some (.internal w l r)) (b : Bool) :
    RaisesOnly (faultsOf (.dbit b)) (bitStep b s) := by
  rw [Machine.bitStep, hn]
  exact .require hf fun _ => .require hf fun _ => .next hf

end RaisesOnly

/-! ## The walker in a sound session (R26, R182) -/

/-- In a session the invariant gives a valid cursor and an Internal root (R26). -/
theorem Sound.walking {s : State} (h : Sound s) (hf : s.fault = none) (hd : s.dact = true) : Walking s where
  fault := hf
  dact := hd
  root := (h.session hd).root_internal
  cur := (h.session hd).cur_valid

/-- After the leaf step the cursor stands on an Internal node: the root, or where it stood. -/
theorem Walking.leafStep_internal {s : State} (h : Walking s) :
    ∃ w l r, (Machine.leafStep s).mem.readNode (Machine.leafStep s).cur = some (.internal w l r) := by
  rcases hn : s.mem.readNode s.cur with _ | (⟨w, y⟩ | ⟨w, l, r⟩)
  · exact absurd hn h.cur
  · rw [leafStep_of_leaf hn]
    exact h.root
  · rw [leafStep_of_internal hn]
    exact ⟨w, l, r, hn⟩

namespace RaisesOnly

variable {s : State}

theorem dbit (hs : Sound s) (hf : s.fault = none) (b : Bool) : RaisesOnly (faultsOf (.dbit b)) (execDbit b s) := by
  refine .unlessFaulted hf (.require hf fun hd => ?_)
  obtain ⟨w, l, r, hn⟩ := (hs.walking hf hd).leafStep_internal
  exact .bitStep ((leafStep_fault s).trans hf) hn b

theorem dend (hs : Sound s) (hf : s.fault = none) : RaisesOnly (faultsOf .dend) (execDend s) := by
  refine .unlessFaulted hf (.require hf fun hd => ?_)
  split
  · exact .next hf
  · exact .raise hf _
  · rename_i hn
    exact absurd hn (hs.session hd).cur_valid

/-! ## Every command -/

theorem exec (hs : Sound s) (hf : s.fault = none) (i : Instr) : RaisesOnly (faultsOf i) (exec i s) := by
  cases i with
  | nop => exact .next hf
  | reset => exact .next rfl
  | rdreg x => exact .rdreg hf x
  | rdnode | rdct | rdfreq => exact .requireIndex hf (.next hf)
  | wrct | wrfreq => exact .unlessFaulted hf (.requireIndex hf (.next hf))
  | wrnode | setroot | count | esym =>
    exact .unlessFaulted hf (.requireIndex hf (.require hf fun _ => .next hf))
  | clrfreq => exact .unlessFaulted hf (.next hf)
  | build => exact .unlessFaulted hf (.require hf fun _ => .require hf fun _ => .require hf fun _ => .next hf)
  | derive => exact .derive hf
  | dstart => exact .dstart hf
  | dbit b => exact .dbit hs hf b
  | dend => exact .dend hs hf

end RaisesOnly

/-- Settles O41: a command that does not decode is IllegalCommand, and one that does raises the faults of its checks. -/
theorem eachCommandRaisesOnlyItsFaults : Obligations.EachCommandRaisesOnlyItsFaults := by
  intro s t c f hs hf h ht
  rcases hc : decode s.inst c with e | i
  · rw [takeCommand_error hf hc] at h
    cases h
    cases ht
    rfl
  · rw [takeCommand_ok hc] at h
    exact RaisesOnly.exec ((inv_iff s).1 hs) hf i t f h ht

end Sys2Proof.Machine
end

section
/-! No command hangs and none stops the model: each shared operation passes a next state on, so a command's checks do too
(R246, R248). -/

namespace Sys2Proof.Machine

/-! ## The shared operations answer a next state -/

/-- The answer `k` is a next state: no fault of the model and no refusal. -/
def Answers (k : Result) : Prop := ∃ t, k = .next t

namespace Answers

variable {s : State} {k : Result}

theorem next (t : State) : Answers (.next t) := ⟨t, rfl⟩

/-- Under the freeze a command goes on or is dropped (R90). -/
theorem unlessFaulted (hk : Answers k) : Answers (unlessFaulted s k) := by
  by_cases hf : s.fault = none
  · rwa [unlessFaulted_live hf]
  · rw [unlessFaulted_faulted hf]
    exact .next s

/-- A check that fails records its fault, which is a next state (R203). -/
theorem require {c : Prop} [Decidable c] {f : FaultCode} {info : Nat} (hk : Answers k) :
    Answers (require c f info s k) := by
  by_cases hc : c
  · rwa [require_pos hc]
  · rw [require_neg hc]
    exact .next _

theorem requireIndex {ok : Bool} {x : Index} (hk : Answers k) : Answers (requireIndex ok x s k) := .require hk

/-! ## The commands that do more than check and write -/

theorem rdreg (x : Index) (s : State) : Answers (execRdreg x s) := by
  unfold execRdreg
  split
  · exact .next _
  · exact .next _

/-- The walk of DERIVE ends on every structure, a cyclic one too, with a memory or with a fault (R161, R248). -/
theorem derive (s : State) : Answers (execDerive s) := by
  refine .unlessFaulted (.require ?_)
  split
  · exact .next _
  · exact .next _

theorem dstart (s : State) : Answers (execDstart s) := by
  refine .unlessFaulted (.require (.require ?_))
  split
  · exact .next _
  · exact .next _
  · exact .next _

theorem bitStep (b : Bool) (s : State) : Answers (bitStep b s) := by
  unfold Machine.bitStep
  split
  · exact .next _
  · exact .next _
  · exact .require (.require (.next _))

theorem dend (s : State) : Answers (execDend s) := by
  refine .unlessFaulted (.require ?_)
  split
  · exact .next _
  · exact .next _
  · exact .next _

/-! ## Every command -/

theorem exec (i : Instr) (s : State) : Answers (exec i s) := by
  cases i with
  | nop | reset => exact .next _
  | rdreg x => exact .rdreg x s
  | rdnode | rdct | rdfreq => exact .requireIndex (.next _)
  | wrct | wrfreq => exact .unlessFaulted (.requireIndex (.next _))
  | wrnode | setroot | count | esym => exact .unlessFaulted (.requireIndex (.require (.next _)))
  | clrfreq => exact .unlessFaulted (.next _)
  | build => exact .unlessFaulted (.require (.require (.require (.next _))))
  | derive => exact .derive s
  | dstart => exact .dstart s
  | dbit b => exact .unlessFaulted (.require (.bitStep b (leafStep s)))
  | dend => exact .dend s

/-- A command that does not decode records IllegalCommand or is dropped (R90, R91). -/
theorem takeCommand (c : Command) (s : State) : Answers (takeCommand c s) := by
  rcases hc : decode s.inst c with e | i
  · by_cases hf : s.fault = none
    · rw [takeCommand_error hf hc]
      exact .next _
    · rw [takeCommand_error_faulted hf hc]
      exact .next s
  · rw [takeCommand_ok hc]
    exact .exec i s

end Answers

/-! ## The step (R71, R230) -/

theorem step_of_rst {s : State} {rest : List HostInput} (h : s.cmdq = .rst :: rest) :
    step s = .next (toReset { s with cmdq := rest }) := by
  simp [step, serviceHost, takeRst, h]

/-- Settles O52: a step that takes rst answers `toReset`, which is the reset state with the streams and inputs kept. -/
theorem rstInputGivesTheResetState : Obligations.RstInputGivesTheResetState :=
  fun _ _ hq => step_of_rst hq

/-- Settles O47, by the host's next input: the block waits, takes rst, or takes a command, and every command answers. -/
theorem everyStepAnswersANextState : Obligations.EveryStepAnswersANextState := by
  intro s
  rcases hq : s.cmdq with _ | ⟨c | _, rest⟩
  · exact ⟨s, step_of_idle hq⟩
  · rw [step_of_command hq]
    exact Answers.takeCommand c _
  · exact ⟨_, step_of_rst hq⟩

end Sys2Proof.Machine
end
